-- ==== Sys2Proof/Word.lean ====
section
/-! DEFINITION. The machine word. -/

namespace Sys2Proof

/-- R11: every data word, control register and table entry is a 64-bit unsigned word. -/
abbrev Word := BitVec 64

end Sys2Proof
end

