-- ==== Sys2Proof/Syntax.lean ====
section
/-! DEFINITION. The instructions of the core: the ten kernels of R110, each with the descriptor fields that R109
lists for it, the nine-word descriptor that encodes one (R100), and the error codes of R362. -/

namespace Sys2Proof

/-- R100, R107: the nine words of a descriptor, by name. `Desc Word` is a descriptor; the register file holds a
`Desc (Option Word)`, where `none` is the spec's "unwritten" (R34). -/
structure Desc (α : Type) where
  /-- `DESC0` (CMD). -/
  cmd : α
  /-- `DESC1` (SRC1). -/
  src1 : α
  /-- `DESC2` (SRC2). -/
  src2 : α
  /-- `DESC3` (DST). -/
  dst : α
  /-- `DESC4` (MODB). -/
  modb : α
  /-- `DESC5` (KHB). -/
  khb : α
  /-- `DESC6` (MB). -/
  mb : α
  /-- `DESC7` (NTTB). -/
  nttb : α
  /-- `DESC8` (INTTB). -/
  inttb : α
deriving DecidableEq, Repr

/-- R110: one invocation, with the operands R109 gives its opcode. Counts and addresses are naturals (R12). -/
inductive Instr where
  /-- R330. -/
  | init
  /-- R171. -/
  | add (nlimb moff src1 src2 dst modb : Nat)
  /-- R172. -/
  | sub (nlimb moff src1 src2 dst modb : Nat)
  /-- R173. -/
  | mul (nlimb moff src1 src2 dst modb khb mb : Nat)
  /-- R240. -/
  | ntt (nlimb moff src1 dst modb khb mb nttb : Nat)
  /-- R241. -/
  | intt (nlimb moff src1 dst modb khb mb inttb : Nat)
  /-- R305. -/
  | bconv (src1 src2 dst modb : Nat)
  /-- R200. -/
  | auto (nlimb moff step src1 dst modb : Nat)
  /-- R201. -/
  | ilvR (nlimb src1 dst : Nat)
  /-- R202. -/
  | ilvL (nlimb src1 dst : Nat)
deriving DecidableEq, Repr

/-- R362: the causes of a `ConfigError`. -/
inductive ErrCode where
  | reservedOpcode
  | reservedField
  | limbs
  | modIndex
  | modulusZero
  | modulusRange
  | autoStep
  | range
deriving DecidableEq, Repr

end Sys2Proof
end

