-- ==== Sys2Proof/WellFormed.lean ====
section
/-! DEFINITION. The instructions a descriptor can carry: every 16-bit field below 2^16 (R101) and every base
address below 2^64 (R107). -/

namespace Sys2Proof

/-- R101: `NLIMB`, `MOFF` and `STEP` are 16 bits wide. -/
abbrev fitsField (v : Nat) : Bool := decide (v < 2 ^ 16)

/-- R107: a base address is a full 64-bit unsigned number. -/
abbrev fitsWord (v : Nat) : Bool := decide (v < 2 ^ 64)

/-- Whether a descriptor can carry the instruction. -/
def Instr.wellFormed : Instr → Bool
  | .init => true
  | .add n off a b d m => fitsField n && fitsField off && fitsWord a && fitsWord b && fitsWord d && fitsWord m
  | .sub n off a b d m => fitsField n && fitsField off && fitsWord a && fitsWord b && fitsWord d && fitsWord m
  | .mul n off a b d m kh mu =>
      fitsField n && fitsField off && fitsWord a && fitsWord b && fitsWord d && fitsWord m && fitsWord kh && fitsWord mu
  | .ntt n off a d m kh mu tw =>
      fitsField n && fitsField off && fitsWord a && fitsWord d && fitsWord m && fitsWord kh && fitsWord mu && fitsWord tw
  | .intt n off a d m kh mu tw =>
      fitsField n && fitsField off && fitsWord a && fitsWord d && fitsWord m && fitsWord kh && fitsWord mu && fitsWord tw
  | .bconv a b d m => fitsWord a && fitsWord b && fitsWord d && fitsWord m
  | .auto n off st a d m =>
      fitsField n && fitsField off && fitsField st && fitsWord a && fitsWord d && fitsWord m
  | .ilvR n a d => fitsField n && fitsWord a && fitsWord d
  | .ilvL n a d => fitsField n && fitsWord a && fitsWord d

end Sys2Proof
end

