-- ==== Sys2Proof/Decode.lean ====
section
/-! DEFINITION. Decoding a descriptor (R114), total on any nine words and rejecting by name, and after it the
encoder, written from the same layout (R101, R107). -/

namespace Sys2Proof

/-- R13: the bit field `v[hi:lo]` as a natural number. -/
def bitField (v hi lo : Nat) : Nat := v / 2 ^ lo % 2 ^ (hi - lo + 1)

namespace Desc

/-- R102: `OPC = DESC0[3:0]`. -/
def opc (d : Desc Word) : Nat := bitField d.cmd.toNat 3 0

/-- R106: `RSV = DESC0[15:4]`. -/
def rsv (d : Desc Word) : Nat := bitField d.cmd.toNat 15 4

/-- R103: `NLIMB = DESC0[31:16]`. -/
def nlimb (d : Desc Word) : Nat := bitField d.cmd.toNat 31 16

/-- R104: `MOFF = DESC0[47:32]`. -/
def moff (d : Desc Word) : Nat := bitField d.cmd.toNat 47 32

/-- R105: `STEP = DESC0[63:48]`. -/
def step (d : Desc Word) : Nat := bitField d.cmd.toNat 63 48

end Desc

/-- What the decoder answers: an instruction, or the name of the configuration error it raises. -/
inductive Decoded where
  | instr (i : Instr)
  | reject (code : ErrCode)
deriving DecidableEq, Repr

/-- R114, R110 to R113: the decoding procedure. `extOps` is `EXT_PERM_OPS`. INIT decodes, and its meaning refuses
it (R330). -/
def decode (extOps : Bool) (d : Desc Word) : Decoded :=
  if 10 ≤ d.opc ∨ (7 ≤ d.opc ∧ extOps = false) then .reject .reservedOpcode
  else if d.rsv ≠ 0 then .reject .reservedField
  else match d.opc with
    | 0 => .instr .init
    | 1 => .instr (.add d.nlimb d.moff d.src1.toNat d.src2.toNat d.dst.toNat d.modb.toNat)
    | 2 => .instr (.sub d.nlimb d.moff d.src1.toNat d.src2.toNat d.dst.toNat d.modb.toNat)
    | 3 => .instr (.mul d.nlimb d.moff d.src1.toNat d.src2.toNat d.dst.toNat d.modb.toNat d.khb.toNat d.mb.toNat)
    | 4 => .instr (.ntt d.nlimb d.moff d.src1.toNat d.dst.toNat d.modb.toNat d.khb.toNat d.mb.toNat d.nttb.toNat)
    | 5 => .instr (.intt d.nlimb d.moff d.src1.toNat d.dst.toNat d.modb.toNat d.khb.toNat d.mb.toNat d.inttb.toNat)
    | 6 => .instr (.bconv d.src1.toNat d.src2.toNat d.dst.toNat d.modb.toNat)
    | 7 => .instr (.auto d.nlimb d.moff d.step d.src1.toNat d.dst.toNat d.modb.toNat)
    | 8 => .instr (.ilvR d.nlimb d.src1.toNat d.dst.toNat)
    | 9 => .instr (.ilvL d.nlimb d.src1.toNat d.dst.toNat)
    | _ => .reject .reservedOpcode

/-- R110: the opcode number of each kernel. -/
def Instr.opcode : Instr → Nat
  | .init => 0
  | .add .. => 1
  | .sub .. => 2
  | .mul .. => 3
  | .ntt .. => 4
  | .intt .. => 5
  | .bconv .. => 6
  | .auto .. => 7
  | .ilvR .. => 8
  | .ilvL .. => 9

/-- R101: the CMD word of an opcode and its three 16-bit fields, with `RSV = 0`. -/
def cmdWord (opc nlimb moff step : Nat) : Word :=
  BitVec.ofNat 64 (opc + nlimb * 2 ^ 16 + moff * 2 ^ 32 + step * 2 ^ 48)

/-- R115: the descriptor of an instruction; a word it does not use encodes as 0. -/
def encode (i : Instr) : Desc Word :=
  let w (v : Nat) : Word := BitVec.ofNat 64 v
  match i with
  | .init =>
      { cmd := cmdWord i.opcode 0 0 0, src1 := 0, src2 := 0, dst := 0, modb := 0, khb := 0, mb := 0, nttb := 0, inttb := 0 }
  | .add n off a b d m =>
      { cmd := cmdWord i.opcode n off 0, src1 := w a, src2 := w b, dst := w d, modb := w m, khb := 0, mb := 0,
        nttb := 0, inttb := 0 }
  | .sub n off a b d m =>
      { cmd := cmdWord i.opcode n off 0, src1 := w a, src2 := w b, dst := w d, modb := w m, khb := 0, mb := 0,
        nttb := 0, inttb := 0 }
  | .mul n off a b d m kh mu =>
      { cmd := cmdWord i.opcode n off 0, src1 := w a, src2 := w b, dst := w d, modb := w m, khb := w kh, mb := w mu,
        nttb := 0, inttb := 0 }
  | .ntt n off a d m kh mu tw =>
      { cmd := cmdWord i.opcode n off 0, src1 := w a, src2 := 0, dst := w d, modb := w m, khb := w kh, mb := w mu,
        nttb := w tw, inttb := 0 }
  | .intt n off a d m kh mu tw =>
      { cmd := cmdWord i.opcode n off 0, src1 := w a, src2 := 0, dst := w d, modb := w m, khb := w kh, mb := w mu,
        nttb := 0, inttb := w tw }
  | .bconv a b d m =>
      { cmd := cmdWord i.opcode 0 0 0, src1 := w a, src2 := w b, dst := w d, modb := w m, khb := 0, mb := 0, nttb := 0,
        inttb := 0 }
  | .auto n off st a d m =>
      { cmd := cmdWord i.opcode n off st, src1 := w a, src2 := 0, dst := w d, modb := w m, khb := 0, mb := 0, nttb := 0,
        inttb := 0 }
  | .ilvR n a d =>
      { cmd := cmdWord i.opcode n 0 0, src1 := w a, src2 := 0, dst := w d, modb := 0, khb := 0, mb := 0, nttb := 0,
        inttb := 0 }
  | .ilvL n a d =>
      { cmd := cmdWord i.opcode n 0 0, src1 := w a, src2 := 0, dst := w d, modb := 0, khb := 0, mb := 0, nttb := 0,
        inttb := 0 }

/-- The descriptor whose 576 bits are the number `v`, `DESC0` in the low bits. -/
def descOfNat (v : Nat) : Desc Word :=
  let w (k : Nat) : Word := BitVec.ofNat 64 (v / 2 ^ (64 * k))
  { cmd := w 0, src1 := w 1, src2 := w 2, dst := w 3, modb := w 4, khb := w 5, mb := w 6, nttb := w 7, inttb := w 8 }

/-- The instruction the decoder reads from the low `nbits` bits of `w`, every later bit of the descriptor 0, with
the extension opcodes decoded (`EXT_PERM_OPS = true`, log 19). -/
def decodeTableWord (nbits w : Nat) : Option Instr :=
  match decode true (descOfNat (w % 2 ^ nbits)) with
  | .instr i => some i
  | .reject _ => none

end Sys2Proof
end

