-- ==== Sys2Proof/Machine/Arith.lean ====
section
/-! DEFINITION. The ModularArithmeticUnit (R140 to R149): pure functions on naturals, with the widths of the spec's
pseudocode, and the list helpers the kernels compute with. -/

namespace Sys2Proof.Machine

/-- R12: truncation to `n` bits. -/
def wrap (n v : Nat) : Nat := v % 2 ^ n

/-- R13: `bitlen(v)`, the least `n` with `v < 2^n`. -/
def bitLen (v : Nat) : Nat := if v = 0 then 0 else Nat.log2 v + 1

/-- R141, R142: `AddMod(a, b, q, add)`: modular addition when `add`, else modular subtraction. -/
def addMod (a b q : Nat) (add : Bool) : Nat :=
  if add then
    let s := a + b
    if q ≤ s then s - q else s
  else if b ≤ a then a - b else a + q - b

/-- R144: the Barrett shift of `q`. -/
def barrettShift (q : Nat) : Nat := bitLen q

/-- R144: the Barrett reciprocal of `q`. -/
def barrettRecip (q : Nat) : Nat := 2 ^ (2 * bitLen q) / q

/-- R145: one correction stage of the Barrett multiplier. -/
def correctOnce (q r : Nat) : Nat := if q ≤ r then r - q else r

/-- R145: the quotient estimate `qh`. -/
def barrettQuotient (a b kh mu : Nat) : Nat :=
  let u := (a * b) / 2 ^ (kh - 1)
  (u * mu) / 2 ^ (kh + 1)

/-- R145: `MultMod(a, b, q, KH, MU)`. The 64-bit difference is written as `x + 2^64 - y`, both below `2^64`. -/
def multMod (a b q kh mu : Nat) : Nat :=
  let low := wrap 64 (a * b)
  let sub := wrap 64 (barrettQuotient a b kh mu * q)
  let r := wrap 64 (low + 2 ^ 64 - sub)
  correctOnce q (correctOnce q r)

/-- R148: `Karatsuba(a, b)`, from 32-bit halves and three products. No opcode reaches it. -/
def karatsuba (a b : Word) : BitVec 128 :=
  let a0 := a.toNat % 2 ^ 32
  let a1 := a.toNat / 2 ^ 32
  let b0 := b.toNat % 2 ^ 32
  let b1 := b.toNat / 2 ^ 32
  let z0 := a0 * b0
  let z2 := a1 * b1
  let z1 := (a0 + a1) * (b0 + b1) - z0 - z2
  BitVec.ofNat 128 (z2 * 2 ^ 64 + z1 * 2 ^ 32 + z0)

/-- R149: `NegMod(x, q)`. -/
def negMod (x q : Nat) : Nat := if x = 0 then 0 else q - x

/-- The list `[f 0, ..., f (n-1)]`. -/
def tab {α : Type} (n : Nat) (f : Nat → α) : List α := (List.range n).map f

/-- `f 0 + ... + f (n-1)`, exact. -/
def sumTo (n : Nat) (f : Nat → Nat) : Nat :=
  match n with
  | 0 => 0
  | k + 1 => sumTo k f + f k

/-- R14: `x < 2^L` with its `L` low bits reversed. -/
def brev : Nat → Nat → Nat
  | 0, _ => 0
  | l + 1, x => x % 2 * 2 ^ l + brev l (x / 2)

end Sys2Proof.Machine
end

