-- ==== Sys2Proof/Config.lean ====
section
/-! DEFINITION. The configuration record `Cfg` of R8, its construction constraints (R9), and the free values:
what the spec leaves open and the machine goes on from. -/

namespace Sys2Proof

/-- R220: which transform NTT and INTT compute. `ref` is the spec's `REF`, `opq` its `OPAQUE`. -/
inductive NttConvention where
  | ref
  | opq
deriving DecidableEq, Repr

/-- R8, R195: `GALOIS_STEP_TABLE`, an OPEN map from a 16-bit step to a number, written as plain data (log 17).
A step in `listed` has the value listed first for it; any other step `r` has `slope * r + offset`. Every map
of 16-bit steps can be written so. -/
structure StepTable where
  listed : List (Nat × Nat)
  slope : Nat
  offset : Nat
deriving DecidableEq, Repr

/-- R8: the configuration record, field for field. -/
structure Cfg where
  /-- `SQRT`, the tile side length `S`. -/
  sqrt : Nat
  /-- `RING_DIM`, coefficients per limb, `N`. -/
  ringDim : Nat
  /-- `MAX_LIMBS`, the number of tile slots of a bank. -/
  maxLimbs : Nat
  /-- `BU_NUM`, rows of each twiddle table. -/
  buNum : Nat
  /-- `SIZE_Q`, rows of the PE array. -/
  sizeQ : Nat
  /-- `SIZE_P`, columns of the PE array. -/
  sizeP : Nat
  /-- `NUM_MODULI`, entries of each per-modulus table. -/
  numModuli : Nat
  /-- `EXT_WORDS`, size of the external memory in words. -/
  extWords : Nat
  /-- `ACC_WIDTH`, bits of the base-conversion accumulator. -/
  accWidth : Nat
  /-- `GALOIS_STEP_TABLE`. -/
  galois : StepTable
  /-- `NTT_CONVENTION`. -/
  nttConvention : NttConvention
  /-- `EXT_PERM_OPS`, whether opcodes 7, 8 and 9 are decoded. -/
  extPermOps : Bool
  /-- `HOST_BYTE_ORDER`: entry `j` is the byte lane of a word (0 the least significant) that the host sees at
  byte offset `j` (R72, log 23). No core rule reads it. -/
  hostByteOrder : List Nat
deriving DecidableEq, Repr

namespace Cfg

/-- R10: `LOGS = log2(S)`. -/
def logs (c : Cfg) : Nat := Nat.log2 c.sqrt

/-- R10: `TWN = BU_NUM * N`, words of one twiddle table. -/
def twn (c : Cfg) : Nat := c.buNum * c.ringDim

/-- R8, R9: the construction constraints. A `Cfg` that breaks one builds no machine. -/
abbrev Valid (c : Cfg) : Prop :=
  (1 ≤ c.sqrt ∧ 2 ^ c.logs = c.sqrt) ∧ c.ringDim = c.sqrt * c.sqrt ∧
  (1 ≤ c.maxLimbs ∧ c.maxLimbs ≤ 65535) ∧ (c.nttConvention = .ref → 2 ≤ c.buNum) ∧
  1 ≤ c.sizeQ ∧ 1 ≤ c.sizeP ∧ 1 ≤ c.numModuli ∧ c.extWords ≤ 2 ^ 64 ∧ 128 ≤ c.accWidth ∧
  (c.hostByteOrder.length = 8 ∧ ∀ lane ∈ List.range 8, lane ∈ c.hostByteOrder)

/-- 95_test_vectors.md section 9.1: the spec's own example configuration (log 2). -/
def specExample : Cfg where
  sqrt := 2
  ringDim := 4
  maxLimbs := 2
  buNum := 2
  sizeQ := 2
  sizeP := 3
  numModuli := 2
  extWords := 256
  accWidth := 128
  galois := { listed := [], slope := 2, offset := 1 }
  nttConvention := .ref
  extPermOps := true
  hostByteOrder := [0, 1, 2, 3, 4, 5, 6, 7]

end Cfg

/-! Free values (log 8, log 16, log 29): constants with no body, so that no proof can see what they are. -/

/-- R302: the `x` latch of PE `(k, c)` at the start of a BCONV run, `freeLatchX draw k c`. -/
opaque Config.freeLatchX : Nat → Nat → Nat → Word

/-- R302: the sum latch of PE `(k, c)` at the start of a BCONV run, `freeLatchS draw k c`; the machine keeps its
low `ACC_WIDTH` bits. -/
opaque Config.freeLatchS : Nat → Nat → Nat → Nat

/-- R391: the word at an EXT address of the write set of an invocation that a reset ended, `freeWord draw a`. -/
opaque Config.freeWord : Nat → Nat → Word

/-- R48, R74: the word that EXT holds at address `a` while nothing has written it. Its contents are the
host's, and no rule states them (log 29). -/
opaque Config.hostWord : Nat → Word

/-- R233: the forward transform of the `OPAQUE` convention, `nttF tile q KH MU table`. Tiles and tables are
row-major lists of values. -/
opaque Config.nttF : List Nat → Nat → Nat → Nat → List Nat → List Nat

/-- R233: the inverse transform of the `OPAQUE` convention. -/
opaque Config.nttI : List Nat → Nat → Nat → Nat → List Nat → List Nat

/-- R233: "the tables the convention expects", `tablesOK q F I`. -/
opaque Config.tablesOK : Nat → List Nat → List Nat → Prop

end Sys2Proof
end

