-- ==== Sys2Proof/Machine/Memory.lean ====
section
/-! DEFINITION. Sparse word memory: EXT (R70, R71), and the storage of one tile (R41, R42). -/

namespace Sys2Proof.Machine

/-- A memory of 64-bit words: the written words, by strictly rising address. An unlisted address is "unwritten" (R42,
R48; log 4). The word is the smallest unit the spec addresses (R71; log 5). -/
abbrev Memory := List (Nat × Word)

namespace Memory

/-- The canonical form: addresses strictly rising. (An unlisted word is unwritten, and no entry is.) -/
abbrev wf (m : Memory) : Prop := m.Pairwise fun x y => x.1 < y.1

/-- Every listed address is below `bound`. -/
abbrev Below (bound : Nat) (m : Memory) : Prop := ∀ cell ∈ m, cell.1 < bound

/-- R15, R74: the word last written at `a`, or `none` where nothing has been written. -/
def read : Memory → Nat → Option Word
  | [], _ => none
  | (k, v) :: rest, a => if k = a then some v else read rest a

/-- R15, R74: set the word at `a` to `v`. -/
def write : Memory → Nat → Word → Memory
  | [], a, v => [(a, v)]
  | (k, w) :: rest, a, v =>
      if a < k then (a, v) :: (k, w) :: rest
      else if a = k then (a, v) :: rest
      else (k, w) :: write rest a v

/-- Write the words of a list at consecutive addresses from `base`. -/
def writeWords : Memory → Nat → List Word → Memory
  | m, _, [] => m
  | m, base, w :: ws => writeWords (m.write base w) (base + 1) ws

/-- `for all x in [0, len): m[dest x] <- val x`. -/
def scatter (dest : Nat → Nat) (val : Nat → Word) : Nat → Memory → Memory
  | 0, m => m
  | x + 1, m => (scatter dest val x m).write (dest x) (val x)

end Memory

/-- R70, R74: the word EXT holds at `a`: the one last written, or, where nothing has been written, a free value of the
address (log 29). -/
def extWord (ext : Memory) (a : Nat) : Word := (ext.read a).getD (Config.hostWord a)

/-- R72: the byte the host sees at byte offset `j` of a word, under the byte order `order`. -/
def hostByteOf (order : List Nat) (w : Word) (j : Nat) : BitVec 8 :=
  BitVec.ofNat 8 (w.toNat / 2 ^ (8 * order.getD j 0))

/-- R72: the host's byte view of EXT: byte `j` of word `a` is host byte `8 * a + j`. No core rule uses it. The bytes of a
word nothing has written are those of the free value that a host read of the word returns (log 29). -/
def hostByteView (order : List Nat) (ext : Memory) (byteAddr : Nat) : BitVec 8 :=
  hostByteOf order (extWord ext (byteAddr / 8)) (byteAddr % 8)

end Sys2Proof.Machine
end

