-- ==== Sys2Proof/Machine/State.lean ====
section
/-! DEFINITION. The state of the machine (R30), the reasons it can stop, and the state after reset (R48). -/

namespace Sys2Proof.Machine

/-- How the machine stops with a fault. -/
inductive Fault where
  /-- The core reads or writes an EXT word at or above `EXT_WORDS`, which does not exist (R70). Raised by the core's
  read and write of one word. The range check of R77 rejects such an invocation before any access, so no step raises it.
  Safe (log 15). -/
  | outsideExt (addr : Nat)
deriving DecidableEq, Repr

/-- Why the model gives no meaning: the reasons of R334, and three of the model's own. -/
inductive Refusal where
  /-- An instruction whose arm in `exec` is not written yet. No arm is. Safe. -/
  | notModelled (mnemonic : String)
  /-- R330: INIT. Raised by its meaning. Safe. -/
  | initUndefined
  /-- R143, R147, R334: an operand or a twiddle word that is not below its modulus. Raised by ADD, SUB, MUL, NTT,
  INTT and AUTO. Safe. -/
  | operandRange
  /-- R147, R334: Barrett constants other than those of R144. Raised by MUL, NTT and INTT. Safe. -/
  | barrettConstants
  /-- R89, R334: BCONV output overlapping an input. Raised by BCONV. Safe. -/
  | bconvAlias
  /-- R297, R334: an exact BCONV sum of `2^ACC_WIDTH` or more. Raised by BCONV. Safe. -/
  | bconvOverflow
  /-- R37, R331, R340: a host access the core does not accept. Raised by the host port. Safe. -/
  | hostBusy
  /-- R34, R42, R331, R334, R340: a read of a descriptor register or a tile word nothing has written, and, as
  95_test_vectors.md section 8.2 case 11 says, an EXT word that an NTT reads and nothing has written. Raised by the host's
  read of a descriptor register, by GO, by the reads of tile words and by NTT. Safe (log 3, log 4, log 14). -/
  | unwrittenRead
  /-- R9: the state's configuration breaks a constraint of R8, so there is no such machine. Raised by the step.
  Safe (log 1). -/
  | invalidConfig
  /-- R46: the mark REFUSED is set, so no further step is taken. Raised by the step. Safe (log 11). -/
  | alreadyRefused
deriving DecidableEq, Repr

/-- R43: one processing element. -/
structure Pe where
  /-- `Wt[k][c]`, the stationary weight. -/
  wt : Word
  /-- `Md[k][c]`, the stationary column modulus. -/
  md : Word
  /-- `XR[k][c]`, the latch of the `x` value forwarded along the row. -/
  xr : Word
  /-- `SR[k][c]`, the latch of the partial sum forwarded down the column, `ACC_WIDTH` bits (log 26). -/
  sr : Nat
deriving DecidableEq, Repr

/-- A tile: word `n = i*S + j` is `T[i][j]` (R14), written or unwritten (R42). -/
abbrev Tile := Memory

/-- R340, R390: what the outside world does to the machine. -/
inductive HostAction where
  /-- `CtlRead(r)`. -/
  | ctlRead (r : Nat)
  /-- `CtlWrite(r, v)`. -/
  | ctlWrite (r : Nat) (v : Word)
  /-- A host read of EXT word `a`. -/
  | memRead (a : Nat)
  /-- A host write of EXT word `a`. -/
  | memWrite (a : Nat) (v : Word)
  /-- A reset event. -/
  | reset
deriving DecidableEq, Repr

/-- The two agents of R82. -/
inductive Agent where
  | host
  | core
deriving DecidableEq, Repr

/-- R30: the machine state. The fields after `ext` are the model's own (INVENTORY.md). -/
structure State where
  /-- The configuration: a parameter of the machine, which no step changes (R30; log 1). -/
  cfg : Cfg
  /-- `DESC0` to `DESC8`; `none` is "unwritten" (R34; log 3). -/
  desc : Desc (Option Word)
  /-- `STATUS` (R36). -/
  status : Word
  /-- `D[0..8]`, the copy of the descriptor taken at GO (R331). -/
  snap : Desc Word
  /-- Tile bank `TA` (R41). -/
  ta : List Tile
  /-- Tile bank `TB` (R41). -/
  tb : List Tile
  /-- Tile bank `TC` (R41). -/
  tc : List Tile
  /-- `PEA`: row `k`, column `c` (R43). -/
  pea : List (List Pe)
  /-- The captured-row count of each column's collector (R43). -/
  captured : List Nat
  /-- `CYC` (R45). -/
  cyc : Nat
  /-- `REFUSED` (R46). -/
  refused : Bool
  /-- `EXT` (R70). -/
  ext : Memory
  /-- The host accesses still to come, the next one first (log 10). -/
  host : List HostAction
  /-- Who moves next while `BUSY = 1`; when it is used up, the core (log 9). -/
  turns : List Agent
  /-- The values returned to the host's reads, newest first (log 10). -/
  replies : List Word
  /-- How many times a free value has been drawn (log 8). -/
  draws : Nat
deriving DecidableEq, Repr

/-- R42: a bank of `MAX_LIMBS` tiles with every word unwritten. -/
def unwrittenBank (c : Cfg) : List Tile := List.replicate c.maxLimbs []

/-- R48: the PE array after reset, unspecified by the spec: every weight, modulus and latch 0 (DESIGN CHOICE, log 7). -/
def resetPea (c : Cfg) : List (List Pe) :=
  List.replicate c.sizeQ (List.replicate c.sizeP { wt := 0, md := 0, xr := 0, sr := 0 })

/-- R48: a machine with configuration `c`, right after reset, with nothing known of EXT. -/
def State.resetOf (c : Cfg) : State where
  cfg := c
  desc := { cmd := none, src1 := none, src2 := none, dst := none, modb := none, khb := none, mb := none, nttb := none,
            inttb := none }
  status := 0
  snap := { cmd := 0, src1 := 0, src2 := 0, dst := 0, modb := 0, khb := 0, mb := 0, nttb := 0, inttb := 0 }
  ta := unwrittenBank c
  tb := unwrittenBank c
  tc := unwrittenBank c
  pea := resetPea c
  captured := List.replicate c.sizeP 0
  cyc := 0
  refused := false
  ext := []
  host := []
  turns := []
  replies := []
  draws := 0

/-- R9: the machine built from a configuration: none from one that breaks a constraint. -/
def State.build (c : Cfg) : Option State := if c.Valid then some (State.resetOf c) else none

/-- The machine right after reset, for the spec's example configuration (log 2). -/
def State.reset : State := State.resetOf Cfg.specExample

end Sys2Proof.Machine
end

