-- ==== Sys2Proof/Machine/Flags.lean ====
section
/-! DEFINITION. The status bits (R36). The core has no arithmetic flags (R38), so these are all its flags. -/

namespace Sys2Proof.Machine

/-- R362: the number a cause is reported as. -/
def errNumber : ErrCode → Nat
  | .reservedOpcode => 1
  | .reservedField => 2
  | .limbs => 3
  | .modIndex => 4
  | .modulusZero => 5
  | .modulusRange => 6
  | .autoStep => 7
  | .range => 8

/-- R331: `STATUS` of an accepted GO: `BUSY` alone. -/
def statusBusy : Word := 1

/-- R332: `STATUS` of a completed invocation: `DONE` alone. -/
def statusDone : Word := 2

/-- R332, R361: `STATUS` of a rejected invocation: `ERR` and the code. -/
def statusError (code : ErrCode) : Word := BitVec.ofNat 64 (4 + errNumber code * 0x100)

namespace State

/-- R36: `STATUS.BUSY`. -/
def busy (s : State) : Bool := s.status.getLsbD 0

/-- R36: `STATUS.DONE`. -/
def done (s : State) : Bool := s.status.getLsbD 1

/-- R36: `STATUS.ERR`. -/
def err (s : State) : Bool := s.status.getLsbD 2

/-- R36: `STATUS.ERR_CODE`. -/
def errCode (s : State) : Nat := s.status.toNat / 2 ^ 8 % 2 ^ 8

end State

end Sys2Proof.Machine
end

