-- ==== Sys2Proof/Machine/Ops.lean ====
section
/-! DEFINITION. The shared operations: how an invocation ends early and how its end is reported (R16, R332, R361),
the core's access to EXT and to tile words (R15, R42), the loops of R17, and Load and Store (R272, R273). -/

namespace Sys2Proof.Machine

/-- R16: the ways an invocation ends other than by completing. -/
inductive Stop where
  /-- `raise ConfigError(code)`. -/
  | raise (code : ErrCode)
  /-- `refuse(reason)`. -/
  | refuse (reason : Refusal)
  /-- An access to an address that does not exist. -/
  | fault (reason : Fault)
deriving DecidableEq, Repr

/-- A value, or the way the invocation ends. -/
abbrev Res (α : Type) := Except Stop α

/-- Go on if `p` holds, else end by `e`. -/
def check (p : Prop) [Decidable p] (e : Stop) : Res Unit := if p then .ok () else .error e

/-- R17: `for x in [0, n)`, collecting a value from each iteration; the first that ends the invocation ends the loop. -/
def gather {α : Type} : Nat → (Nat → Res α) → Res (List α)
  | 0, _ => .ok []
  | n + 1, f => do
      let a ← f 0
      let as ← gather n fun x => f (x + 1)
      .ok (a :: as)

/-- R17: `for x in [0, n)` with a check in each iteration. -/
def each : Nat → (Nat → Res Unit) → Res Unit
  | 0, _ => .ok ()
  | n + 1, f => do
      f 0
      each n fun x => f (x + 1)

/-! The end of an invocation. -/

/-- R361: entering the configuration error `code`: only `STATUS` changes. There is no return from it (R366): the
next accepted GO clears it (`acceptGo`). -/
def raiseConfigError (code : ErrCode) (s : State) : State := { s with status := statusError code }

/-- R331: an accepted GO: the snapshot is taken, `BUSY` is set, and `DONE`, `ERR` and `ERR_CODE` are cleared. -/
def acceptGo (d : Desc Word) (s : State) : State := { s with snap := d, status := statusBusy }

/-- R332: a completed invocation. -/
def complete (s : State) : State := { s with status := statusDone }

/-- R332: how an invocation started in `s` ends. -/
def finish (s : State) : Res State → Host.Outcome State Fault Refusal
  | .ok t => .next (complete t)
  | .error (.raise code) => .next (raiseConfigError code s)
  | .error (.refuse reason) => .refused reason
  | .error (.fault reason) => .fault reason

/-- R46: the state the machine is left in after an outcome: a refusal sets the mark `REFUSED` and changes nothing
else; the step then refuses every further step (log 11). -/
def State.settle (s : State) : Host.Outcome State Fault Refusal → State
  | .next t => t
  | .fault _ => s
  | .refused _ => { s with refused := true }

/-! Access to words. -/

/-- R15, R71: the core's read of EXT word `a`. A word nothing has written reads as a free value (log 29). -/
def coreRead (s : State) (a : Nat) : Res Word :=
  if a < s.cfg.extWords then .ok (extWord s.ext a) else .error (.fault (.outsideExt a))

/-- R15, R71: the core's write of EXT word `a`. -/
def coreWrite (s : State) (a : Nat) (v : Word) : Res State :=
  if a < s.cfg.extWords then .ok { s with ext := s.ext.write a v } else .error (.fault (.outsideExt a))

/-- R42: the word of a tile; reading an unwritten one stops. -/
def tileWord (t : Tile) (x : Nat) : Res Word :=
  match t.read x with
  | some w => .ok w
  | none => .error (.refuse .unwrittenRead)

/-- All words of a tile as values, in coefficient order (R14). -/
def tileValues (c : Cfg) (t : Tile) : Res (List Nat) :=
  gather c.ringDim fun x => do
    let w ← tileWord t x
    .ok w.toNat

/-- The tile whose words are the values of a list, in coefficient order (R14). -/
def tileOf (vs : List Nat) : Tile := Memory.writeWords [] 0 (vs.map (BitVec.ofNat 64))

/-- Tile `l` of a bank. -/
def slot (bank : List Tile) (l : Nat) : Tile := bank.getD l []

/-- The bank with its first tiles replaced; the remaining tiles are untouched (R274). -/
def putTiles (bank tiles : List Tile) : List Tile := tiles ++ bank.drop tiles.length

/-- The start of phase 4 of R333: every tile word is unwritten (R42) and `CYC` is 0 (R402; log 12). -/
def beginKernel (s : State) : State :=
  { s with ta := unwrittenBank s.cfg, tb := unwrittenBank s.cfg, tc := unwrittenBank s.cfg, cyc := 0 }

/-! DmaLoadStore. -/

/-- R271: the EXT address of coefficient `x = i*S + j` of limb `l` of the tiled buffer at `base`. -/
def tiledAddr (c : Cfg) (base l x : Nat) : Nat := base + l * c.ringDim + x

/-- R272: the tile of limb `l`, read from the buffer at `base`. -/
def loadTile (s : State) (base l : Nat) : Res Tile := do
  let ws ← gather s.cfg.ringDim fun x => coreRead s (tiledAddr s.cfg base l x)
  .ok (Memory.writeWords [] 0 ws)

/-- R272: `Load(base, bank, n)`. -/
def load (s : State) (base : Nat) (bank : List Tile) (n : Nat) : Res (List Tile) := do
  let tiles ← gather n (loadTile s base)
  .ok (putTiles bank tiles)

/-- R71: the core's writes of a list of words at consecutive addresses from `base`. -/
def coreWriteWords (s : State) (base : Nat) : List Word → Res State
  | [] => .ok s
  | w :: ws => do
      let s' ← coreWrite s base w
      coreWriteWords s' (base + 1) ws

/-- R273: `Store(base, bank, n)`. Word `y = l*N + i*S + j` of the buffer is coefficient `y mod N` of tile `y div N`
(R271). -/
def store (s : State) (base : Nat) (bank : List Tile) (n : Nat) : Res State := do
  let ws ← gather (n * s.cfg.ringDim) fun y => tileWord (slot bank (y / s.cfg.ringDim)) (y % s.cfg.ringDim)
  coreWriteWords s base ws

end Sys2Proof.Machine
end

