-- ==== Sys2Proof/Machine/Operands.lean ====
section
/-! DEFINITION. The operands of an invocation: the EXT words each opcode reads and writes (R109), the boundary checks
on them (R363), and the refusal checks that several kernels share (R334). -/

namespace Sys2Proof.Machine

/-- The EXT words `base` to `base + len - 1` (none when `len = 0`). -/
structure Span where
  base : Nat
  len : Nat
deriving DecidableEq, Repr

/-- Whether address `a` is in the range. -/
abbrev Span.Has (r : Span) (a : Nat) : Prop := r.base ≤ a ∧ a < r.base + r.len

/-- R77: whether every word of the range exists. -/
abbrev Span.inside (words : Nat) (r : Span) : Prop := r.len = 0 ∨ r.base + r.len ≤ words

/-- R89: whether two ranges share a word. -/
abbrev Span.overlaps (r t : Span) : Prop :=
  r.len ≠ 0 ∧ t.len ≠ 0 ∧ r.base < t.base + t.len ∧ t.base < r.base + r.len

/-- R109: `[base, +n*N)`, the `n` active limbs of a tiled buffer. -/
def tiledSpan (c : Cfg) (base n : Nat) : Span := ⟨base, n * c.ringDim⟩

/-- R109: the entries `base + g` for `g` in `G = {moff + l : l < n}`. -/
def entrySpan (base moff n : Nat) : Span := ⟨base + moff, n⟩

/-- R109: the blocks `[base + g*TWN, +TWN)` for `g` in `G`, which are consecutive. -/
def twiddleSpan (c : Cfg) (base moff n : Nat) : Span := ⟨base + moff * c.twn, n * c.twn⟩

/-- R109: the EXT words an instruction reads. -/
def readSpans (c : Cfg) : Instr → List Span
  | .init => []
  | .add n off a b _ m => [tiledSpan c a n, tiledSpan c b n, entrySpan m off n]
  | .sub n off a b _ m => [tiledSpan c a n, tiledSpan c b n, entrySpan m off n]
  | .mul n off a b _ m kh mu =>
      [tiledSpan c a n, tiledSpan c b n, entrySpan m off n, entrySpan kh off n, entrySpan mu off n]
  | .ntt n off a _ m kh mu tw =>
      [tiledSpan c a n, entrySpan m off n, entrySpan kh off n, entrySpan mu off n, twiddleSpan c tw off n]
  | .intt n off a _ m kh mu tw =>
      [tiledSpan c a n, entrySpan m off n, entrySpan kh off n, entrySpan mu off n, twiddleSpan c tw off n]
  | .bconv a b _ m => [⟨a, c.ringDim * c.sizeQ⟩, ⟨b, c.sizeQ * c.sizeP⟩, ⟨m, c.sizeP⟩]
  | .auto n off _ a _ m => [tiledSpan c a n, entrySpan m off n]
  | .ilvR n a _ => [tiledSpan c a n]
  | .ilvL n a _ => [tiledSpan c a n]

/-- R109, R79: the EXT words an instruction that completes writes. -/
def writeSpan (c : Cfg) : Instr → Span
  | .init => ⟨0, 0⟩
  | .add n _ _ _ d _ => tiledSpan c d n
  | .sub n _ _ _ d _ => tiledSpan c d n
  | .mul n _ _ _ d _ _ _ => tiledSpan c d n
  | .ntt n _ _ d _ _ _ _ => tiledSpan c d n
  | .intt n _ _ d _ _ _ _ => tiledSpan c d n
  | .bconv _ _ d _ => ⟨d, c.ringDim * c.sizeP⟩
  | .auto n _ _ _ d _ => tiledSpan c d n
  | .ilvR n _ d => tiledSpan c d n
  | .ilvL n _ d => tiledSpan c d n

/-! Boundary checks (R363). -/

/-- Step 3 of R363: `E_LIMBS`. -/
def checkLimbs (s : State) (n : Nat) : Res Unit := check (n ≤ s.cfg.maxLimbs) (.raise .limbs)

/-- Step 4 of R363: `E_MOD_INDEX`. -/
def checkModIndex (s : State) (n moff : Nat) : Res Unit := check (moff + n ≤ s.cfg.numModuli) (.raise .modIndex)

/-- Step 5 of R363: `E_RANGE`, over the access set of R109. -/
def checkRange (s : State) (i : Instr) : Res Unit :=
  check ((∀ r ∈ readSpans s.cfg i, r.inside s.cfg.extWords) ∧ (writeSpan s.cfg i).inside s.cfg.extWords)
    (.raise .range)

/-- Step 6 of R363 for one modulus word: zero first, then range (R12, R292). -/
def validModulus (w : Word) : Res Nat := do
  check (w.toNat ≠ 0) (.raise .modulusZero)
  check (w.toNat < 2 ^ 62) (.raise .modulusRange)
  .ok w.toNat

/-- Step 6 of R363: the `n` moduli from EXT word `base`, read and checked in increasing order. The free value
of a word nothing has written is checked like any other (log 30). -/
def readModuli (s : State) (base n : Nat) : Res (List Nat) :=
  gather n fun l => do
    let w ← coreRead s (base + l)
    validModulus w

/-- R363, steps 3 to 6, for an opcode in `MODULAR`: the moduli `q_l` of the active limbs. -/
def modularBoundary (s : State) (i : Instr) (n moff modb : Nat) : Res (List Nat) := do
  checkLimbs s n
  checkModIndex s n moff
  checkRange s i
  readModuli s (modb + moff) n

/-! Refusal checks (R334). -/

/-- R143, R334: every word of the active limbs of the buffer at `base` is below its limb's modulus. -/
def operandsBelow (s : State) (base n : Nat) (qs : List Nat) : Res Unit :=
  each n fun l => each s.cfg.ringDim fun x => do
    let w ← coreRead s (tiledAddr s.cfg base l x)
    check (w.toNat < qs.getD l 0) (.refuse .operandRange)

/-- R147, R334: the Barrett constants of each active limb, which must be those of R144. -/
def readBarrett (s : State) (khb mb moff n : Nat) (qs : List Nat) : Res (List (Nat × Nat)) :=
  gather n fun l => do
    let kh ← coreRead s (khb + moff + l)
    let mu ← coreRead s (mb + moff + l)
    check (kh.toNat = barrettShift (qs.getD l 0) ∧ mu.toNat = barrettRecip (qs.getD l 0)) (.refuse .barrettConstants)
    .ok (kh.toNat, mu.toNat)

end Sys2Proof.Machine
end

