-- ==== Sys2Proof/Machine/Bconv.lean ====
section
/-! DEFINITION. SystolicBaseConversionEngine, cycle by cycle (R293 to R300), and the opcode BCONV (R305). -/

namespace Sys2Proof.Machine

/-- `PE(k, c)` of an array. -/
def peAt (pea : List (List Pe)) (k c : Nat) : Pe := (pea.getD k []).getD c { wt := 0, md := 0, xr := 0, sr := 0 }

/-- R293, R302: configuration: every weight and column modulus is read, and the latches are a free draw (log 8). -/
def configure (src2 modb : Nat) (s : State) : Res State := do
  let pea ← gather s.cfg.sizeQ fun k => gather s.cfg.sizeP fun c => do
    let w ← coreRead s (src2 + k * s.cfg.sizeP + c)
    let m ← coreRead s (modb + c)
    .ok { wt := w, md := m, xr := Config.freeLatchX s.draws k c,
          sr := wrap s.cfg.accWidth (Config.freeLatchS s.draws k c) : Pe }
  .ok { s with pea := pea, captured := List.replicate s.cfg.sizeP 0, draws := s.draws + 1 }

/-- R295: `feed(k, t)`, the `x` input of PE row `k` in cycle `t`. -/
def feed (src1 k t : Nat) (s : State) : Res Word :=
  if k ≤ t ∧ t - k < s.cfg.ringDim then coreRead s (src1 + (t - k) * s.cfg.sizeQ + k) else .ok 0

/-- R298: the collector of column `c` in cycle `t`. -/
def collectColumn (dst t c : Nat) (s : State) : Res State :=
  if s.cfg.sizeQ + c ≤ t ∧ t - s.cfg.sizeQ - c < s.cfg.ringDim then do
    let pe := peAt s.pea (s.cfg.sizeQ - 1) c
    let s' ← coreWrite s (dst + (t - s.cfg.sizeQ - c) * s.cfg.sizeP + c) (BitVec.ofNat 64 (pe.sr % pe.md.toNat))
    .ok { s' with captured := s'.captured.set c (s'.captured.getD c 0 + 1) }
  else .ok s

/-- R299: the collectors of columns `0` to `n - 1`. -/
def collect (dst t : Nat) : Nat → State → Res State
  | 0, s => .ok s
  | c + 1, s => do
      let s' ← collect dst t c s
      collectColumn dst t c s'

/-- R294 to R296: every cell computes from the latches at the start of cycle `t`, and all latches update together.
`feeds` lists `feed(k, t)`. -/
def stepCells (feeds : List Word) (s : State) : State :=
  let cell (k c : Nat) : Pe :=
    let pe := peAt s.pea k c
    let xin := if c = 0 then feeds.getD k 0 else (peAt s.pea k (c - 1)).xr
    let sin := if k = 0 then 0 else (peAt s.pea (k - 1) c).sr
    { pe with xr := xin, sr := wrap s.cfg.accWidth (sin + xin.toNat * pe.wt.toNat) }
  { s with pea := tab s.cfg.sizeQ fun k => tab s.cfg.sizeP fun c => cell k c }

/-- R299, R305: cycle `t`: `CYC` takes `t`, the collectors read the latches, then every cell steps. -/
def bconvCycle (src1 dst t : Nat) (s : State) : Res State := do
  let s' ← collect dst t s.cfg.sizeP { s with cyc := t }
  let feeds ← gather s'.cfg.sizeQ fun k => feed src1 k t s'
  .ok (stepCells feeds s')

/-- The `m` cycles from cycle `t`. -/
def bconvCycles (src1 dst : Nat) : Nat → Nat → State → Res State
  | 0, _, s => .ok s
  | m + 1, t, s => do
      let s' ← bconvCycle src1 dst t s
      bconvCycles src1 dst m (t + 1) s'

/-- R300: the run length `P + Q + N`. -/
def runLength (c : Cfg) : Nat := c.sizeP + c.sizeQ + c.ringDim

/-- R290, R291: the exact sum of output `(r, col)`, from the words of EXT. -/
def exactSum (s : State) (src1 src2 r col : Nat) : Res Nat := do
  let terms ← gather s.cfg.sizeQ fun k => do
    let x ← coreRead s (src1 + r * s.cfg.sizeQ + k)
    let w ← coreRead s (src2 + k * s.cfg.sizeP + col)
    .ok (x.toNat * w.toNat)
  .ok terms.sum

/-- R305, from the boundary checks to the last cycle. -/
def baseConvert (i : Instr) (src1 src2 dst modb : Nat) (s : State) : Res State := do
  checkRange s i
  let _ ← readModuli s modb s.cfg.sizeP
  check (∀ r ∈ readSpans s.cfg i, ¬ (writeSpan s.cfg i).overlaps r) (.refuse .bconvAlias)
  each s.cfg.ringDim fun r => each s.cfg.sizeP fun c => do
    let v ← exactSum s src1 src2 r c
    check (v < 2 ^ s.cfg.accWidth) (.refuse .bconvOverflow)
  let s' ← configure src2 modb (beginKernel s)
  bconvCycles src1 dst (runLength s.cfg) 0 s'

/-- R305. -/
def execBconv (src1 src2 dst modb : Nat) (s : State) : Host.Outcome State Fault Refusal :=
  finish s (baseConvert (.bconv src1 src2 dst modb) src1 src2 dst modb s)

end Sys2Proof.Machine
end

