-- ==== Sys2Proof/Machine/Elementwise.lean ====
section
/-! DEFINITION. ElementwiseKernel: ADD, SUB and MUL (R170 to R174). -/

namespace Sys2Proof.Machine

/-- R170, phase 4: Load both inputs, combine tile by tile in place in `TA`, Store `TA`. `op l a b` is the result for
words `a` and `b` of limb `l`. -/
def runElementwise (op : Nat → Nat → Nat → Nat) (n src1 src2 dst : Nat) (s : State) : Res State := do
  let ta ← load s src1 s.ta n
  let tb ← load s src2 s.tb n
  let tiles ← gather n fun l => do
    let xs ← tileValues s.cfg (slot ta l)
    let ys ← tileValues s.cfg (slot tb l)
    .ok (tileOf (tab s.cfg.ringDim fun x => op l (xs.getD x 0) (ys.getD x 0)))
  let ta' := putTiles ta tiles
  store { s with ta := ta', tb := tb } dst ta' n

/-- R171, R172: ADD (`plus`) and SUB, from the boundary checks to the end of phase 4. -/
def addSub (plus : Bool) (i : Instr) (nlimb moff src1 src2 dst modb : Nat) (s : State) : Res State := do
  let qs ← modularBoundary s i nlimb moff modb
  operandsBelow s src1 nlimb qs
  operandsBelow s src2 nlimb qs
  runElementwise (fun l a b => addMod a b (qs.getD l 0) plus) nlimb src1 src2 dst (beginKernel s)

/-- R171. -/
def execAdd (nlimb moff src1 src2 dst modb : Nat) (s : State) : Host.Outcome State Fault Refusal :=
  finish s (addSub true (.add nlimb moff src1 src2 dst modb) nlimb moff src1 src2 dst modb s)

/-- R172. -/
def execSub (nlimb moff src1 src2 dst modb : Nat) (s : State) : Host.Outcome State Fault Refusal :=
  finish s (addSub false (.sub nlimb moff src1 src2 dst modb) nlimb moff src1 src2 dst modb s)

/-- R173, from the boundary checks to the end of phase 4. -/
def mulLimbs (i : Instr) (nlimb moff src1 src2 dst modb khb mb : Nat) (s : State) : Res State := do
  let qs ← modularBoundary s i nlimb moff modb
  operandsBelow s src1 nlimb qs
  operandsBelow s src2 nlimb qs
  let ks ← readBarrett s khb mb moff nlimb qs
  runElementwise (fun l a b => multMod a b (qs.getD l 0) (ks.getD l (0, 0)).1 (ks.getD l (0, 0)).2) nlimb src1 src2 dst
    (beginKernel s)

/-- R173. -/
def execMul (nlimb moff src1 src2 dst modb khb mb : Nat) (s : State) : Host.Outcome State Fault Refusal :=
  finish s (mulLimbs (.mul nlimb moff src1 src2 dst modb khb mb) nlimb moff src1 src2 dst modb khb mb s)

end Sys2Proof.Machine
end

