-- ==== Sys2Proof/Machine/Init.lean ====
section
/-! DEFINITION. INIT (R330). -/

namespace Sys2Proof.Machine

/-- R330: the document names INIT and gives it no operands, no effect and no result. -/
def execInit (s : State) : Host.Outcome State Fault Refusal := finish s (.error (.refuse .initUndefined))

end Sys2Proof.Machine
end

