-- ==== Sys2Proof/Machine/Permutation.lean ====
section
/-! DEFINITION. PermutationNetwork: Interleave, Auto and the transpose on one tile (R190 to R198), and the opcodes
AUTO, ILV_R and ILV_L (R200 to R202). -/

namespace Sys2Proof.Machine

/-- R190: a separate output tile with `U[dest x] <- val x T[x]` for every coefficient `x`. -/
def permuteTile (c : Cfg) (dest : Nat → Nat) (val : Nat → Nat → Nat) (t : Tile) : Res Tile := do
  let xs ← tileValues c t
  .ok (Memory.scatter dest (fun x => BitVec.ofNat 64 (val x (xs.getD x 0))) c.ringDim [])

/-- R191, R192: where Interleave moves coefficient `x = i*S + j`: row `i`, column `(j + i) mod S` or `(j - i) mod S`. -/
def interleaveDest (side : Nat) (right : Bool) (x : Nat) : Nat :=
  let i := x / side
  let j := x % side
  i * side + (if right then (j + i) % side else (j + side - i) % side)

/-- R191, R192: `Interleave(T, right)`. -/
def interleave (c : Cfg) (right : Bool) (t : Tile) : Res Tile :=
  permuteTile c (interleaveDest c.sqrt right) (fun _ v => v) t

/-- R194: `raw = (x * k) mod (2N)`. -/
def autoRaw (c : Cfg) (k x : Nat) : Nat := x * k % (2 * c.ringDim)

/-- R194: the destination coefficient `d = raw mod N`, at row `d div S` and column `d mod S`. -/
def autoDest (c : Cfg) (k x : Nat) : Nat :=
  let d := autoRaw c k x % c.ringDim
  d / c.sqrt * c.sqrt + d % c.sqrt

/-- R194: `Auto(T, k, q)`. -/
def autoTile (c : Cfg) (k q : Nat) (t : Tile) : Res Tile :=
  permuteTile c (autoDest c k) (fun x v => if c.ringDim ≤ autoRaw c k x then negMod v q else v) t

/-- R198: `Transpose(T)` on the values of a tile. -/
def transpose (c : Cfg) (xs : List Nat) : List Nat :=
  tab c.ringDim fun x => xs.getD (x % c.sqrt * c.sqrt + x / c.sqrt) 0

/-- R195: `GALOIS_STEP_TABLE(r)` (log 17). -/
def galoisStep (t : StepTable) (r : Nat) : Nat :=
  match t.listed.find? (fun e => e.1 == r) with
  | some e => e.2
  | none => t.slope * r + t.offset

/-- R195: the Galois element `k = GALOIS_STEP_TABLE(STEP) mod (2N)`. -/
def galoisElement (c : Cfg) (r : Nat) : Nat := galoisStep c.galois r % (2 * c.ringDim)

/-- R200 to R202, phase 4: Load `TA`, `TC[l] <- unit l TA[l]` for each active limb, Store `TC`. -/
def runPermutation (unit : Nat → Tile → Res Tile) (n src dst : Nat) (s : State) : Res State := do
  let ta ← load s src s.ta n
  let tiles ← gather n fun l => unit l (slot ta l)
  let tc := putTiles s.tc tiles
  store { s with ta := ta, tc := tc } dst tc n

/-- R200, from the boundary checks to the end of phase 4. -/
def autoLimbs (i : Instr) (nlimb moff step src1 dst modb : Nat) (s : State) : Res State := do
  let qs ← modularBoundary s i nlimb moff modb
  let k := galoisElement s.cfg step
  check (k % 2 = 1) (.raise .autoStep)
  operandsBelow s src1 nlimb qs
  runPermutation (fun l t => autoTile s.cfg k (qs.getD l 0) t) nlimb src1 dst (beginKernel s)

/-- R200. -/
def execAuto (nlimb moff step src1 dst modb : Nat) (s : State) : Host.Outcome State Fault Refusal :=
  finish s (autoLimbs (.auto nlimb moff step src1 dst modb) nlimb moff step src1 dst modb s)

/-- R201, R202, from the boundary checks to the end of phase 4. No modulus is read and no value is checked. -/
def interleaveLimbs (right : Bool) (i : Instr) (nlimb src1 dst : Nat) (s : State) : Res State := do
  checkLimbs s nlimb
  checkRange s i
  runPermutation (fun _ t => interleave s.cfg right t) nlimb src1 dst (beginKernel s)

/-- R201. -/
def execIlvR (nlimb src1 dst : Nat) (s : State) : Host.Outcome State Fault Refusal :=
  finish s (interleaveLimbs true (.ilvR nlimb src1 dst) nlimb src1 dst s)

/-- R202. -/
def execIlvL (nlimb src1 dst : Nat) (s : State) : Host.Outcome State Fault Refusal :=
  finish s (interleaveLimbs false (.ilvL nlimb src1 dst) nlimb src1 dst s)

end Sys2Proof.Machine
end

