-- ==== Sys2Proof/Machine/Ntt.lean ====
section
/-! DEFINITION. NTTKernel: the butterfly, the pass, the four-step transforms of the `REF` convention, the `OPAQUE`
convention, and the opcodes NTT and INTT (R220 to R241). -/

namespace Sys2Proof.Machine

/-- The modulus of a limb and its Barrett constants. -/
structure LimbMod where
  q : Nat
  kh : Nat
  mu : Nat
deriving DecidableEq, Repr

/-- R145 for a limb. -/
def LimbMod.mul (p : LimbMod) (a b : Nat) : Nat := multMod a b p.q p.kh p.mu

/-- R222: `PE(a, b, w, q, KH, MU)`, the butterfly of both directions (R223). -/
def butterfly (p : LimbMod) (a b w : Nat) : Nat × Nat :=
  let t := p.mul b w
  (addMod a t p.q true, addMod a t p.q false)

/-- R224: one stage `s` of a pass on `v[0..S)`. Position `x = grp + t` or `grp + t + h` takes the butterfly of the old
values at `grp + t` and `grp + t + h`, with `h = 2^(s-1)` and twiddle `TW(N + t*(N >> s))`. The pairs are disjoint, so
the stage is written position by position (log 22). -/
def passStage (c : Cfg) (p : LimbMod) (tw : Nat → Nat) (s : Nat) (v : List Nat) : List Nat :=
  let h := 2 ^ (s - 1)
  tab c.sqrt fun x =>
    let r := x % (2 * h)
    if r < h then (butterfly p (v.getD x 0) (v.getD (x + h) 0) (tw (c.ringDim + r * (c.ringDim / 2 ^ s)))).1
    else (butterfly p (v.getD (x - h) 0) (v.getD x 0) (tw (c.ringDim + (r - h) * (c.ringDim / 2 ^ s)))).2

/-- R224: stages `1` to `k`, in that order. -/
def passStages (c : Cfg) (p : LimbMod) (tw : Nat → Nat) (v : List Nat) : Nat → List Nat
  | 0 => v
  | k + 1 => passStage c p tw (k + 1) (passStages c p tw v k)

/-- R224: `PASS(v, TW)`: bit reversal, then `L = LOGS` stages. -/
def pass (c : Cfg) (p : LimbMod) (tw : Nat → Nat) (v : List Nat) : List Nat :=
  passStages c p tw (tab c.sqrt fun x => v.getD (brev c.logs x) 0) c.logs

/-- R226, step A: `f` on every column of the tile. -/
def onColumns (c : Cfg) (f : List Nat → List Nat) (xs : List Nat) : List Nat :=
  let cols := tab c.sqrt fun j => f (tab c.sqrt fun i => xs.getD (i * c.sqrt + j) 0)
  tab c.ringDim fun x => (cols.getD (x % c.sqrt) []).getD (x / c.sqrt) 0

/-- R226, step D: `f` on every row of the tile. -/
def onRows (c : Cfg) (f : List Nat → List Nat) (xs : List Nat) : List Nat :=
  let rows := tab c.sqrt fun i => f (tab c.sqrt fun j => xs.getD (i * c.sqrt + j) 0)
  tab c.ringDim fun x => (rows.getD (x / c.sqrt) []).getD (x % c.sqrt) 0

/-- R226 step A0 and R227 step F: `X[i][j] <- MultMod(X[i][j], TW(i*S + j))`. -/
def twist (c : Cfg) (p : LimbMod) (tw : Nat → Nat) (xs : List Nat) : List Nat :=
  tab c.ringDim fun x => p.mul (xs.getD x 0) (tw x)

/-- R226, step B: `X[i][j] <- MultMod(X[i][j], TW(N + i*j))`. -/
def twiddle (c : Cfg) (p : LimbMod) (tw : Nat → Nat) (xs : List Nat) : List Nat :=
  tab c.ringDim fun x => p.mul (xs.getD x 0) (tw (c.ringDim + x / c.sqrt * (x % c.sqrt)))

/-- R226, R227: steps A, B, D and E, which the two directions share. -/
def fourStep (c : Cfg) (p : LimbMod) (tw : Nat → Nat) (xs : List Nat) : List Nat :=
  transpose c (onRows c (pass c p tw) (twiddle c p tw (onColumns c (pass c p tw) xs)))

/-- R226: `NTT_REF(X)`. -/
def nttRef (c : Cfg) (p : LimbMod) (tw : Nat → Nat) (xs : List Nat) : List Nat :=
  fourStep c p tw (twist c p tw xs)

/-- R227: `INTT_REF(X)`. -/
def inttRef (c : Cfg) (p : LimbMod) (tw : Nat → Nat) (xs : List Nat) : List Nat :=
  twist c p tw (fourStep c p tw xs)

/-- R230: whether the `REF` transforms read word `f` of a twiddle table. -/
def refReads (c : Cfg) (f : Nat) : Bool :=
  decide (f < c.ringDim) ||
  (List.range c.logs).any (fun s => (List.range (2 ^ s)).any fun t => f == c.ringDim + t * (c.ringDim / 2 ^ (s + 1))) ||
  (List.range c.sqrt).any fun i => (List.range c.sqrt).any fun j => f == c.ringDim + i * j

/-- R225, R334: the table at `base` for a limb with modulus `q`. Under `REF`, its first `2N` words: each word the
transform reads must be below `q`, and a word it never reads (R230) stands as 0. Under `OPAQUE`, all `TWN` words,
unchecked. -/
def readTable (s : State) (base q : Nat) : Res (List Nat) :=
  match s.cfg.nttConvention with
  | .ref => gather (2 * s.cfg.ringDim) fun f =>
      if refReads s.cfg f then do
        let w ← coreRead s (base + f)
        check (w.toNat < q) (.refuse .operandRange)
        .ok w.toNat
      else .ok 0
  | .opq => gather s.cfg.twn fun f => do
      let w ← coreRead s (base + f)
      .ok w.toNat

/-- The `OPAQUE` result as a tile: its `N` values, each kept below `q` as law 3 of R221 says (log 16). -/
def opaqueTile (c : Cfg) (q : Nat) (ys : List Nat) : List Nat := tab c.ringDim fun x => ys.getD x 0 % q

/-- R240, R241: the transform of one limb. -/
def transform (c : Cfg) (forward : Bool) (p : LimbMod) (table xs : List Nat) : List Nat :=
  match c.nttConvention with
  | .ref => if forward then nttRef c p (fun f => table.getD f 0) xs else inttRef c p (fun f => table.getD f 0) xs
  | .opq =>
      if forward then opaqueTile c p.q (Config.nttF xs p.q p.kh p.mu table)
      else opaqueTile c p.q (Config.nttI xs p.q p.kh p.mu table)

/-- R240, R241, phase 4: Load `TA`, transform each active limb in place, Store `TA`. -/
def runTransform (forward : Bool) (ps : List LimbMod) (tables : List (List Nat)) (n src dst : Nat) (s : State) :
    Res State := do
  let ta ← load s src s.ta n
  let tiles ← gather n fun l => do
    let xs ← tileValues s.cfg (slot ta l)
    .ok (tileOf (transform s.cfg forward (ps.getD l ⟨0, 0, 0⟩) (tables.getD l []) xs))
  let ta' := putTiles ta tiles
  store { s with ta := ta' } dst ta' n

/-- 95_test_vectors.md section 8.2 case 11: the addresses an instruction asks to have been written. Under `REF`, an NTT asks
it of every word it reads: the modulus, the Barrett constants, the input words and the twiddle words `REF` reads of each
active limb. No rule asks it of any other kernel (log 4). -/
def mustBeWritten (c : Cfg) : Instr → List Nat
  | .ntt n off a _ m kh mu tw =>
      match c.nttConvention with
      | .ref => (List.range n).flatMap fun l =>
          [m + off + l, kh + off + l, mu + off + l] ++ (List.range c.ringDim).map (tiledAddr c a l) ++
            ((List.range (2 * c.ringDim)).filter (refReads c)).map (tw + (off + l) * c.twn + ·)
      | .opq => []
  | .init => []
  | .add .. => []
  | .sub .. => []
  | .mul .. => []
  | .intt .. => []
  | .bconv .. => []
  | .auto .. => []
  | .ilvR .. => []
  | .ilvL .. => []

/-- 95_test_vectors.md section 8.2 case 11, a refusal check of R334: a word that must be written and is not. -/
def checkWritten (s : State) (i : Instr) : Res Unit :=
  check (∀ a ∈ mustBeWritten s.cfg i, (s.ext.read a).isSome = true) (.refuse .unwrittenRead)

/-- R240, R241, from the boundary checks to the end of phase 4. `twb` is `NTTB` or `INTTB`. -/
def transformLimbs (forward : Bool) (i : Instr) (nlimb moff src1 dst modb khb mb twb : Nat) (s : State) :
    Res State := do
  let qs ← modularBoundary s i nlimb moff modb
  checkWritten s i
  operandsBelow s src1 nlimb qs
  let ks ← readBarrett s khb mb moff nlimb qs
  let tables ← gather nlimb fun l => readTable s (twb + (moff + l) * s.cfg.twn) (qs.getD l 0)
  let ps := tab nlimb fun l => LimbMod.mk (qs.getD l 0) (ks.getD l (0, 0)).1 (ks.getD l (0, 0)).2
  runTransform forward ps tables nlimb src1 dst (beginKernel s)

/-- R240. -/
def execNtt (nlimb moff src1 dst modb khb mb nttb : Nat) (s : State) : Host.Outcome State Fault Refusal :=
  finish s (transformLimbs true (.ntt nlimb moff src1 dst modb khb mb nttb) nlimb moff src1 dst modb khb mb nttb s)

/-- R241. -/
def execIntt (nlimb moff src1 dst modb khb mb inttb : Nat) (s : State) : Host.Outcome State Fault Refusal :=
  finish s (transformLimbs false (.intt nlimb moff src1 dst modb khb mb inttb) nlimb moff src1 dst modb khb mb inttb s)

end Sys2Proof.Machine
end

