-- ==== Sys2Proof/Machine/Dispatch.lean ====
section
/-! DEFINITION. The meaning of each instruction (phases 2 to 5 of R333), one arm per constructor of `Instr`. -/

namespace Sys2Proof.Machine

def exec (i : Instr) (s : State) : Host.Outcome State Fault Refusal :=
  match i with
  | .init => Sys2Proof.Machine.execInit s
  | .add n off src1 src2 dst modb => Sys2Proof.Machine.execAdd n off src1 src2 dst modb s
  | .sub n off src1 src2 dst modb => Sys2Proof.Machine.execSub n off src1 src2 dst modb s
  | .mul n off src1 src2 dst modb khb mb => Sys2Proof.Machine.execMul n off src1 src2 dst modb khb mb s
  | .ntt n off src1 dst modb khb mb nttb => Sys2Proof.Machine.execNtt n off src1 dst modb khb mb nttb s
  | .intt n off src1 dst modb khb mb inttb => Sys2Proof.Machine.execIntt n off src1 dst modb khb mb inttb s
  | .bconv src1 src2 dst modb => Sys2Proof.Machine.execBconv src1 src2 dst modb s
  | .auto n off st src1 dst modb => Sys2Proof.Machine.execAuto n off st src1 dst modb s
  | .ilvR n src1 dst => Sys2Proof.Machine.execIlvR n src1 dst s
  | .ilvL n src1 dst => Sys2Proof.Machine.execIlvL n src1 dst s

end Sys2Proof.Machine
end

