-- ==== Sys2Proof/Machine/Port.lean ====
section
/-! DEFINITION. The host port: the host's accesses (R340), GO (R331), the reset event (R390, R391), and the core's
turn, which runs the snapshot (R333). -/

namespace Sys2Proof.Machine

/-- R33: descriptor register `r`, for `r` in `0..8`. -/
def descReg {α : Type} (d : Desc α) : Nat → Option α
  | 0 => some d.cmd
  | 1 => some d.src1
  | 2 => some d.src2
  | 3 => some d.dst
  | 4 => some d.modb
  | 5 => some d.khb
  | 6 => some d.mb
  | 7 => some d.nttb
  | 8 => some d.inttb
  | _ => none

/-- R34: the register file with descriptor register `r` set, for `r` in `0..8`. -/
def setDescReg (d : Desc (Option Word)) (r : Nat) (v : Word) : Desc (Option Word) :=
  match r with
  | 0 => { d with cmd := some v }
  | 1 => { d with src1 := some v }
  | 2 => { d with src2 := some v }
  | 3 => { d with dst := some v }
  | 4 => { d with modb := some v }
  | 5 => { d with khb := some v }
  | 6 => { d with mb := some v }
  | 7 => { d with nttb := some v }
  | 8 => { d with inttb := some v }
  | _ => d

/-- R331: the descriptor, if all nine registers are written. -/
def writtenDesc (d : Desc (Option Word)) : Option (Desc Word) := do
  let cmd ← d.cmd
  let src1 ← d.src1
  let src2 ← d.src2
  let dst ← d.dst
  let modb ← d.modb
  let khb ← d.khb
  let mb ← d.mb
  let nttb ← d.nttb
  let inttb ← d.inttb
  some { cmd := cmd, src1 := src1, src2 := src2, dst := dst, modb := modb, khb := khb, mb := mb, nttb := nttb,
         inttb := inttb }

/-- Return a value to the host. -/
def reply (v : Word) (s : State) : Host.Outcome State Fault Refusal := .next { s with replies := v :: s.replies }

/-- R340: `CtlRead(r)`: a descriptor register, `CTRL` (which reads as 0) or `STATUS`. -/
def ctlRead (r : Nat) (s : State) : Host.Outcome State Fault Refusal :=
  if r ≤ 8 then
    match descReg s.desc r with
    | some (some v) => reply v s
    | _ => .refused .unwrittenRead
  else if r = 9 then reply 0 s
  else if r = 10 then reply s.status s
  else .refused .hostBusy

/-- R331: a write of `v` to `CTRL` while `BUSY = 0`. -/
def goWrite (v : Word) (s : State) : Host.Outcome State Fault Refusal :=
  if v.getLsbD 0 then
    match writtenDesc s.desc with
    | some d => .next (acceptGo d s)
    | none => .refused .unwrittenRead
  else .next s

/-- R340, R37: `CtlWrite(r, v)`. -/
def ctlWrite (r : Nat) (v : Word) (s : State) : Host.Outcome State Fault Refusal :=
  if s.busy then .refused .hostBusy
  else if r ≤ 8 then .next { s with desc := setDescReg s.desc r v }
  else if r = 9 then goWrite v s
  else .refused .hostBusy

/-- R340, R74, R80: a host read of EXT. A word nothing has written reads as a free value of its address (log 29). -/
def hostMemRead (a : Nat) (s : State) : Host.Outcome State Fault Refusal :=
  if s.busy = false ∧ a < s.cfg.extWords then reply (extWord s.ext a) s
  else .refused .hostBusy

/-- R340, R80: a host write of EXT. -/
def hostMemWrite (a : Nat) (v : Word) (s : State) : Host.Outcome State Fault Refusal :=
  if s.busy = false ∧ a < s.cfg.extWords then .next { s with ext := s.ext.write a v } else .refused .hostBusy

/-- The core's turn: the snapshot is decoded and run, or rejected (R333). -/
def runSnapshot (s : State) : Host.Outcome State Fault Refusal :=
  match decode s.cfg.extPermOps s.snap with
  | .instr i => exec i s
  | .reject code => .next (raiseConfigError code s)

/-- R391, R79: the write set of the invocation in progress: that of an instruction that would complete, else none
(log 18). -/
def pendingWrites (s : State) : Span :=
  if s.busy then
    match decode s.cfg.extPermOps s.snap with
    | .instr i =>
        match exec i s with
        | .next t => if t.done then writeSpan s.cfg i else ⟨0, 0⟩
        | _ => ⟨0, 0⟩
    | .reject _ => ⟨0, 0⟩
  else ⟨0, 0⟩

/-- R391: a free value at each of the first `n` addresses from `base`. -/
def spoil (draw base : Nat) (n : Nat) (m : Memory) : Memory :=
  Memory.scatter (fun x => base + x) (fun x => Config.freeWord draw (base + x)) n m

/-- R390, R391: a reset event. EXT keeps its words, but for the write set of an invocation in progress. The model's
own fields are kept. -/
def resetEvent (s : State) : State :=
  let w := pendingWrites s
  { State.resetOf s.cfg with
    ext := spoil s.draws w.base w.len s.ext
    host := s.host
    turns := s.turns
    replies := s.replies
    draws := s.draws + 1 }

/-- R340: one host access. -/
def hostAct (a : HostAction) (s : State) : Host.Outcome State Fault Refusal :=
  match a with
  | .ctlRead r => ctlRead r s
  | .ctlWrite r v => ctlWrite r v s
  | .memRead addr => hostMemRead addr s
  | .memWrite addr v => hostMemWrite addr v s
  | .reset => .next (resetEvent s)

/-- The host's turn: its next access, or nothing (R375). -/
def hostTurn (s : State) : Host.Outcome State Fault Refusal :=
  match s.host with
  | [] => .next s
  | a :: rest => hostAct a { s with host := rest }

/-- R339: who moves: the host while the core is idle, and while it is busy the next agent of `turns`, or the core
(log 9). -/
def oneTurn (s : State) : Host.Outcome State Fault Refusal :=
  if s.busy then
    match s.turns with
    | [] => runSnapshot s
    | .core :: rest => runSnapshot { s with turns := rest }
    | .host :: rest => hostTurn { s with turns := rest }
  else hostTurn s

/-- R9, R46: no step is taken by a machine that cannot be built or that has refused. -/
def guardedTurn (s : State) : Host.Outcome State Fault Refusal :=
  if ¬ s.cfg.Valid then .refused .invalidConfig
  else if s.refused then .refused .alreadyRefused
  else oneTurn s

/-- The written register file of a descriptor. -/
def writtenRegs (d : Desc Word) : Desc (Option Word) where
  cmd := some d.cmd
  src1 := some d.src1
  src2 := some d.src2
  dst := some d.dst
  modb := some d.modb
  khb := some d.khb
  mb := some d.mb
  nttb := some d.nttb
  inttb := some d.inttb

/-- The state in which a GO with descriptor `d` has just been accepted and the core moves next (log 13). -/
def started (d : Desc Word) (s : State) : State :=
  acceptGo d { s with desc := writtenRegs d, turns := [] }

end Sys2Proof.Machine
end

