-- ==== Sys2Proof/Machine/Step.lean ====
section
/-! DEFINITION. One step of the machine: one host access, or one whole invocation (R339). -/

namespace Sys2Proof.Machine

/-- One step. -/
def step (s : State) : Host.Outcome State Fault Refusal := guardedTurn s

/-- `s` with the descriptor whose low `nbits` bits are `w` written to `DESC0..DESC8` and accepted by GO, so that the
next step runs it (log 13). -/
def State.withFetchWord (s : State) (nbits w : Nat) : State := started (descOfNat (w % 2 ^ nbits)) s

end Sys2Proof.Machine
end

