-- ==== Sys2Proof/Safety.lean ====
section
/-! DEFINITION. What every state of a run satisfies, in the terms the statements use. -/

namespace Sys2Proof.Machine

/-- R36: the legal values of `STATUS`: idle since reset, busy, done, or an error with one of the codes of R362. -/
def LegalStatus (w : Word) : Prop := w = 0 ∨ w = statusBusy ∨ w = statusDone ∨ ∃ code : ErrCode, w = statusError code

/-- R41: a bank of `MAX_LIMBS` tiles in canonical form, with no word outside the tile. -/
structure BankOk (c : Cfg) (bank : List Tile) : Prop where
  slots : bank.length = c.maxLimbs
  canonical : ∀ t ∈ bank, Memory.wf t
  inTile : ∀ t ∈ bank, Memory.Below c.ringDim t

/-- R43, R297: a `SIZE_Q x SIZE_P` array whose sum latches are `ACC_WIDTH` bits wide. -/
structure PeaOk (c : Cfg) (pea : List (List Pe)) : Prop where
  rows : pea.length = c.sizeQ
  columns : ∀ row ∈ pea, row.length = c.sizeP
  sumWidth : ∀ row ∈ pea, ∀ pe ∈ row, pe.sr < 2 ^ c.accWidth

/-- The invariant of the machine. -/
structure Inv (s : State) : Prop where
  /-- R9. -/
  config : s.cfg.Valid
  /-- R36. -/
  status : LegalStatus s.status
  /-- The canonical form of memory. -/
  extCanonical : s.ext.wf
  /-- R70: EXT has no word at or above `EXT_WORDS`. -/
  extInside : s.ext.Below s.cfg.extWords
  bankA : BankOk s.cfg s.ta
  bankB : BankOk s.cfg s.tb
  bankC : BankOk s.cfg s.tc
  array : PeaOk s.cfg s.pea
  /-- R43: one captured-row count per column. -/
  counts : s.captured.length = s.cfg.sizeP
  /-- R371: `CYC` holds one of `P + Q + N` values. -/
  cycles : s.cyc < runLength s.cfg
  /-- R46: a machine that goes on has not refused. -/
  going : s.refused = false

/-! The terms of the statements about one invocation. -/

/-- A state a step can be taken from: R9 and R46. -/
abbrev Going (s : State) : Prop := s.cfg.Valid ∧ s.refused = false

/-- R339: the core moves next in the busy state `s`. -/
abbrev CoreNext (s : State) : Prop := s.busy = true ∧ (s.turns = [] ∨ s.turns.head? = some .core)

/-- R339: the host moves next in `s`, and `ts` is what is left of the schedule. -/
abbrev HostNext (s : State) (ts : List Agent) : Prop :=
  (s.busy = false ∧ ts = s.turns) ∨ (s.busy = true ∧ s.turns = .host :: ts)

/-- R37, R340: the host accesses the core does not accept. -/
def Illegal (s : State) : HostAction → Prop
  | .ctlRead r => 10 < r
  | .ctlWrite r _ => (s.busy = true ∧ r ≤ 9) ∨ 10 ≤ r
  | .memRead a => s.busy = true ∨ s.cfg.extWords ≤ a
  | .memWrite a _ => s.busy = true ∨ s.cfg.extWords ≤ a
  | .reset => False

/-- Something has written EXT word `a`. -/
abbrev Written (s : State) (a : Nat) : Prop := (s.ext.read a).isSome = true

/-- 95_test_vectors.md section 8.2 case 11: every word that must have been written has been. It asks something of an NTT
under `REF` alone. -/
abbrev InputsWritten (s : State) (i : Instr) : Prop := ∀ a ∈ mustBeWritten s.cfg i, Written s a

/-- The number in EXT word `a`; a free value if nothing has written it (log 29). -/
def wordAt (s : State) (a : Nat) : Nat := (extWord s.ext a).toNat

/-- R77: every word of the access set exists. -/
abbrev InRange (s : State) (i : Instr) : Prop :=
  (∀ r ∈ readSpans s.cfg i, r.inside s.cfg.extWords) ∧ (writeSpan s.cfg i).inside s.cfg.extWords

/-- Steps 3 to 5 of R363 pass, for an opcode of `MODULAR`. -/
abbrev BoundaryOk (s : State) (i : Instr) (n moff : Nat) : Prop :=
  n ≤ s.cfg.maxLimbs ∧ moff + n ≤ s.cfg.numModuli ∧ InRange s i

/-- EXT word `a` holds a legal modulus (R362). -/
abbrev ModulusOk (s : State) (a : Nat) : Prop := wordAt s a ≠ 0 ∧ wordAt s a < 2 ^ 62

/-- Step 6 of R363 passes: the `n` moduli from EXT word `base`. -/
abbrev ModuliOk (s : State) (base n : Nat) : Prop := ∀ l < n, ModulusOk s (base + l)

/-- R334: every word of the `n` active limbs at `src` is below its limb's modulus, entry `l` at `base + l`. -/
abbrev OperandsOk (s : State) (src n base : Nat) : Prop :=
  ∀ l < n, ∀ x < s.cfg.ringDim, wordAt s (tiledAddr s.cfg src l x) < wordAt s (base + l)

/-- R144, R334: the Barrett constants of the moduli at `base`, with shifts at `khs` and reciprocals at `mus`. -/
abbrev BarrettOk (s : State) (base khs mus n : Nat) : Prop :=
  ∀ l < n, wordAt s (khs + l) = barrettShift (wordAt s (base + l)) ∧
    wordAt s (mus + l) = barrettRecip (wordAt s (base + l))

/-- R225, R334: the twiddle table at `tab` for a limb with modulus `q`. Under `REF` every word the transform reads is
below `q`; under `OPAQUE` no table word is checked. -/
abbrev TableOk (s : State) (tab q : Nat) : Prop :=
  s.cfg.nttConvention = .ref → ∀ f < 2 * s.cfg.ringDim, refReads s.cfg f = true →
    wordAt s (tab + f) < q

end Sys2Proof.Machine

namespace Sys2Proof

/-- The active-limb count of a tiled kernel. -/
def Instr.limbs : Instr → Option Nat
  | .init => none
  | .add n .. => some n
  | .sub n .. => some n
  | .mul n .. => some n
  | .ntt n .. => some n
  | .intt n .. => some n
  | .bconv .. => none
  | .auto n .. => some n
  | .ilvR n .. => some n
  | .ilvL n .. => some n

/-- The fields of an opcode of `MODULAR` (R363): limb count, `MOFF` and `MODB`. -/
def Instr.modular : Instr → Option (Nat × Nat × Nat)
  | .init => none
  | .add n off _ _ _ m => some (n, off, m)
  | .sub n off _ _ _ m => some (n, off, m)
  | .mul n off _ _ _ m _ _ => some (n, off, m)
  | .ntt n off _ _ m _ _ _ => some (n, off, m)
  | .intt n off _ _ m _ _ _ => some (n, off, m)
  | .bconv .. => none
  | .auto n off _ _ _ m => some (n, off, m)
  | .ilvR .. => none
  | .ilvL .. => none

/-- The input buffers whose words must be below their moduli (R334). -/
def Instr.operandBuffers : Instr → List Nat
  | .init => []
  | .add _ _ a b _ _ => [a, b]
  | .sub _ _ a b _ _ => [a, b]
  | .mul _ _ a b _ _ _ _ => [a, b]
  | .ntt _ _ a _ _ _ _ _ => [a]
  | .intt _ _ a _ _ _ _ _ => [a]
  | .bconv .. => []
  | .auto _ _ _ a _ _ => [a]
  | .ilvR .. => []
  | .ilvL .. => []

/-- The Barrett tables of an instruction: `KHB` and `MB`. -/
def Instr.barrettTables : Instr → Option (Nat × Nat)
  | .init => none
  | .add .. => none
  | .sub .. => none
  | .mul _ _ _ _ _ _ kh mu => some (kh, mu)
  | .ntt _ _ _ _ _ kh mu _ => some (kh, mu)
  | .intt _ _ _ _ _ kh mu _ => some (kh, mu)
  | .bconv .. => none
  | .auto .. => none
  | .ilvR .. => none
  | .ilvL .. => none

end Sys2Proof

namespace Sys2Proof.Machine

/-- What no invocation touches: the configuration, the descriptor registers and their snapshot, the mark `REFUSED`,
and the model's queues. -/
structure SameControl (s t : State) : Prop where
  cfg : t.cfg = s.cfg
  desc : t.desc = s.desc
  snap : t.snap = s.snap
  refused : t.refused = s.refused
  host : t.host = s.host
  turns : t.turns = s.turns
  replies : t.replies = s.replies

/-- Every EXT word outside the range reads as before. -/
abbrev SameOutside (s t : State) (r : Span) : Prop := ∀ a, ¬ r.Has a → t.ext.read a = s.ext.read a

/-- The EXT word at `base + l*N + i*S + j` (R76) holds `v`. -/
abbrev Holds (t : State) (base l i j v : Nat) : Prop :=
  t.ext.read (base + l * t.cfg.ringDim + i * t.cfg.sqrt + j) = some (BitVec.ofNat 64 v)

/-- Two outcomes that agree on what an invocation is for: `STATUS` and EXT of the next state, or how the machine
stopped. -/
def SameEnd : Host.Outcome State Fault Refusal → Host.Outcome State Fault Refusal → Prop
  | .next t, .next u => t.status = u.status ∧ t.ext = u.ext
  | .fault f, .fault g => f = g
  | .refused r, .refused p => r = p
  | _, _ => False

/-- R8, field by field: a constraint that the configuration breaks, `HOST_BYTE_ORDER` apart. -/
abbrev BreaksR8 (c : Cfg) : Prop :=
  (∀ k, c.sqrt ≠ 2 ^ k) ∨ c.ringDim ≠ c.sqrt * c.sqrt ∨ c.maxLimbs = 0 ∨ 65535 < c.maxLimbs ∨
  (c.nttConvention = .ref ∧ c.buNum < 2) ∨ c.sizeQ = 0 ∨ c.sizeP = 0 ∨ c.numModuli = 0 ∨ 2 ^ 64 < c.extWords ∨
  c.accWidth < 128

/-- `HOST_BYTE_ORDER` lists the eight byte lanes, each once (log 23). -/
abbrev ByteOrderOk (c : Cfg) : Prop := c.hostByteOrder.length = 8 ∧ ∀ lane < 8, lane ∈ c.hostByteOrder

/-- A tile every word of which has been written, in canonical form. -/
structure FullTile (c : Cfg) (t : Tile) : Prop where
  canonical : Memory.wf t
  inTile : Memory.Below c.ringDim t
  full : ∀ x < c.ringDim, (t.read x).isSome = true

/-- R43: the weights and column moduli of two arrays agree; their latches need not. -/
abbrev SameStationary (c : Cfg) (p p' : List (List Pe)) : Prop :=
  ∀ k < c.sizeQ, ∀ col < c.sizeP, (peAt p' k col).wt = (peAt p k col).wt ∧ (peAt p' k col).md = (peAt p k col).md

/-- R109: the fields an opcode uses, of a descriptor. -/
def usedFields (opc : Nat) (d : Desc Word) : List Nat :=
  let binary := [d.nlimb, d.moff, d.src1.toNat, d.src2.toNat, d.dst.toNat, d.modb.toNat]
  let unary := [d.nlimb, d.moff, d.src1.toNat, d.dst.toNat, d.modb.toNat]
  match opc with
  | 1 => binary
  | 2 => binary
  | 3 => binary ++ [d.khb.toNat, d.mb.toNat]
  | 4 => unary ++ [d.khb.toNat, d.mb.toNat, d.nttb.toNat]
  | 5 => unary ++ [d.khb.toNat, d.mb.toNat, d.inttb.toNat]
  | 6 => [d.src1.toNat, d.src2.toNat, d.dst.toNat, d.modb.toNat]
  | 7 => unary ++ [d.step]
  | 8 => [d.nlimb, d.src1.toNat, d.dst.toNat]
  | 9 => [d.nlimb, d.src1.toNat, d.dst.toNat]
  | _ => []

/-- R41, R42: a bank an invocation does not use is as before, or unwritten. -/
abbrev BankIdle (c : Cfg) (before after : List Tile) : Prop := after = before ∨ after = unwrittenBank c

/-- R230: the forward table of the root `psi` modulo `q`, under `REF`. -/
abbrev ForwardTable (n q psi : Nat) (table : List Nat) : Prop :=
  ∀ e < n, table.getD e 0 = psi ^ e % q ∧ table.getD (n + e) 0 = psi ^ (2 * e) % q

/-- R231: the inverse table, with `psiInv` and `nInv` the inverses of `psi` and `N` modulo `q`, under `REF`. -/
abbrev InverseTable (n q psiInv nInv : Nat) (table : List Nat) : Prop :=
  ∀ e < n, table.getD e 0 = nInv * psiInv ^ e % q ∧ table.getD (n + e) 0 = psiInv ^ (2 * e) % q

/-- R228: `psi` is a primitive `2N`-th root of unity modulo `q` (`psi^N = -1`), with its inverse and the inverse of
`N`. -/
abbrev RootOf (n q psi psiInv nInv : Nat) : Prop :=
  1 < q ∧ q < 2 ^ 62 ∧ psi ^ n % q = q - 1 ∧ psi * psiInv % q = 1 ∧ n * nInv % q = 1

/-- R221, R233: what is assumed of the `OPAQUE` transforms: with tables that `tablesOK` accepts, the forward transform of
a tile of `N` values below `q` is one too, and the inverse transform gives the tile back. -/
abbrev OpaqueLaws (c : Cfg) : Prop :=
  ∀ (q kh mu : Nat) (fwd inv xs : List Nat), Config.tablesOK q fwd inv → xs.length = c.ringDim → (∀ x ∈ xs, x < q) →
    (Config.nttF xs q kh mu fwd).length = c.ringDim ∧ (∀ y ∈ Config.nttF xs q kh mu fwd, y < q) ∧
      Config.nttI (Config.nttF xs q kh mu fwd) q kh mu inv = xs

/-- R221 law 4: the forward and inverse tables that the convention expects of a modulus `q`. -/
abbrev RoundTripTables (c : Cfg) (q : Nat) (fwd inv : List Nat) : Prop :=
  (c.nttConvention = .ref → ∃ psi psiInv nInv, RootOf c.ringDim q psi psiInv nInv ∧ ForwardTable c.ringDim q psi fwd ∧
    InverseTable c.ringDim q psiInv nInv inv) ∧
  (c.nttConvention = .opq → Config.tablesOK q fwd inv)

end Sys2Proof.Machine
end

