-- ==== Sys2Proof/Certificates/Slice0/Obligations.lean ====
section
/-! DEFINITION. The statements for the provers, in the order of OBLIGATIONS.json. -/

open Sys2Proof Sys2Proof.Machine

/-! Encoding. -/

/-- R101, R107, R110, R112, R114: decoding the encoding of a well-formed instruction gives it back, with every
operand; with `EXT_PERM_OPS = false` the extension opcodes are rejected instead. -/
def Obligations.DecodeUndoesEncode : Prop :=
  ∀ (extOps : Bool) (i : Instr), i.wellFormed = true →
    decode extOps (encode i) = if 7 ≤ i.opcode ∧ extOps = false then .reject .reservedOpcode else .instr i

/-- R117: the spec's worked words. -/
def Obligations.WorkedWordsDecode : Prop :=
  decodeTableWord 64 0x0000000000010001 = some (.add 1 0 0 0 0 0) ∧
  decodeTableWord 64 0x0000000100020002 = some (.sub 2 1 0 0 0 0) ∧
  decodeTableWord 64 0x0000000200030004 = some (.ntt 3 2 0 0 0 0 0 0) ∧
  decodeTableWord 64 0x0000000200030005 = some (.intt 3 2 0 0 0 0 0 0) ∧
  decodeTableWord 64 0x0000000000000006 = some (.bconv 0 0 0 0) ∧
  decodeTableWord 64 0x0005000000010007 = some (.auto 1 0 5 0 0 0) ∧
  decodeTableWord 64 0x0000000000040008 = some (.ilvR 4 0 0) ∧
  decodeTableWord 64 0x0000000000040009 = some (.ilvL 4 0 0) ∧
  decode true (descOfNat 0x0000000000010011) = .reject .reservedField

/-- R106, R110, R111, R112, in the order of R114: a reserved opcode, or a nonzero `RSV` under another opcode, raises its
error and the invocation does nothing else; every other descriptor decodes to the kernel of its opcode, whose meaning
is the step. That the run is a step of its own, and the schedule `turns`, are the model's choice (log 9, log 13). -/
def Obligations.ReservedEncodingsRaise : Prop :=
  ∀ s : State, Going s → CoreNext s →
    let here : State := { s with turns := s.turns.tail }
    let reserved : Prop := 10 ≤ s.snap.opc ∨ (7 ≤ s.snap.opc ∧ s.cfg.extPermOps = false)
    (reserved → step s = .next { here with status := 0x104 }) ∧
    (¬ reserved → s.snap.rsv ≠ 0 → step s = .next { here with status := 0x204 }) ∧
    (¬ reserved → s.snap.rsv = 0 →
      ∃ i, decode s.cfg.extPermOps s.snap = .instr i ∧ i.opcode = s.snap.opc ∧ step s = exec i here)

/-- R108, R338: two descriptors that agree on the opcode, on `RSV` and on the fields the opcode uses decode to the same;
and the core's steps from two states of one configuration and with one EXT, whose snapshots agree so, end with the same
`STATUS` and EXT or with the same refusal, whatever else the two states hold: the descriptor registers, the banks, the
array and its latches, the free values still to be drawn. That the run is a step of its own, and the schedule `turns`,
are the model's choice (log 9, log 13). -/
def Obligations.UnusedFieldsIgnored : Prop :=
  (∀ (extOps : Bool) (d e : Desc Word), d.opc = e.opc → d.rsv = e.rsv →
    usedFields d.opc d = usedFields e.opc e → decode extOps d = decode extOps e) ∧
  (∀ s t : State, Going s → Going t → CoreNext s → CoreNext t → t.cfg = s.cfg → t.ext = s.ext →
    s.snap.opc = t.snap.opc → s.snap.rsv = t.snap.rsv → usedFields s.snap.opc s.snap = usedFields t.snap.opc t.snap →
    SameEnd (step s) (step t))

/-! The step and the host. -/

/-- R333: when the snapshot decodes to an instruction and the core moves next, the step is that instruction's meaning;
and the step after `withFetchWord` runs exactly the instruction given. That GO and the run are two steps, and the
schedule `turns`, are the model's choice (log 9, log 13). -/
def Obligations.StepRunsDecodedInstruction : Prop :=
  (∀ (s : State) (i : Instr), Going s → CoreNext s → decode s.cfg.extPermOps s.snap = .instr i →
    step s = exec i { s with turns := s.turns.tail }) ∧
  (∀ (s : State) (nbits w : Nat) (i : Instr), Going s →
    decode s.cfg.extPermOps (descOfNat (w % 2 ^ nbits)) = .instr i →
    step (s.withFetchWord nbits w) = exec i (s.withFetchWord nbits w))

/-- R331, R35: the `CTRL` register. A write with bit 0 set while idle takes the snapshot and sets `BUSY` alone, and the
core's next step runs the snapshot; with a descriptor register unwritten it is refused; a write with bit 0 clear has no
effect; a write while busy is refused; a read returns 0. That the run is a step of its own is the model's choice
(log 13). -/
def Obligations.GoStartsAnInvocation : Prop :=
  ∀ (s : State) (v : Word) (rest : List HostAction) (ts : List Agent), Going s → HostNext s ts →
    (s.host = .ctlRead 9 :: rest → step s = .next { s with host := rest, turns := ts, replies := 0 :: s.replies }) ∧
    (s.host = .ctlWrite 9 v :: rest →
      (s.busy = true → step s = .refused .hostBusy) ∧
      (s.busy = false → v.getLsbD 0 = false → step s = .next { s with host := rest }) ∧
      (s.busy = false → v.getLsbD 0 = true → (∀ d, s.desc ≠ writtenRegs d) → step s = .refused .unwrittenRead) ∧
      (s.busy = false → v.getLsbD 0 = true → ∀ d, s.desc = writtenRegs d →
        let t : State := { s with host := rest, snap := d, status := 0x1 }
        step s = .next t ∧
        ∀ i, CoreNext t → decode t.cfg.extPermOps d = .instr i → step t = exec i { t with turns := t.turns.tail }))

/-- R34, R340: a descriptor register keeps the last value written to it, whatever it is, and the other registers keep
theirs; a read returns what the register holds, whether or not the core is busy; and reading one that nothing has
written is refused. The schedule of a busy core is the model's own (log 9). -/
def Obligations.DescriptorRegistersKeepWrites : Prop :=
  (∀ (s : State) (r q : Nat) (v : Word) (rest : List HostAction), Going s → s.busy = false → r ≤ 8 → q ≤ 8 →
    s.host = .ctlWrite r v :: .ctlRead q :: rest →
    let t : State := { s with host := rest, desc := setDescReg s.desc r v }
    (q = r → core.run 2 s = .next { t with replies := v :: s.replies }) ∧
    (q ≠ r → ∀ w, descReg s.desc q = some (some w) → core.run 2 s = .next { t with replies := w :: s.replies }) ∧
    (q ≠ r → descReg s.desc q = some none → core.run 2 s = .refused .unwrittenRead)) ∧
  (∀ (s : State) (q : Nat) (rest : List HostAction) (ts : List Agent), Going s → HostNext s ts → q ≤ 8 →
    s.host = .ctlRead q :: rest →
    (∀ w, descReg s.desc q = some (some w) →
      step s = .next { s with host := rest, turns := ts, replies := w :: s.replies }) ∧
    (descReg s.desc q = some none → step s = .refused .unwrittenRead))

/-- R340, R36, R375: a read of `STATUS` returns it, whether or not the core is busy, and a host that does nothing
leaves the state alone. -/
def Obligations.StatusReadReturnsStatus : Prop :=
  ∀ (s : State) (rest : List HostAction) (ts : List Agent), Going s → HostNext s ts →
    (s.host = .ctlRead 10 :: rest →
      step s = .next { s with host := rest, turns := ts, replies := s.status :: s.replies }) ∧
    (s.host = [] → step s = .next { s with turns := ts })

/-- R37, R340: the host accesses the core does not accept are refused, with reason `HOST_BUSY`, and the mark `REFUSED` is
set. That the mark is all that changes is the model's reading of R46 (log 11). -/
def Obligations.IllegalHostAccessRefused : Prop :=
  ∀ (s : State) (a : HostAction) (rest : List HostAction) (ts : List Agent), Going s → HostNext s ts →
    s.host = a :: rest → Illegal s a →
    step s = .refused .hostBusy ∧ s.settle (step s) = { s with refused := true }

/-- R74, R340: a host read of EXT returns the last value written to that address, and changes nothing in EXT; repeating
it returns the same. That a read of a word nothing has written also goes on, with some value that a further read
gives again, is the model's choice (log 29). -/
def Obligations.HostMemoryKeepsWrites : Prop :=
  (∀ (s : State) (a b : Nat) (v : Word) (rest : List HostAction), Going s → s.busy = false →
    a < s.cfg.extWords → b < s.cfg.extWords → s.host = .memWrite a v :: .memRead b :: rest →
    let t : State := { s with host := rest, ext := s.ext.write a v }
    (b = a → core.run 2 s = .next { t with replies := v :: s.replies }) ∧
    (b ≠ a → ∀ w, s.ext.read b = some w → core.run 2 s = .next { t with replies := w :: s.replies }) ∧
    (b ≠ a → s.ext.read b = none → ∃ w, core.run 2 s = .next { t with replies := w :: s.replies })) ∧
  (∀ (s : State) (b : Nat) (rest : List HostAction), Going s → s.busy = false → b < s.cfg.extWords →
    s.host = .memRead b :: .memRead b :: rest →
    ∃ w, core.run 2 s = .next { s with host := rest, replies := w :: w :: s.replies })

/-- R46, R16: a refused step leaves the state with the mark `REFUSED` set; a marked state takes no further step; and no
step that goes on sets or clears the mark. That nothing but the mark changes, and that a marked machine refuses even a
reset event (R390 sets the mark to false, R46 says that it is never cleared), are the model's reading (log 11). -/
def Obligations.RefusalIsPermanent : Prop :=
  ∀ s : State,
    (∀ r, step s = .refused r → s.settle (step s) = { s with refused := true }) ∧
    (s.cfg.Valid → s.refused = true → step s = .refused .alreadyRefused) ∧
    (∀ t, step s = .next t → s.refused = false ∧ t.refused = false)

/-- R9, R8: a configuration that breaks a constraint of R8 builds no machine; any other builds the machine after reset.
That `HOST_BYTE_ORDER` must list the eight lanes is the model's form of it (log 23); that no step is taken from a state
that holds such a configuration is the model's choice (log 27). -/
def Obligations.InvalidConfigBuildsNothing : Prop :=
  ∀ c : Cfg,
    (c.Valid → State.build c = some (State.resetOf c)) ∧
    (¬ c.Valid → State.build c = none ∧ ∀ s : State, s.cfg = c → step s = .refused .invalidConfig) ∧
    (BreaksR8 c ∨ ¬ ByteOrderOk c → State.build c = none) ∧
    (¬ BreaksR8 c → ByteOrderOk c → State.build c = some (State.resetOf c))

/-- R390, R48: a reset event while idle. (What the weights and latches of the array hold afterwards is not claimed.) -/
def Obligations.ResetWhileIdle : Prop :=
  ∀ (s : State) (rest : List HostAction), Going s → s.busy = false → s.host = .reset :: rest →
    ∃ t, step s = .next t ∧ t.cfg = s.cfg ∧ t.host = rest ∧ t.replies = s.replies ∧
      t.status = 0 ∧ t.cyc = 0 ∧ t.refused = false ∧ t.ext = s.ext ∧
      (∀ r, r ≤ 8 → descReg t.desc r = some none) ∧
      (∀ l x, (slot t.ta l).read x = none ∧ (slot t.tb l).read x = none ∧ (slot t.tc l).read x = none)

/-- R390, R391, R48: a reset event while busy ends the invocation and leaves the core as any reset does; every EXT word
outside the write set of an invocation that would have completed is unchanged, and no word at all changes if it would
not have (the last is the model's choice, log 18). -/
def Obligations.ResetWhileBusy : Prop :=
  ∀ (s : State) (rest : List HostAction) (ts : List Agent), Going s → s.busy = true → s.turns = .host :: ts →
    s.host = .reset :: rest →
    ∃ t, step s = .next t ∧ t.status = 0 ∧ t.cyc = 0 ∧ t.refused = false ∧
      (∀ r, r ≤ 8 → descReg t.desc r = some none) ∧
      (∀ l x, (slot t.ta l).read x = none ∧ (slot t.tb l).read x = none ∧ (slot t.tc l).read x = none) ∧
      ((∀ i u, decode s.cfg.extPermOps s.snap = .instr i →
          exec i { s with host := rest, turns := ts } = .next u → u.done = false) → t.ext = s.ext) ∧
      (∀ i, decode s.cfg.extPermOps s.snap = .instr i →
        SameOutside s t (writeSpan s.cfg i) ∧
        ∀ u, exec i { s with host := rest, turns := ts } = .next u → u.done = true →
          ∀ a, (writeSpan s.cfg i).Has a → (t.ext.read a).isSome = true)

/-- R339: a busy core ends its invocation after finitely many host polls: if the host only reads `STATUS`, then after
some number of steps, at most one more than the schedule is long, the machine is idle again or has stopped. The
schedule is the model's own (log 9). -/
def Obligations.PollingSeesTheEnd : Prop :=
  ∀ s : State, Going s → s.busy = true → (∀ a ∈ s.host, a = .ctlRead 10) →
    ∃ k, k ≤ s.turns.length + 1 ∧ ∀ t, core.run k s = .next t → t.busy = false

/-! The configuration error. -/

/-- R332, R361, R362: an invocation that answers a next state has completed, with `STATUS = 2`, or was rejected, with
`STATUS = 4 + code * 0x100` and nothing else changed, where `code` is one of 3 to 8 (codes 1 and 2 are the decoder's). -/
def Obligations.ExecCompletesOrOnlySetsStatus : Prop :=
  ∀ (i : Instr) (s t : State), exec i s = .next t →
    t.status = 0x2 ∨ ∃ code : Nat, 3 ≤ code ∧ code ≤ 8 ∧ t = { s with status := BitVec.ofNat 64 (4 + code * 0x100) }

/-- R103: more limbs than `MAX_LIMBS` raises `E_LIMBS` in every tiled kernel, whatever else is wrong. -/
def Obligations.TooManyLimbsRaises : Prop :=
  ∀ (i : Instr) (s : State) (n : Nat), i.limbs = some n → s.cfg.maxLimbs < n →
    exec i s = .next { s with status := 0x304 }

/-- R104: a modulus index beyond `NUM_MODULI` raises `E_MOD_INDEX` in every kernel that uses a modulus. -/
def Obligations.ModulusIndexRaises : Prop :=
  ∀ (i : Instr) (s : State) (n moff modb : Nat), i.modular = some (n, moff, modb) → n ≤ s.cfg.maxLimbs →
    s.cfg.numModuli < moff + n → exec i s = .next { s with status := 0x404 }

/-- R77: an access set that leaves EXT raises `E_RANGE` in every kernel but INIT, once the checks before it pass. -/
def Obligations.RangeErrorRaises : Prop :=
  ∀ (i : Instr) (s : State), i ≠ .init → (∀ n, i.limbs = some n → n ≤ s.cfg.maxLimbs) →
    (∀ n moff modb, i.modular = some (n, moff, modb) → moff + n ≤ s.cfg.numModuli) → ¬ InRange s i →
    exec i s = .next { s with status := 0x804 }

/-- R363 step 6, R12, R292: the first bad modulus in list order raises `E_MODULUS_ZERO` or `E_MODULUS_RANGE`. A modulus
word nothing has written is checked as its free value (log 29, log 30). -/
def Obligations.FirstBadModulusRaises : Prop :=
  ∀ (i : Instr) (s : State) (base count l : Nat),
    ((∃ moff modb, i.modular = some (count, moff, modb) ∧ BoundaryOk s i count moff ∧ base = modb + moff) ∨
      (∃ a b d, i = .bconv a b d base ∧ InRange s i ∧ count = s.cfg.sizeP)) →
    l < count → ModuliOk s base l →
    (wordAt s (base + l) = 0 → exec i s = .next { s with status := 0x504 }) ∧
    (2 ^ 62 ≤ wordAt s (base + l) → exec i s = .next { s with status := 0x604 })

/-- R195: an even Galois element raises `E_AUTO_STEP`, once the checks before it pass. A modulus word nothing has written is
checked as its free value (log 29, log 30). -/
def Obligations.EvenGaloisElementRaises : Prop :=
  ∀ (s : State) (n moff st a d modb : Nat), BoundaryOk s (.auto n moff st a d modb) n moff →
    ModuliOk s (modb + moff) n → galoisElement s.cfg st % 2 = 0 →
    exec (.auto n moff st a d modb) s = .next { s with status := 0x704 }

/-- R335: with no active limb a tiled kernel completes and EXT is untouched; the index check and, for AUTO, the parity
check are still made. -/
def Obligations.NoActiveLimbs : Prop :=
  ∀ (i : Instr) (s : State), i.limbs = some 0 →
    let indexOk : Prop := ∀ n moff modb, i.modular = some (n, moff, modb) → moff ≤ s.cfg.numModuli
    let oddStep : Prop := ∀ n moff st a d modb, i = .auto n moff st a d modb → galoisElement s.cfg st % 2 = 1
    (¬ indexOk → exec i s = .next { s with status := 0x404 }) ∧
    (indexOk → ¬ oddStep → exec i s = .next { s with status := 0x704 }) ∧
    (indexOk → oddStep → ∃ t, exec i s = .next t ∧ t.status = 0x2 ∧ t.ext = s.ext ∧ SameControl s t)

/-- R330, R114, R361: INIT is refused in every state, so it writes nothing; with `RSV` not 0 the step raises
`E_RESERVED_FIELD` instead. That the run is a step of its own, and the schedule `turns`, are the model's choice (log 9,
log 13). -/
def Obligations.InitIsRefused : Prop :=
  ∀ s : State, exec .init s = .refused .initUndefined ∧
    (Going s → CoreNext s → s.snap.opc = 0 →
      (s.snap.rsv = 0 → step s = .refused .initUndefined) ∧
      (s.snap.rsv ≠ 0 → step s = .next { s with turns := s.turns.tail, status := 0x204 }))

/-! The ModularArithmeticUnit. -/

/-- R141. -/
def Obligations.AddModAddsModulo : Prop :=
  ∀ a b q : Nat, 1 ≤ q → q < 2 ^ 62 → a < q → b < q → addMod a b q true = (a + b) % q ∧ a + b < 2 ^ 63

/-- R142. -/
def Obligations.AddModSubtractsModulo : Prop :=
  ∀ a b q : Nat, 1 ≤ q → q < 2 ^ 62 → a < q → b < q → addMod a b q false = (a + q - b) % q

/-- R144: the Barrett constants of a modulus and their bounds. -/
def Obligations.BarrettConstantBounds : Prop :=
  ∀ q : Nat, 1 ≤ q → q < 2 ^ 62 →
    let kh := barrettShift q
    let mu := barrettRecip q
    1 ≤ kh ∧ kh ≤ 62 ∧ 2 ^ (kh - 1) ≤ q ∧ q < 2 ^ kh ∧ mu = 2 ^ (2 * kh) / q ∧ 2 ^ kh < mu ∧ mu ≤ 2 ^ (kh + 1) ∧
    mu ≤ 2 ^ 63 ∧ (mu = 2 ^ 63 ↔ q = 2 ^ 61)

/-- R146: the Barrett multiplier is exact, and its quotient estimate is at most two below the quotient. -/
def Obligations.MultModIsExact : Prop :=
  ∀ a b q : Nat, q < 2 ^ 62 → a < q → b < q →
    multMod a b q (barrettShift q) (barrettRecip q) = a * b % q ∧
    barrettQuotient a b (barrettShift q) (barrettRecip q) ≤ a * b / q ∧
    a * b / q ≤ barrettQuotient a b (barrettShift q) (barrettRecip q) + 2

/-- R148, R151. -/
def Obligations.KaratsubaIsExact : Prop :=
  ∀ a b : Word, (karatsuba a b).toNat = a.toNat * b.toNat

/-- R149. -/
def Obligations.NegModNegatesModulo : Prop :=
  ∀ x q : Nat, x < q → negMod x q = (q - x) % q ∧ negMod x q < q ∧ negMod 0 q = 0

/-! The elementwise kernels. -/

/-- R171: ADD completes, and what it leaves. A word nothing has written enters as a free value (log 29, log 4). -/
def Obligations.AddResult : Prop :=
  ∀ (s : State) (n moff a b d modb : Nat), s.cfg.Valid →
    BoundaryOk s (.add n moff a b d modb) n moff → ModuliOk s (modb + moff) n →
    OperandsOk s a n (modb + moff) → OperandsOk s b n (modb + moff) →
    ∃ t, exec (.add n moff a b d modb) s = .next t ∧ t.status = 0x2 ∧ SameControl s t ∧
      SameOutside s t (tiledSpan s.cfg d n) ∧
      ∀ l < n, ∀ i < s.cfg.sqrt, ∀ j < s.cfg.sqrt,
        Holds t d l i j ((wordAt s (a + l * s.cfg.ringDim + i * s.cfg.sqrt + j) +
          wordAt s (b + l * s.cfg.ringDim + i * s.cfg.sqrt + j)) % wordAt s (modb + moff + l))

/-- R172: SUB completes, and what it leaves. A word nothing has written enters as a free value (log 29, log 4). -/
def Obligations.SubResult : Prop :=
  ∀ (s : State) (n moff a b d modb : Nat), s.cfg.Valid →
    BoundaryOk s (.sub n moff a b d modb) n moff → ModuliOk s (modb + moff) n →
    OperandsOk s a n (modb + moff) → OperandsOk s b n (modb + moff) →
    ∃ t, exec (.sub n moff a b d modb) s = .next t ∧ t.status = 0x2 ∧ SameControl s t ∧
      SameOutside s t (tiledSpan s.cfg d n) ∧
      ∀ l < n, ∀ i < s.cfg.sqrt, ∀ j < s.cfg.sqrt,
        Holds t d l i j ((wordAt s (a + l * s.cfg.ringDim + i * s.cfg.sqrt + j) + wordAt s (modb + moff + l) -
          wordAt s (b + l * s.cfg.ringDim + i * s.cfg.sqrt + j)) % wordAt s (modb + moff + l))

/-- R173: MUL completes, and what it leaves. A word nothing has written enters as a free value (log 29, log 4). -/
def Obligations.MulResult : Prop :=
  ∀ (s : State) (n moff a b d modb khb mb : Nat), s.cfg.Valid →
    BoundaryOk s (.mul n moff a b d modb khb mb) n moff → ModuliOk s (modb + moff) n →
    OperandsOk s a n (modb + moff) → OperandsOk s b n (modb + moff) →
    BarrettOk s (modb + moff) (khb + moff) (mb + moff) n →
    ∃ t, exec (.mul n moff a b d modb khb mb) s = .next t ∧ t.status = 0x2 ∧ SameControl s t ∧
      SameOutside s t (tiledSpan s.cfg d n) ∧
      ∀ l < n, ∀ i < s.cfg.sqrt, ∀ j < s.cfg.sqrt,
        Holds t d l i j ((wordAt s (a + l * s.cfg.ringDim + i * s.cfg.sqrt + j) *
          wordAt s (b + l * s.cfg.ringDim + i * s.cfg.sqrt + j)) % wordAt s (modb + moff + l))

/-- R143, R334: an active input word that is not below its modulus is refused with `OPERAND_RANGE`, in every kernel
that uses a modulus. The words an NTT under `REF` reads are to be written (log 4); elsewhere a word nothing has written is
checked as its free value (log 29). -/
def Obligations.OutOfRangeOperandRefused : Prop :=
  ∀ (i : Instr) (s : State) (n moff modb src l x : Nat), i.modular = some (n, moff, modb) →
    BoundaryOk s i n moff → ModuliOk s (modb + moff) n →
    (∀ n moff st a d modb, i = .auto n moff st a d modb → galoisElement s.cfg st % 2 = 1) →
    InputsWritten s i →
    src ∈ i.operandBuffers → l < n → x < s.cfg.ringDim →
    wordAt s (modb + moff + l) ≤ wordAt s (tiledAddr s.cfg src l x) →
    exec i s = .refused .operandRange

/-- R147, R334: Barrett constants other than those of R144 are refused with `BARRETT_CONSTANTS`. The words an NTT under
`REF` reads are to be written (log 4); elsewhere a word nothing has written is checked as its free value (log 29). -/
def Obligations.WrongBarrettConstantsRefused : Prop :=
  ∀ (i : Instr) (s : State) (n moff modb khb mb l : Nat), i.modular = some (n, moff, modb) →
    i.barrettTables = some (khb, mb) → BoundaryOk s i n moff → ModuliOk s (modb + moff) n →
    (∀ b ∈ i.operandBuffers, OperandsOk s b n (modb + moff)) →
    InputsWritten s i → l < n →
    (wordAt s (khb + moff + l) ≠ barrettShift (wordAt s (modb + moff + l)) ∨
      wordAt s (mb + moff + l) ≠ barrettRecip (wordAt s (modb + moff + l))) →
    exec i s = .refused .barrettConstants

/-! The permutation network. -/

/-- R201, R191, R334, R337: ILV_R completes, whatever the words are, and what it leaves: row `i` rotated right by `i`. A word
nothing has written moves as a free value (log 29, log 4). -/
def Obligations.InterleaveRightResult : Prop :=
  ∀ (s : State) (n a d : Nat), s.cfg.Valid → n ≤ s.cfg.maxLimbs → InRange s (.ilvR n a d) →
    ∃ t, exec (.ilvR n a d) s = .next t ∧ t.status = 0x2 ∧ SameControl s t ∧
      SameOutside s t (tiledSpan s.cfg d n) ∧
      ∀ l < n, ∀ i < s.cfg.sqrt, ∀ j < s.cfg.sqrt,
        Holds t d l i ((j + i) % s.cfg.sqrt) (wordAt s (a + l * s.cfg.ringDim + i * s.cfg.sqrt + j))

/-- R202, R192, R334, R337: ILV_L completes, whatever the words are, and what it leaves: row `i` rotated left by `i`. A word
nothing has written moves as a free value (log 29, log 4). -/
def Obligations.InterleaveLeftResult : Prop :=
  ∀ (s : State) (n a d : Nat), s.cfg.Valid → n ≤ s.cfg.maxLimbs → InRange s (.ilvL n a d) →
    ∃ t, exec (.ilvL n a d) s = .next t ∧ t.status = 0x2 ∧ SameControl s t ∧
      SameOutside s t (tiledSpan s.cfg d n) ∧
      ∀ l < n, ∀ i < s.cfg.sqrt, ∀ j < s.cfg.sqrt,
        Holds t d l i ((j + s.cfg.sqrt - i) % s.cfg.sqrt) (wordAt s (a + l * s.cfg.ringDim + i * s.cfg.sqrt + j))

/-- R193: the two Interleaves undo each other, on every tile. -/
def Obligations.InterleaveInverse : Prop :=
  ∀ (c : Cfg) (right : Bool) (t : Tile), c.Valid → FullTile c t →
    ∃ u, interleave c right t = .ok u ∧ interleave c (!right) u = .ok t

/-- R200, R194: AUTO completes, and what it leaves: coefficient `x` moves to `(x*k mod 2N) mod N`, negated when
`x*k mod 2N` is `N` or more. A word nothing has written enters as a free value (log 29, log 4). -/
def Obligations.AutoResult : Prop :=
  ∀ (s : State) (n moff st a d modb : Nat), s.cfg.Valid →
    BoundaryOk s (.auto n moff st a d modb) n moff → ModuliOk s (modb + moff) n →
    galoisElement s.cfg st % 2 = 1 → OperandsOk s a n (modb + moff) →
    ∃ t, exec (.auto n moff st a d modb) s = .next t ∧ t.status = 0x2 ∧ SameControl s t ∧
      SameOutside s t (tiledSpan s.cfg d n) ∧
      ∀ l < n, ∀ x < s.cfg.ringDim,
        let raw := x * galoisElement s.cfg st % (2 * s.cfg.ringDim)
        let moved := raw % s.cfg.ringDim
        let v := wordAt s (a + l * s.cfg.ringDim + x)
        Holds t d l (moved / s.cfg.sqrt) (moved % s.cfg.sqrt)
          (if s.cfg.ringDim ≤ raw then (wordAt s (modb + moff + l) - v) % wordAt s (modb + moff + l) else v)

/-- R196: for odd `k` the destinations of Auto are a permutation of the coefficients: `x` goes to `x*k mod N`. -/
def Obligations.AutoIsAPermutation : Prop :=
  ∀ (c : Cfg) (k : Nat), c.Valid → k % 2 = 1 →
    (∀ x < c.ringDim, autoDest c k x = x * k % c.ringDim ∧ autoDest c k x < c.ringDim) ∧
    (∀ x < c.ringDim, ∀ y < c.ringDim, autoDest c k x = autoDest c k y → x = y) ∧
    (∀ d < c.ringDim, ∃ x < c.ringDim, autoDest c k x = d)

/-- R197: Auto by `k` and then by the inverse of `k` modulo `2N` gives the tile back. -/
def Obligations.AutoInverse : Prop :=
  ∀ (c : Cfg) (k k' q : Nat) (t : Tile), c.Valid → k * k' % (2 * c.ringDim) = 1 → q < 2 ^ 62 → FullTile c t →
    (∀ x < c.ringDim, ((t.read x).getD 0).toNat < q) →
    ∃ u, autoTile c k q t = .ok u ∧ autoTile c k' q u = .ok t

/-! The NTT kernel. -/

/-- R222: the butterfly. -/
def Obligations.ButterflyIsExact : Prop :=
  ∀ (p : LimbMod) (a b w : Nat), p.q < 2 ^ 62 → p.kh = barrettShift p.q → p.mu = barrettRecip p.q →
    a < p.q → b < p.q → w < p.q →
    butterfly p a b w = ((a + b * w) % p.q, (a + p.q - b * w % p.q) % p.q)

/-- R240: NTT completes, and what it leaves, under both conventions. Under `REF` the words it reads are to be written
(log 4); under `OPAQUE` a word nothing has written enters as a free value (log 29). The reduction below `q` of the `OPAQUE`
words is how the model keeps law 3 of R221 (log 16). -/
def Obligations.NttResult : Prop :=
  ∀ (s : State) (n moff a d modb khb mb twb : Nat), s.cfg.Valid →
    BoundaryOk s (.ntt n moff a d modb khb mb twb) n moff → ModuliOk s (modb + moff) n →
    OperandsOk s a n (modb + moff) → BarrettOk s (modb + moff) (khb + moff) (mb + moff) n →
    (∀ l < n, TableOk s (twb + (moff + l) * s.cfg.twn) (wordAt s (modb + moff + l))) →
    InputsWritten s (.ntt n moff a d modb khb mb twb) →
    ∃ t, exec (.ntt n moff a d modb khb mb twb) s = .next t ∧ t.status = 0x2 ∧ SameControl s t ∧
      SameOutside s t (tiledSpan s.cfg d n) ∧
      ∀ l < n, ∀ i < s.cfg.sqrt, ∀ j < s.cfg.sqrt,
        let q := wordAt s (modb + moff + l)
        let kh := wordAt s (khb + moff + l)
        let mu := wordAt s (mb + moff + l)
        let xs := tab s.cfg.ringDim fun x => wordAt s (a + l * s.cfg.ringDim + x)
        let tw := fun f => wordAt s (twb + (moff + l) * s.cfg.twn + f)
        (s.cfg.nttConvention = .ref →
          Holds t d l i j ((nttRef s.cfg ⟨q, kh, mu⟩ tw xs).getD (i * s.cfg.sqrt + j) 0)) ∧
        (s.cfg.nttConvention = .opq →
          Holds t d l i j ((Config.nttF xs q kh mu (tab s.cfg.twn tw)).getD (i * s.cfg.sqrt + j) 0 % q))

/-- R241: INTT completes, and what it leaves, under both conventions. The reduction below `q` of the `OPAQUE` words is
how the model keeps law 3 of R221 (log 16); a word nothing has written enters as a free value (log 29, log 4). -/
def Obligations.InttResult : Prop :=
  ∀ (s : State) (n moff a d modb khb mb twb : Nat), s.cfg.Valid →
    BoundaryOk s (.intt n moff a d modb khb mb twb) n moff → ModuliOk s (modb + moff) n →
    OperandsOk s a n (modb + moff) → BarrettOk s (modb + moff) (khb + moff) (mb + moff) n →
    (∀ l < n, TableOk s (twb + (moff + l) * s.cfg.twn) (wordAt s (modb + moff + l))) →
    ∃ t, exec (.intt n moff a d modb khb mb twb) s = .next t ∧ t.status = 0x2 ∧ SameControl s t ∧
      SameOutside s t (tiledSpan s.cfg d n) ∧
      ∀ l < n, ∀ i < s.cfg.sqrt, ∀ j < s.cfg.sqrt,
        let q := wordAt s (modb + moff + l)
        let kh := wordAt s (khb + moff + l)
        let mu := wordAt s (mb + moff + l)
        let xs := tab s.cfg.ringDim fun x => wordAt s (a + l * s.cfg.ringDim + x)
        let tw := fun f => wordAt s (twb + (moff + l) * s.cfg.twn + f)
        (s.cfg.nttConvention = .ref →
          Holds t d l i j ((inttRef s.cfg ⟨q, kh, mu⟩ tw xs).getD (i * s.cfg.sqrt + j) 0)) ∧
        (s.cfg.nttConvention = .opq →
          Holds t d l i j ((Config.nttI xs q kh mu (tab s.cfg.twn tw)).getD (i * s.cfg.sqrt + j) 0 % q))

/-- R221 law 3: under either convention every output value is below the modulus, and there are `N` of them (log 16). -/
def Obligations.TransformStaysBelowModulus : Prop :=
  ∀ (c : Cfg) (forward : Bool) (p : LimbMod) (table xs : List Nat), c.Valid → 0 < p.q → p.q < 2 ^ 62 →
    p.kh = barrettShift p.q → p.mu = barrettRecip p.q → (∀ x < c.ringDim, xs.getD x 0 < p.q) →
    (∀ f < 2 * c.ringDim, refReads c f = true → table.getD f 0 < p.q) →
    (transform c forward p table xs).length = c.ringDim ∧ ∀ y ∈ transform c forward p table xs, y < p.q

/-- R230: the words `REF` does not read may hold anything. -/
def Obligations.UnreadTwiddlesIgnored : Prop :=
  ∀ (c : Cfg) (p : LimbMod) (tw tw' : Nat → Nat) (xs : List Nat), c.Valid →
    (∀ f, refReads c f = true → tw f = tw' f) →
    nttRef c p tw xs = nttRef c p tw' xs ∧ inttRef c p tw xs = inttRef c p tw' xs

/-- R228: with the expected tables, `NTT_REF` is the negacyclic transform in natural order, and `INTT_REF` the inverse
sum. -/
def Obligations.RefComputesTheNegacyclicTransform : Prop :=
  ∀ (c : Cfg) (q psi psiInv nInv : Nat) (fwd inv xs : List Nat), c.Valid → RootOf c.ringDim q psi psiInv nInv →
    ForwardTable c.ringDim q psi fwd → InverseTable c.ringDim q psiInv nInv inv → xs.length = c.ringDim →
    (∀ x ∈ xs, x < q) →
    let p : LimbMod := ⟨q, barrettShift q, barrettRecip q⟩
    (∀ j < c.ringDim, (nttRef c p (fun f => fwd.getD f 0) xs).getD j 0 =
      (sumTo c.ringDim fun m => xs.getD m 0 * psi ^ (m * (2 * j + 1))) % q) ∧
    (∀ m < c.ringDim, (inttRef c p (fun f => inv.getD f 0) xs).getD m 0 =
      (nInv * psiInv ^ m * sumTo c.ringDim fun j => xs.getD j 0 * psiInv ^ (2 * m * j)) % q)

/-- R229: the round trip under `REF`, in both orders. -/
def Obligations.RefRoundTrip : Prop :=
  ∀ (c : Cfg) (q psi psiInv nInv : Nat) (fwd inv xs : List Nat), c.Valid → RootOf c.ringDim q psi psiInv nInv →
    ForwardTable c.ringDim q psi fwd → InverseTable c.ringDim q psiInv nInv inv → xs.length = c.ringDim →
    (∀ x ∈ xs, x < q) →
    let p : LimbMod := ⟨q, barrettShift q, barrettRecip q⟩
    let ntt := nttRef c p fun f => fwd.getD f 0
    let intt := inttRef c p fun f => inv.getD f 0
    intt (ntt xs) = xs ∧ ntt (intt xs) = xs

/-- R242: an NTT invocation from `a` to `b` and then an INTT invocation from `b` to `d`, with the tables the convention
expects, give the words of `a` back, under both conventions. Under `REF` the words the NTT reads are to be written (log 4);
elsewhere a word nothing has written enters as a free value (log 29). Under `OPAQUE` the laws of R221 are a hypothesis. -/
def Obligations.NttThenInttCopies : Prop :=
  ∀ (s : State) (n moff a b d modb khb mb nttb inttb : Nat), s.cfg.Valid →
    BoundaryOk s (.ntt n moff a b modb khb mb nttb) n moff → BoundaryOk s (.intt n moff b d modb khb mb inttb) n moff →
    ModuliOk s (modb + moff) n → OperandsOk s a n (modb + moff) →
    BarrettOk s (modb + moff) (khb + moff) (mb + moff) n →
    InputsWritten s (.ntt n moff a b modb khb mb nttb) →
    (∀ l < n, TableOk s (nttb + (moff + l) * s.cfg.twn) (wordAt s (modb + moff + l))) →
    (∀ l < n, TableOk s (inttb + (moff + l) * s.cfg.twn) (wordAt s (modb + moff + l))) →
    (∀ r ∈ [entrySpan modb moff n, entrySpan khb moff n, entrySpan mb moff n, twiddleSpan s.cfg inttb moff n],
      ¬ (tiledSpan s.cfg b n).overlaps r) →
    (s.cfg.nttConvention = .opq → OpaqueLaws s.cfg) →
    (∀ l < n, RoundTripTables s.cfg (wordAt s (modb + moff + l))
      (tab s.cfg.twn fun f => wordAt s (nttb + (moff + l) * s.cfg.twn + f))
      (tab s.cfg.twn fun f => wordAt s (inttb + (moff + l) * s.cfg.twn + f))) →
    ∃ t u, exec (.ntt n moff a b modb khb mb nttb) s = .next t ∧ exec (.intt n moff b d modb khb mb inttb) t = .next u ∧
      u.status = 0x2 ∧ ∀ y < n * s.cfg.ringDim, u.ext.read (d + y) = some (extWord s.ext (a + y))

/-- R225, R334: under `REF` a twiddle word that the transform reads and that is not below the modulus is refused with
`OPERAND_RANGE`, by NTT and by INTT. And, as case 11 of 95_test_vectors.md section 8.2 says, an NTT whose boundary checks
pass and that reads a word nothing has written is refused with `UNWRITTEN_READ`; that it says so of `REF`, and of the
opcode NTT alone, is the model's reading (log 4). -/
def Obligations.OutOfRangeOrUnwrittenWordRefused : Prop :=
  (∀ (s : State) (forward : Bool) (n moff a d modb khb mb twb l f : Nat), s.cfg.Valid → s.cfg.nttConvention = .ref →
    let i : Instr := if forward then .ntt n moff a d modb khb mb twb else .intt n moff a d modb khb mb twb
    BoundaryOk s i n moff → ModuliOk s (modb + moff) n → OperandsOk s a n (modb + moff) →
    BarrettOk s (modb + moff) (khb + moff) (mb + moff) n → InputsWritten s i →
    l < n → f < 2 * s.cfg.ringDim → refReads s.cfg f = true →
    wordAt s (modb + moff + l) ≤ wordAt s (twb + (moff + l) * s.cfg.twn + f) →
    exec i s = .refused .operandRange) ∧
  (∀ (s : State) (n moff a d modb khb mb twb l x : Nat), s.cfg.nttConvention = .ref →
    BoundaryOk s (.ntt n moff a d modb khb mb twb) n moff → ModuliOk s (modb + moff) n → l < n →
    (x = modb + moff + l ∨ x = khb + moff + l ∨ x = mb + moff + l ∨
      (∃ y < s.cfg.ringDim, x = tiledAddr s.cfg a l y) ∨
      (∃ f < 2 * s.cfg.ringDim, refReads s.cfg f = true ∧ x = twb + (moff + l) * s.cfg.twn + f)) →
    s.ext.read x = none → exec (.ntt n moff a d modb khb mb twb) s = .refused .unwrittenRead)

/-! The DMA. -/

/-- R276, R273, R274: Load and then Store copies the active limbs word for word and touches nothing else. A word nothing
has written is copied as a free value (log 29). -/
def Obligations.StoreOfLoadCopies : Prop :=
  ∀ (s : State) (src dst n : Nat) (bank : List Tile), s.cfg.Valid →
    (tiledSpan s.cfg src n).inside s.cfg.extWords → (tiledSpan s.cfg dst n).inside s.cfg.extWords →
    ∃ bank' t, load s src bank n = .ok bank' ∧ store s dst bank' n = .ok t ∧
      (∀ l, n ≤ l → slot bank' l = slot bank l) ∧
      (∀ y < n * s.cfg.ringDim, t.ext.read (dst + y) = some (extWord s.ext (src + y))) ∧
      SameOutside s t (tiledSpan s.cfg dst n)

/-! The systolic engine. -/

/-- R303, R300, R298: BCONV completes; every output is the exact sum modulo its column's modulus; `CYC` ends at
`P + Q + N - 1`. That every collector has then counted `N` rows is the model's reading of R43 (log 24), and that BCONV
completes on words nothing has written, reading them as free values, is its choice (log 29, log 4). -/
def Obligations.BconvResult : Prop :=
  ∀ (s : State) (a b d m : Nat), s.cfg.Valid → InRange s (.bconv a b d m) → ModuliOk s m s.cfg.sizeP →
    (∀ r ∈ readSpans s.cfg (.bconv a b d m), ¬ (writeSpan s.cfg (.bconv a b d m)).overlaps r) →
    let sum := fun r c => sumTo s.cfg.sizeQ fun k => wordAt s (a + r * s.cfg.sizeQ + k) * wordAt s (b + k * s.cfg.sizeP + c)
    (∀ r < s.cfg.ringDim, ∀ c < s.cfg.sizeP, sum r c < 2 ^ s.cfg.accWidth) →
    ∃ t, exec (.bconv a b d m) s = .next t ∧ t.status = 0x2 ∧ SameControl s t ∧
      SameOutside s t (writeSpan s.cfg (.bconv a b d m)) ∧
      (∀ r < s.cfg.ringDim, ∀ c < s.cfg.sizeP,
        t.ext.read (d + r * s.cfg.sizeP + c) = some (BitVec.ofNat 64 (sum r c % wordAt s (m + c)))) ∧
      t.cyc = s.cfg.sizeP + s.cfg.sizeQ + s.cfg.ringDim - 1 ∧
      t.captured = List.replicate s.cfg.sizeP s.cfg.ringDim

/-- R302: no captured output depends on the initial latches: two runs from arrays with the same weights and moduli, and
any latches, write the same words. -/
def Obligations.InitialLatchesDoNotMatter : Prop :=
  ∀ (s t : State) (pea : List (List Pe)) (src dst : Nat), s.cfg.Valid → SameStationary s.cfg s.pea pea →
    bconvCycles src dst (runLength s.cfg) 0 s = .ok t →
    ∃ t', bconvCycles src dst (runLength s.cfg) 0 { s with pea := pea } = .ok t' ∧ t'.ext = t.ext ∧
      t'.captured = t.captured

/-- R89: a BCONV whose output overlaps an input is refused with `BCONV_ALIAS`. -/
def Obligations.BconvAliasRefused : Prop :=
  ∀ (s : State) (a b d m : Nat), InRange s (.bconv a b d m) → ModuliOk s m s.cfg.sizeP →
    (∃ r ∈ readSpans s.cfg (.bconv a b d m), ∃ x, r.Has x ∧ (writeSpan s.cfg (.bconv a b d m)).Has x) →
    exec (.bconv a b d m) s = .refused .bconvAlias

/-- R297: a BCONV with an exact sum of `2^ACC_WIDTH` or more is refused with `BCONV_OVERFLOW`. A word nothing has written
counts as its free value (log 29, log 4). -/
def Obligations.BconvOverflowRefused : Prop :=
  ∀ (s : State) (a b d m r c : Nat), InRange s (.bconv a b d m) → ModuliOk s m s.cfg.sizeP →
    (∀ r ∈ readSpans s.cfg (.bconv a b d m), ¬ (writeSpan s.cfg (.bconv a b d m)).overlaps r) →
    r < s.cfg.ringDim → c < s.cfg.sizeP →
    2 ^ s.cfg.accWidth ≤ (sumTo s.cfg.sizeQ fun k =>
      wordAt s (a + r * s.cfg.sizeQ + k) * wordAt s (b + k * s.cfg.sizeP + c)) →
    exec (.bconv a b d m) s = .refused .bconvOverflow

/-! Frames and invariants. -/

/-- R79, R109, R402: the frame of the tiled kernels: outside the write set EXT reads as before; the array, the
configuration, the descriptor registers and everything else but `STATUS`, `CYC` and the banks are unchanged; a kernel
that completes leaves `CYC` at 0; the banks a kernel does not use are idle. That a run starts by clearing `CYC` and the
banks is the model's choice (log 12). -/
def Obligations.TiledFrame : Prop :=
  ∀ (i : Instr) (s t : State) (n : Nat), i.limbs = some n → exec i s = .next t →
    SameControl s t ∧ SameOutside s t (writeSpan s.cfg i) ∧
    t.pea = s.pea ∧ t.captured = s.captured ∧ t.draws = s.draws ∧
    (t.status = 0x2 → t.cyc = 0) ∧ (t.status ≠ 0x2 → t.ext = s.ext ∧ t.cyc = s.cyc ∧ t.ta = s.ta) ∧
    (i.opcode ≤ 3 ∨ BankIdle s.cfg s.tb t.tb) ∧ (7 ≤ i.opcode ∨ BankIdle s.cfg s.tc t.tc)

/-- R79, R305: the frame of BCONV: outside the write set EXT reads as before, and everything else but `STATUS`, `CYC`,
the array, its counts and the draw counter is unchanged, the banks being idle (log 12); a rejected one changes
`STATUS` alone. -/
def Obligations.BconvFrame : Prop :=
  ∀ (s t : State) (a b d m : Nat), exec (.bconv a b d m) s = .next t →
    SameControl s t ∧ SameOutside s t (writeSpan s.cfg (.bconv a b d m)) ∧
    BankIdle s.cfg s.ta t.ta ∧ BankIdle s.cfg s.tb t.tb ∧ BankIdle s.cfg s.tc t.tc ∧
    (t.status ≠ 0x2 → t = { s with status := t.status })

/-- Every step from a state that meets the invariant leads to one that meets it: a valid configuration (R8), a legal
`STATUS` (R36), EXT in canonical form and inside `EXT_WORDS` (R70), banks and array of the right shape (R41, R43), `CYC`
below `P + Q + N` (R371). -/
def Obligations.StepKeepsInvariant : Prop :=
  ∀ s t : State, Inv s → step s = .next t → Inv t

/-- The machine after reset meets the invariant, whatever its configuration. -/
def Obligations.ResetMeetsInvariant : Prop :=
  (∀ c : Cfg, c.Valid → Inv (State.resetOf c)) ∧ Inv State.reset

/-- R30: no step changes the configuration, so a run is a run of one machine. -/
def Obligations.StepKeepsConfiguration : Prop :=
  ∀ s t : State, step s = .next t → t.cfg = s.cfg

/-- R72: whatever `HOST_BYTE_ORDER` is, the eight bytes the host sees determine the word. It rests on the model's form
of that parameter, a permutation of the eight lanes (log 23). -/
def Obligations.HostBytesDetermineTheWord : Prop :=
  ∀ (c : Cfg) (v w : Word), c.Valid →
    (∀ j < 8, hostByteOf c.hostByteOrder v j = hostByteOf c.hostByteOrder w j) → v = w
end

