-- ==== Sys2Proof/Laws/Decode.lean ====
section
/-! SUPPORT. The fields of an encoded descriptor, and the three answers of the decoder. -/

namespace Sys2Proof

theorem cmdWord_toNat {o n m s : Nat} (ho : o < 2 ^ 16) (hn : n < 2 ^ 16) (hm : m < 2 ^ 16) (hs : s < 2 ^ 16) :
    (cmdWord o n m s).toNat = o + n * 2 ^ 16 + m * 2 ^ 32 + s * 2 ^ 48 := by
  rw [cmdWord, BitVec.toNat_ofNat, Nat.mod_eq_of_lt (by omega)]

/-- R101: the fields of a CMD word are what it was made of. -/
theorem cmdWord_fields {o n m s : Nat} (ho : o < 10) (hn : n < 2 ^ 16) (hm : m < 2 ^ 16) (hs : s < 2 ^ 16) :
    bitField (cmdWord o n m s).toNat 3 0 = o ∧ bitField (cmdWord o n m s).toNat 15 4 = 0 ∧
      bitField (cmdWord o n m s).toNat 31 16 = n ∧ bitField (cmdWord o n m s).toNat 47 32 = m ∧
      bitField (cmdWord o n m s).toNat 63 48 = s := by
  rw [cmdWord_toNat (by omega) hn hm hs]
  refine ⟨?_, ?_, ?_, ?_, ?_⟩ <;> simp only [bitField] <;> omega

theorem word_toNat {v : Nat} (h : v < 2 ^ 64) : (BitVec.ofNat 64 v).toNat = v := by
  rw [BitVec.toNat_ofNat, Nat.mod_eq_of_lt h]

theorem opcode_lt (i : Instr) : i.opcode < 10 := by cases i <;> simp [Instr.opcode]

/-- R111: a reserved opcode. -/
theorem decode_reserved {extOps : Bool} {d : Desc Word} (h : 10 ≤ d.opc ∨ (7 ≤ d.opc ∧ extOps = false)) :
    decode extOps d = .reject .reservedOpcode := by rw [decode, if_pos h]

/-- R106: a nonzero `RSV`. -/
theorem decode_rsv {extOps : Bool} {d : Desc Word} (h : ¬ (10 ≤ d.opc ∨ (7 ≤ d.opc ∧ extOps = false)))
    (hr : d.rsv ≠ 0) : decode extOps d = .reject .reservedField := by rw [decode, if_neg h, if_pos hr]

/-- R110: every other descriptor decodes to the kernel of its opcode. -/
theorem decode_instr {extOps : Bool} {d : Desc Word} (h : ¬ (10 ≤ d.opc ∨ (7 ≤ d.opc ∧ extOps = false)))
    (hr : d.rsv = 0) : ∃ i, decode extOps d = .instr i ∧ i.opcode = d.opc := by
  rw [decode, if_neg h, if_neg (not_not.2 hr)]
  have : d.opc < 10 := by omega
  generalize d.opc = k at *
  interval_cases k <;> exact ⟨_, rfl, rfl⟩

/-- An instruction comes from a descriptor with its opcode, no reserved bit set. -/
theorem decode_eq_instr {extOps : Bool} {d : Desc Word} {i : Instr} (h : decode extOps d = .instr i) :
    i.opcode = d.opc ∧ d.rsv = 0 ∧ (7 ≤ d.opc → extOps = true) := by
  by_cases h1 : 10 ≤ d.opc ∨ (7 ≤ d.opc ∧ extOps = false)
  · rw [decode_reserved h1] at h; cases h
  · by_cases h2 : d.rsv = 0
    · obtain ⟨j, hj, ho⟩ := decode_instr h1 h2
      rw [hj] at h; cases h
      refine ⟨ho, h2, fun h7 => ?_⟩
      cases extOps
      · exact absurd (.inr ⟨h7, rfl⟩) h1
      · rfl
    · rw [decode_rsv h1 h2] at h; cases h

end Sys2Proof
end

