-- ==== Sys2Proof/Laws/Lists.lean ====
section
/-! SUPPORT. The list helpers: `tab`, `sumTo` and reading past a list. -/

namespace Sys2Proof.Machine

@[simp] theorem length_tab {α : Type} (n : Nat) (f : Nat → α) : (tab n f).length = n := by simp [tab]

theorem getD_tab {α : Type} (n : Nat) (f : Nat → α) (d : α) (x : Nat) :
    (tab n f).getD x d = if x < n then f x else d := by
  rw [List.getD_eq_getElem?_getD, tab, List.getElem?_map]
  by_cases h : x < n <;> simp [h]

theorem getD_tab_of_lt {α : Type} {n : Nat} (f : Nat → α) (d : α) {x : Nat} (h : x < n) :
    (tab n f).getD x d = f x := by rw [getD_tab, if_pos h]

@[simp] theorem getElem_tab {α : Type} {n : Nat} (f : Nat → α) {x : Nat} (h : x < (tab n f).length) :
    (tab n f)[x] = f x := by simp [tab]

theorem getElem?_tab {α : Type} (n : Nat) (f : Nat → α) (x : Nat) :
    (tab n f)[x]? = if x < n then some (f x) else none := by
  rw [tab, List.getElem?_map]
  by_cases h : x < n <;> simp [h]

theorem mem_tab {α : Type} {n : Nat} {f : Nat → α} {a : α} : a ∈ tab n f ↔ ∃ x < n, f x = a := by
  simp [tab, List.mem_map, List.mem_range]

/-- Two tables with equal entries are equal. -/
theorem tab_congr {α : Type} {n : Nat} {f g : Nat → α} (h : ∀ x < n, f x = g x) : tab n f = tab n g :=
  List.map_congr_left fun x hx => h x (List.mem_range.1 hx)

/-- A list of length `n` is the table of its entries. -/
theorem eq_tab_getD {α : Type} {n : Nat} {xs : List α} (h : xs.length = n) (d : α) : xs = tab n fun x => xs.getD x d := by
  apply List.ext_getElem?
  intro x
  rw [getElem?_tab]
  by_cases hx : x < n
  · rw [if_pos hx, List.getD_eq_getElem?_getD, List.getElem?_eq_getElem (by omega)]; rfl
  · rw [if_neg hx, List.getElem?_eq_none (by omega)]

theorem getD_mem {α : Type} {xs : List α} {x : Nat} (h : x < xs.length) (d : α) : xs.getD x d ∈ xs := by
  rw [List.getD_eq_getElem?_getD, List.getElem?_eq_getElem h]
  exact List.getElem_mem h

@[simp] theorem sumTo_zero (f : Nat → Nat) : sumTo 0 f = 0 := rfl

@[simp] theorem sumTo_succ (n : Nat) (f : Nat → Nat) : sumTo (n + 1) f = sumTo n f + f n := rfl

theorem sumTo_congr {n : Nat} {f g : Nat → Nat} (h : ∀ x < n, f x = g x) : sumTo n f = sumTo n g := by
  induction n with
  | zero => rfl
  | succ n ih => rw [sumTo_succ, sumTo_succ, ih fun x hx => h x (by omega), h n (by omega)]

/-- `sumTo` is the finite sum of the library. -/
theorem sumTo_eq_sum (n : Nat) (f : Nat → Nat) : sumTo n f = ∑ x ∈ Finset.range n, f x := by
  induction n with
  | zero => rfl
  | succ n ih => rw [sumTo_succ, Finset.sum_range_succ, ih]

theorem le_sumTo {n k : Nat} (f : Nat → Nat) (h : k ≤ n) : sumTo k f ≤ sumTo n f := by
  induction n with
  | zero => simp [Nat.le_zero.1 h]
  | succ n ih =>
    rcases Nat.lt_or_eq_of_le h with h | rfl
    · exact (ih (by omega)).trans (by simp)
    · exact le_rfl

theorem sum_tab (n : Nat) (f : Nat → Nat) : (tab n f).sum = sumTo n f := by
  induction n with
  | zero => rfl
  | succ n ih => rw [sumTo_succ, ← ih, tab, List.range_succ, List.map_append, List.sum_append]; simp [tab]

end Sys2Proof.Machine
end

