-- ==== Sys2Proof/Laws/Memory.lean ====
section
/-! SUPPORT. The laws of sparse memory: reading after writing, the canonical form, and that a canonical memory is
determined by what it reads as. -/

namespace Sys2Proof.Machine.Memory

@[simp] theorem read_nil (a : Nat) : read [] a = none := rfl

theorem read_cons (k : Nat) (v : Word) (m : Memory) (a : Nat) :
    read ((k, v) :: m) a = if k = a then some v else read m a := rfl

/-- Reading after a write: the written word at its address, the old word everywhere else. -/
theorem read_write (m : Memory) (a b : Nat) (v : Word) :
    (m.write a v).read b = if b = a then some v else m.read b := by
  induction m with
  | nil => simp only [write, read_cons, read_nil, eq_comm]
  | cons cell m ih =>
    obtain ⟨k, w⟩ := cell
    simp only [write]
    split_ifs <;> simp only [read_cons, ih] <;> split_ifs <;> first | rfl | omega

@[simp] theorem read_write_same (m : Memory) (a : Nat) (v : Word) : (m.write a v).read a = some v := by
  simp [read_write]

@[simp] theorem read_write_other (m : Memory) {a b : Nat} (v : Word) (h : b ≠ a) : (m.write a v).read b = m.read b := by
  simp [read_write, h]

/-- The addresses a write leaves listed. -/
theorem mem_write {m : Memory} {a : Nat} {v : Word} {cell : Nat × Word} (h : cell ∈ m.write a v) :
    cell = (a, v) ∨ cell ∈ m := by
  induction m with
  | nil => simpa [write] using h
  | cons head m ih =>
    obtain ⟨k, w⟩ := head
    simp only [write] at h
    split_ifs at h
    · simpa using h
    · rcases List.mem_cons.1 h with h | h <;> simp [h]
    · rcases List.mem_cons.1 h with h | h
      · simp [h]
      · rcases ih h with h | h <;> simp [h]

theorem write_wf {m : Memory} (h : m.wf) (a : Nat) (v : Word) : (m.write a v).wf := by
  induction m with
  | nil => simp [wf, write]
  | cons head m ih =>
    obtain ⟨k, w⟩ := head
    obtain ⟨hk, hm⟩ := List.pairwise_cons.1 h
    simp only [write]
    split_ifs with h1 h2
    · refine List.pairwise_cons.2 ⟨fun c hc => ?_, h⟩
      rcases List.mem_cons.1 hc with rfl | hc
      · exact h1
      · exact h1.trans (hk c hc)
    · subst h2; exact List.pairwise_cons.2 ⟨hk, hm⟩
    · refine List.pairwise_cons.2 ⟨fun c hc => ?_, ih hm⟩
      rcases mem_write hc with rfl | hc
      · simp only; omega
      · exact hk c hc

theorem write_below {m : Memory} {bound : Nat} (h : m.Below bound) {a : Nat} (ha : a < bound) (v : Word) :
    (m.write a v).Below bound := by
  intro cell hc
  rcases mem_write hc with rfl | hc
  · exact ha
  · exact h cell hc

/-! Writing a list of words. -/

@[simp] theorem writeWords_nil (m : Memory) (base : Nat) : m.writeWords base [] = m := rfl

@[simp] theorem writeWords_cons (m : Memory) (base : Nat) (w : Word) (ws : List Word) :
    m.writeWords base (w :: ws) = (m.write base w).writeWords (base + 1) ws := rfl

/-- Reading after writing a list of words. -/
theorem read_writeWords (m : Memory) (base : Nat) (ws : List Word) (a : Nat) :
    (m.writeWords base ws).read a =
      if base ≤ a ∧ a < base + ws.length then ws[a - base]? else m.read a := by
  induction ws generalizing m base with
  | nil => simp
  | cons w ws ih =>
    rw [writeWords_cons, ih, read_write, List.length_cons]
    rcases Nat.lt_trichotomy a base with h | rfl | h
    · rw [if_neg (by omega), if_neg (by omega), if_neg (by omega)]
    · rw [if_neg (by omega), if_pos rfl, if_pos (by omega), Nat.sub_self]; rfl
    · rw [if_neg (show ¬ a = base by omega)]
      by_cases h' : a < base + (ws.length + 1)
      · rw [if_pos (by omega), if_pos (by omega), show a - base = (a - (base + 1)) + 1 by omega]; rfl
      · rw [if_neg (by omega), if_neg (by omega)]

theorem writeWords_wf {m : Memory} (h : m.wf) (base : Nat) (ws : List Word) : (m.writeWords base ws).wf := by
  induction ws generalizing m base with
  | nil => exact h
  | cons w ws ih => exact ih (write_wf h base w) (base + 1)

theorem writeWords_below {m : Memory} {bound : Nat} (h : m.Below bound) {base : Nat} {ws : List Word}
    (hb : ws = [] ∨ base + ws.length ≤ bound) : (m.writeWords base ws).Below bound := by
  induction ws generalizing m base with
  | nil => exact h
  | cons w ws ih =>
    have hl : base + (ws.length + 1) ≤ bound := by simpa using hb
    exact ih (write_below h (by omega) w) (.inr (by omega))

/-! Scattered writes. -/

/-- An address no destination hits reads as before. -/
theorem read_scatter_other {dest : Nat → Nat} {val : Nat → Word} {n : Nat} {m : Memory} {a : Nat}
    (h : ∀ x < n, dest x ≠ a) : (scatter dest val n m).read a = m.read a := by
  induction n with
  | zero => rfl
  | succ n ih =>
    rw [scatter, read_write_other _ _ (Ne.symm (h n (by omega))), ih fun x hx => h x (by omega)]

/-- With distinct destinations, each holds its value. -/
theorem read_scatter {dest : Nat → Nat} {val : Nat → Word} {n : Nat} {m : Memory}
    (inj : ∀ x < n, ∀ y < n, dest x = dest y → x = y) {x : Nat} (hx : x < n) :
    (scatter dest val n m).read (dest x) = some (val x) := by
  induction n with
  | zero => omega
  | succ n ih =>
    rw [scatter, read_write]
    by_cases h : x = n
    · simp [h]
    · have : dest x ≠ dest n := fun e => h (inj x hx n (by omega) e)
      rw [if_neg this, ih (fun x hx y hy => inj x (by omega) y (by omega)) (by omega)]

theorem scatter_wf {m : Memory} (h : m.wf) (dest : Nat → Nat) (val : Nat → Word) (n : Nat) :
    (scatter dest val n m).wf := by
  induction n with
  | zero => exact h
  | succ n ih => exact write_wf ih _ _

theorem scatter_below {m : Memory} {bound : Nat} (h : m.Below bound) {dest : Nat → Nat} {val : Nat → Word} {n : Nat}
    (hd : ∀ x < n, dest x < bound) : (scatter dest val n m).Below bound := by
  induction n with
  | zero => exact h
  | succ n ih => exact write_below (ih fun x hx => hd x (by omega)) (hd n (by omega)) _

/-! Equal memories are equal lists. -/

theorem read_eq_none_of_lt {m : Memory} {a : Nat} (h : ∀ cell ∈ m, a < cell.1) : m.read a = none := by
  induction m with
  | nil => rfl
  | cons head m ih =>
    obtain ⟨k, w⟩ := head
    have hk : a < k := h (k, w) List.mem_cons_self
    rw [read_cons, if_neg (by omega), ih fun c hc => h c (List.mem_cons_of_mem _ hc)]

/-- Two canonical memories that read alike everywhere are the same list. -/
theorem eq_of_read_eq {m m' : Memory} (h : m.wf) (h' : m'.wf) (hr : ∀ a, m.read a = m'.read a) : m = m' := by
  induction m generalizing m' with
  | nil =>
    cases m' with
    | nil => rfl
    | cons head m' => obtain ⟨k, w⟩ := head; simpa [read_cons] using hr k
  | cons head m ih =>
    obtain ⟨k, w⟩ := head
    obtain ⟨hk, hm⟩ := List.pairwise_cons.1 h
    cases m' with
    | nil => simpa [read_cons] using hr k
    | cons head' m' =>
      obtain ⟨k', w'⟩ := head'
      obtain ⟨hk', hm'⟩ := List.pairwise_cons.1 h'
      have e : k = k' := by
        by_contra hne
        rcases Nat.lt_or_gt_of_ne hne with hlt | hlt
        · have := hr k
          rw [read_cons, if_pos rfl, read_eq_none_of_lt] at this
          · simp at this
          · intro c hc
            rcases List.mem_cons.1 hc with rfl | hc
            · exact hlt
            · exact hlt.trans (hk' c hc)
        · have := hr k'
          rw [read_cons (k := k'), if_pos rfl, read_eq_none_of_lt] at this
          · simp at this
          · intro c hc
            rcases List.mem_cons.1 hc with rfl | hc
            · exact hlt
            · exact hlt.trans (hk c hc)
      subst e
      have hw : w = w' := by simpa [read_cons] using hr k
      subst hw
      refine congrArg _ (ih hm hm' fun a => ?_)
      by_cases ha : k = a
      · subst ha
        rw [read_eq_none_of_lt hk, read_eq_none_of_lt hk']
      · simpa [read_cons, ha] using hr a

end Sys2Proof.Machine.Memory
end

