-- ==== Sys2Proof/Laws/Ops.lean ====
section
/-! SUPPORT. What each shared operation can do, said once. -/

namespace Sys2Proof.Machine

/-! Sequencing. -/

@[simp] theorem ok_bind {α β : Type} (a : α) (f : α → Res β) : ((Except.ok a : Res α) >>= f) = f a := rfl

@[simp] theorem error_bind {α β : Type} (e : Stop) (f : α → Res β) : ((Except.error e : Res α) >>= f) = .error e := rfl

/-- A sequence that goes on went on in both parts. -/
theorem bind_eq_ok {α β : Type} {x : Res α} {f : α → Res β} {b : β} :
    (x >>= f) = .ok b ↔ ∃ a, x = .ok a ∧ f a = .ok b := by
  cases x with
  | ok a => simp
  | error e => simp

/-- A sequence that ends early ended in one of its parts. -/
theorem bind_eq_error {α β : Type} {x : Res α} {f : α → Res β} {e : Stop} :
    (x >>= f) = .error e ↔ x = .error e ∨ ∃ a, x = .ok a ∧ f a = .error e := by
  cases x with
  | ok a => simp
  | error e' => simp

@[simp] theorem check_of_pos {p : Prop} [Decidable p] (h : p) (e : Stop) : check p e = .ok () := by simp [check, h]

@[simp] theorem check_of_neg {p : Prop} [Decidable p] (h : ¬ p) (e : Stop) : check p e = .error e := by simp [check, h]

theorem check_eq_ok {p : Prop} [Decidable p] {e : Stop} {u : Unit} : check p e = .ok u ↔ p := by
  by_cases h : p <;> simp [h]

theorem check_eq_error {p : Prop} [Decidable p] {e e' : Stop} : check p e = .error e' ↔ ¬ p ∧ e = e' := by
  by_cases h : p <;> simp [h]

/-- A loop whose iterations all go on collects their values. -/
theorem gather_ok {α : Type} {n : Nat} {f : Nat → Res α} {g : Nat → α} (h : ∀ x < n, f x = .ok (g x)) :
    gather n f = .ok (tab n g) := by
  induction n generalizing f g with
  | zero => rfl
  | succ n ih =>
    have ht : tab (n + 1) g = g 0 :: tab n fun x => g (x + 1) := by
      simp [tab, List.range_succ_eq_map, Function.comp_def]
    rw [gather, h 0 (by omega), ok_bind, ih (f := fun x => f (x + 1)) fun x hx => h (x + 1) (by omega), ok_bind, ht]

/-- A loop that goes on: how long its list is, and where each value comes from. -/
theorem gather_eq_ok {α : Type} {n : Nat} {f : Nat → Res α} {as : List α} (h : gather n f = .ok as) :
    as.length = n ∧ ∀ x < n, ∀ d, f x = .ok (as.getD x d) := by
  induction n generalizing f as with
  | zero => cases h; exact ⟨rfl, fun x hx => by omega⟩
  | succ n ih =>
    obtain ⟨a, ha, h⟩ := bind_eq_ok.1 h
    obtain ⟨as', has, h⟩ := bind_eq_ok.1 h
    cases h
    obtain ⟨hl, hx⟩ := ih has
    refine ⟨by simp [hl], fun x hxn d => ?_⟩
    cases x with
    | zero => simpa using ha
    | succ x => simpa using hx x (by omega) d

/-- The first iteration that ends the invocation ends the loop. -/
theorem gather_error {α : Type} {n : Nat} {f : Nat → Res α} {l : Nat} {e : Stop} (hl : l < n)
    (hbefore : ∀ x < l, ∃ a, f x = .ok a) (he : f l = .error e) : gather n f = .error e := by
  induction n generalizing f l with
  | zero => omega
  | succ n ih =>
    cases l with
    | zero => simp [gather, he]
    | succ l =>
      obtain ⟨a, ha⟩ := hbefore 0 (by omega)
      rw [gather, ha, ok_bind, ih (f := fun x => f (x + 1)) (l := l) (by omega)
        (fun x hx => hbefore (x + 1) (by omega)) he]
      rfl

/-- A loop that ends early ends as one of its iterations does. -/
theorem gather_eq_error {α : Type} {n : Nat} {f : Nat → Res α} {e : Stop} (h : gather n f = .error e) :
    ∃ x < n, f x = .error e := by
  induction n generalizing f with
  | zero => cases h
  | succ n ih =>
    rcases bind_eq_error.1 h with h | ⟨a, -, h⟩
    · exact ⟨0, by omega, h⟩
    · rcases bind_eq_error.1 h with h | ⟨as, -, h⟩
      · obtain ⟨x, hx, hf⟩ := ih h
        exact ⟨x + 1, by omega, hf⟩
      · cases h

theorem each_eq_ok {n : Nat} {f : Nat → Res Unit} {u : Unit} : each n f = .ok u ↔ ∀ x < n, f x = .ok () := by
  induction n generalizing f with
  | zero => simp [each]
  | succ n ih =>
    rw [each, bind_eq_ok]
    constructor
    · rintro ⟨a, h0, h⟩ x hx
      cases x with
      | zero => exact h0
      | succ x => exact ih.1 h x (by omega)
    · intro h
      exact ⟨(), h 0 (by omega), ih.2 fun x hx => h (x + 1) (by omega)⟩

theorem each_ok {n : Nat} {f : Nat → Res Unit} (h : ∀ x < n, f x = .ok ()) : each n f = .ok () := each_eq_ok.2 h

/-- A checking loop in which every iteration passes or ends by `e`, and one ends by `e`, ends by `e`. -/
theorem each_error {n : Nat} {f : Nat → Res Unit} {e : Stop} {l : Nat} (hl : l < n)
    (hall : ∀ x < n, f x = .ok () ∨ f x = .error e) (he : f l = .error e) : each n f = .error e := by
  induction n generalizing f l with
  | zero => omega
  | succ n ih =>
    rw [each]
    rcases hall 0 (by omega) with h0 | h0
    · cases l with
      | zero => rw [h0] at he; cases he
      | succ l =>
        rw [h0, ok_bind]
        exact ih (f := fun x => f (x + 1)) (l := l) (by omega) (fun x hx => hall (x + 1) (by omega)) he
    · rw [h0]; rfl

theorem each_eq_error {n : Nat} {f : Nat → Res Unit} {e : Stop} (h : each n f = .error e) : ∃ x < n, f x = .error e := by
  induction n generalizing f with
  | zero => cases h
  | succ n ih =>
    rcases bind_eq_error.1 h with h | ⟨a, -, h⟩
    · exact ⟨0, by omega, h⟩
    · obtain ⟨x, hx, hf⟩ := ih h
      exact ⟨x + 1, by omega, hf⟩

/-! The end of an invocation. -/

@[simp] theorem finish_ok (s t : State) : finish s (.ok t) = .next (complete t) := rfl

@[simp] theorem finish_raise (s : State) (code : ErrCode) :
    finish s (.error (.raise code)) = .next (raiseConfigError code s) := rfl

@[simp] theorem finish_refuse (s : State) (r : Refusal) : finish s (.error (.refuse r)) = .refused r := rfl

@[simp] theorem finish_fault (s : State) (f : Fault) : finish s (.error (.fault f)) = .fault f := rfl

/-- An invocation that answers a next state completed, or was rejected with a code. -/
theorem finish_eq_next {s t : State} {r : Res State} (h : finish s r = .next t) :
    (∃ u, r = .ok u ∧ t = complete u) ∨ ∃ code, r = .error (.raise code) ∧ t = raiseConfigError code s := by
  match r, h with
  | .ok u, h => cases h; exact .inl ⟨u, rfl, rfl⟩
  | .error (.raise code), h => cases h; exact .inr ⟨code, rfl, rfl⟩

/-! Words. -/

@[simp] theorem extWord_of_read {m : Memory} {a : Nat} {w : Word} (h : m.read a = some w) : extWord m a = w := by
  rw [extWord, h]; rfl

/-- A read inside EXT goes on. -/
theorem coreRead_ok {s : State} {a : Nat} (ha : a < s.cfg.extWords) : coreRead s a = .ok (extWord s.ext a) :=
  if_pos ha

theorem coreRead_eq_ok {s : State} {a : Nat} {w : Word} :
    coreRead s a = .ok w ↔ a < s.cfg.extWords ∧ w = extWord s.ext a := by
  unfold coreRead
  split_ifs with ha <;> simp [ha, eq_comm]

theorem coreRead_eq_error {s : State} {a : Nat} {e : Stop} (h : coreRead s a = .error e) :
    e = .fault (.outsideExt a) ∧ s.cfg.extWords ≤ a := by
  unfold coreRead at h
  split_ifs at h with ha
  simp at h
  exact ⟨h.symm, by omega⟩

/-- A core read looks at the configuration and EXT alone. -/
theorem coreRead_congr {s t : State} (hc : t.cfg = s.cfg) (he : t.ext = s.ext) (a : Nat) : coreRead t a = coreRead s a := by
  simp [coreRead, hc, he]

theorem coreWrite_eq_ok {s t : State} {a : Nat} {v : Word} :
    coreWrite s a v = .ok t ↔ a < s.cfg.extWords ∧ t = { s with ext := s.ext.write a v } := by
  unfold coreWrite
  split_ifs with ha <;> simp [ha, eq_comm]

theorem coreWrite_eq_error {s : State} {a : Nat} {v : Word} {e : Stop} (h : coreWrite s a v = .error e) :
    e = .fault (.outsideExt a) := by
  unfold coreWrite at h
  split_ifs at h
  simpa [eq_comm] using h

theorem tileWord_eq_ok {t : Tile} {x : Nat} {w : Word} : tileWord t x = .ok w ↔ t.read x = some w := by
  unfold tileWord
  cases t.read x <;> simp

theorem tileWord_eq_error {t : Tile} {x : Nat} {e : Stop} (h : tileWord t x = .error e) : e = .refuse .unwrittenRead := by
  unfold tileWord at h
  cases h' : t.read x <;> simp [h'] at h
  exact h.symm

/-- A list of writes inside EXT goes on, and changes EXT alone. -/
theorem coreWriteWords_ok {s : State} {base : Nat} {ws : List Word} (h : ws = [] ∨ base + ws.length ≤ s.cfg.extWords) :
    coreWriteWords s base ws = .ok { s with ext := s.ext.writeWords base ws } := by
  induction ws generalizing s base with
  | nil => rfl
  | cons w ws ih =>
    have hl : base + (ws.length + 1) ≤ s.cfg.extWords := by simpa using h
    rw [coreWriteWords, coreWrite_eq_ok.2 ⟨by omega, rfl⟩, ok_bind, ih (.inr (by simp only; omega))]
    rfl

/-- A list of writes that goes on stays inside EXT, and changes EXT alone. -/
theorem coreWriteWords_eq_ok {s t : State} {base : Nat} {ws : List Word} (h : coreWriteWords s base ws = .ok t) :
    (ws = [] ∨ base + ws.length ≤ s.cfg.extWords) ∧ t = { s with ext := s.ext.writeWords base ws } := by
  induction ws generalizing s base with
  | nil => cases h; exact ⟨.inl rfl, rfl⟩
  | cons w ws ih =>
    obtain ⟨s', hs, h⟩ := bind_eq_ok.1 h
    obtain ⟨hb, rfl⟩ := coreWrite_eq_ok.1 hs
    obtain ⟨hr, rfl⟩ := ih h
    refine ⟨.inr ?_, rfl⟩
    rcases hr with rfl | hr
    · simp; omega
    · simp at hr ⊢; omega

theorem coreWriteWords_eq_error {s : State} {base : Nat} {ws : List Word} {e : Stop}
    (h : coreWriteWords s base ws = .error e) : ∃ a, e = .fault (.outsideExt a) := by
  induction ws generalizing s base with
  | nil => cases h
  | cons w ws ih =>
    rcases bind_eq_error.1 h with h | ⟨s', -, h⟩
    · exact ⟨_, coreWrite_eq_error h⟩
    · exact ih h

/-! Tiles and banks. -/

theorem tileValues_ok {c : Cfg} {t : Tile} {g : Nat → Word} (h : ∀ x < c.ringDim, t.read x = some (g x)) :
    tileValues c t = .ok (tab c.ringDim fun x => (g x).toNat) :=
  gather_ok fun x hx => by rw [tileWord_eq_ok.2 (h x hx)]; rfl

/-- Reading all values of a tile that goes on: every word was written. -/
theorem tileValues_eq_ok {c : Cfg} {t : Tile} {vs : List Nat} (h : tileValues c t = .ok vs) :
    vs.length = c.ringDim ∧ ∀ x < c.ringDim, ∃ w : Word, t.read x = some w ∧ vs.getD x 0 = w.toNat := by
  obtain ⟨hl, hx⟩ := gather_eq_ok h
  refine ⟨hl, fun x hxn => ?_⟩
  obtain ⟨w, hw, he⟩ := bind_eq_ok.1 (hx x hxn 0)
  exact ⟨w, tileWord_eq_ok.1 hw, by simpa [eq_comm] using he⟩

theorem tileValues_eq_error {c : Cfg} {t : Tile} {e : Stop} (h : tileValues c t = .error e) :
    e = .refuse .unwrittenRead := by
  obtain ⟨x, -, hx⟩ := gather_eq_error h
  rcases bind_eq_error.1 hx with hx | ⟨w, -, hx⟩
  · exact tileWord_eq_error hx
  · cases hx

/-- The words of a tile made from a list of words. -/
theorem read_writeWords_nil (ws : List Word) (x : Nat) : (Memory.writeWords [] 0 ws).read x = ws[x]? := by
  rw [Memory.read_writeWords]
  by_cases h : x < ws.length
  · rw [if_pos (by omega), Nat.sub_zero]
  · rw [if_neg (by omega), List.getElem?_eq_none (by omega)]; rfl

theorem read_tileOf (vs : List Nat) {x : Nat} (hx : x < vs.length) :
    (tileOf vs).read x = some (BitVec.ofNat 64 (vs.getD x 0)) := by
  rw [tileOf, read_writeWords_nil, List.getElem?_map, List.getElem?_eq_getElem hx, List.getD_eq_getElem?_getD,
    List.getElem?_eq_getElem hx]
  rfl

theorem tileOf_wf (vs : List Nat) : (tileOf vs).wf := Memory.writeWords_wf List.Pairwise.nil _ _

theorem tileOf_below {vs : List Nat} {bound : Nat} (h : vs.length ≤ bound) : (tileOf vs).Below bound :=
  Memory.writeWords_below (fun _ hc => by simp at hc) (.inr (by simpa using h))

theorem slot_putTiles_of_lt {bank tiles : List Tile} {l : Nat} (h : l < tiles.length) :
    slot (putTiles bank tiles) l = tiles.getD l [] := by
  simp [slot, putTiles, List.getD_eq_getElem?_getD, List.getElem?_append_left h]

theorem slot_putTiles_of_le {bank tiles : List Tile} {l : Nat} (h : tiles.length ≤ l) :
    slot (putTiles bank tiles) l = slot bank l := by
  simp only [slot, putTiles, List.getD_eq_getElem?_getD, List.getElem?_append_right h, List.getElem?_drop]
  congr 2; omega

theorem length_putTiles {bank tiles : List Tile} (h : tiles.length ≤ bank.length) :
    (putTiles bank tiles).length = bank.length := by
  simp [putTiles]; omega

theorem mem_putTiles {bank tiles : List Tile} {t : Tile} (h : t ∈ putTiles bank tiles) : t ∈ tiles ∨ t ∈ bank := by
  rcases List.mem_append.1 h with h | h
  · exact .inl h
  · exact .inr (List.mem_of_mem_drop h)

/-! Load and Store. -/

/-- R272, R337: a Load inside EXT goes on, and tile `l < n` holds its words. -/
theorem load_ok {s : State} {base n : Nat} {bank : List Tile}
    (hin : ∀ l < n, ∀ x < s.cfg.ringDim, tiledAddr s.cfg base l x < s.cfg.extWords) :
    load s base bank n = .ok (putTiles bank (tab n fun l => Memory.writeWords [] 0
      (tab s.cfg.ringDim fun x => extWord s.ext (tiledAddr s.cfg base l x)))) := by
  unfold load
  rw [gather_ok (g := fun l => Memory.writeWords [] 0
    (tab s.cfg.ringDim fun x => extWord s.ext (tiledAddr s.cfg base l x)))]
  · rfl
  · intro l hl
    unfold loadTile
    rw [gather_ok fun x hx => coreRead_ok (hin l hl x hx)]
    rfl

/-- R272: what a Load that goes on leaves: the active tiles hold the words of EXT, the rest of the bank is untouched. -/
theorem load_eq_ok {s : State} {base n : Nat} {bank bank' : List Tile} (h : load s base bank n = .ok bank') :
    ∃ tiles : List Tile, tiles.length = n ∧ bank' = putTiles bank tiles ∧
      ∀ l < n, (tiles.getD l []).wf ∧ (tiles.getD l []).Below s.cfg.ringDim ∧
        ∀ x < s.cfg.ringDim, tiledAddr s.cfg base l x < s.cfg.extWords ∧
          (tiles.getD l []).read x = some (extWord s.ext (tiledAddr s.cfg base l x)) := by
  obtain ⟨tiles, ht, he⟩ := bind_eq_ok.1 h
  obtain ⟨hl, hx⟩ := gather_eq_ok ht
  refine ⟨tiles, hl, by simpa [eq_comm] using he, fun l hln => ?_⟩
  obtain ⟨ws, hws, hw⟩ := bind_eq_ok.1 (hx l hln [])
  obtain ⟨hwl, hwx⟩ := gather_eq_ok hws
  have hw : tiles.getD l [] = Memory.writeWords [] 0 ws := by simpa [eq_comm] using hw
  rw [hw]
  refine ⟨Memory.writeWords_wf List.Pairwise.nil _ _,
    Memory.writeWords_below (fun _ hc => by simp at hc) (.inr (by omega)), fun x hxn => ?_⟩
  obtain ⟨hin, hr⟩ := coreRead_eq_ok.1 (hwx x hxn 0)
  refine ⟨hin, ?_⟩
  rw [← hr, read_writeWords_nil, List.getElem?_eq_getElem (by omega), List.getD_eq_getElem?_getD,
    List.getElem?_eq_getElem (by omega)]
  rfl

/-- R337: the only way a Load stops is an address that does not exist. -/
theorem load_eq_error {s : State} {base n : Nat} {bank : List Tile} {e : Stop} (h : load s base bank n = .error e) :
    ∃ a, e = .fault (.outsideExt a) := by
  rcases bind_eq_error.1 h with h | ⟨_, -, h⟩
  · obtain ⟨l, -, h⟩ := gather_eq_error h
    rcases bind_eq_error.1 h with h | ⟨_, -, h⟩
    · obtain ⟨x, -, h⟩ := gather_eq_error h
      exact ⟨_, (coreRead_eq_error h).1⟩
    · cases h
  · cases h

/-- R273: what a Store that goes on leaves: EXT alone changes, by the words of the active tiles. -/
theorem store_eq_ok {s t : State} {base n : Nat} {bank : List Tile} (h : store s base bank n = .ok t) :
    ∃ ws : List Word, ws.length = n * s.cfg.ringDim ∧
      (∀ y < n * s.cfg.ringDim, ∀ d, (slot bank (y / s.cfg.ringDim)).read (y % s.cfg.ringDim) = some (ws.getD y d)) ∧
      (ws = [] ∨ base + ws.length ≤ s.cfg.extWords) ∧ t = { s with ext := s.ext.writeWords base ws } := by
  obtain ⟨ws, hws, h⟩ := bind_eq_ok.1 h
  obtain ⟨hl, hx⟩ := gather_eq_ok hws
  obtain ⟨hb, rfl⟩ := coreWriteWords_eq_ok h
  exact ⟨ws, hl, fun y hy d => tileWord_eq_ok.1 (hx y hy d), hb, rfl⟩

/-- R273: a Store of written tiles inside EXT goes on. -/
theorem store_ok {s : State} {base n : Nat} {bank : List Tile} {g : Nat → Word}
    (hb : n * s.cfg.ringDim = 0 ∨ base + n * s.cfg.ringDim ≤ s.cfg.extWords)
    (h : ∀ y < n * s.cfg.ringDim, (slot bank (y / s.cfg.ringDim)).read (y % s.cfg.ringDim) = some (g y)) :
    store s base bank n = .ok { s with ext := s.ext.writeWords base (tab (n * s.cfg.ringDim) g) } := by
  unfold store
  rw [gather_ok (g := g) fun y hy => tileWord_eq_ok.2 (h y hy), ok_bind]
  refine coreWriteWords_ok ?_
  rcases hb with hb | hb
  · left; exact List.length_eq_zero_iff.1 (by simpa using hb)
  · right; simpa using hb

theorem store_eq_error {s : State} {base n : Nat} {bank : List Tile} {e : Stop} (h : store s base bank n = .error e) :
    e = .refuse .unwrittenRead ∨ ∃ a, e = .fault (.outsideExt a) := by
  rcases bind_eq_error.1 h with h | ⟨_, -, h⟩
  · obtain ⟨y, -, h⟩ := gather_eq_error h
    exact .inl (tileWord_eq_error h)
  · exact .inr (coreWriteWords_eq_error h)

end Sys2Proof.Machine
end

