-- ==== Sys2Proof/Laws/State.lean ====
section
/-! SUPPORT. What each named update of the state does to each field, and what the status words say. -/

namespace Sys2Proof.Machine

/-! `raiseConfigError`. -/

@[simp] theorem raiseConfigError_cfg (code : ErrCode) (s : State) : (raiseConfigError code s).cfg = s.cfg := rfl

@[simp] theorem raiseConfigError_desc (code : ErrCode) (s : State) : (raiseConfigError code s).desc = s.desc := rfl

@[simp] theorem raiseConfigError_status (code : ErrCode) (s : State) : (raiseConfigError code s).status = statusError code := rfl

@[simp] theorem raiseConfigError_snap (code : ErrCode) (s : State) : (raiseConfigError code s).snap = s.snap := rfl

@[simp] theorem raiseConfigError_ta (code : ErrCode) (s : State) : (raiseConfigError code s).ta = s.ta := rfl

@[simp] theorem raiseConfigError_tb (code : ErrCode) (s : State) : (raiseConfigError code s).tb = s.tb := rfl

@[simp] theorem raiseConfigError_tc (code : ErrCode) (s : State) : (raiseConfigError code s).tc = s.tc := rfl

@[simp] theorem raiseConfigError_pea (code : ErrCode) (s : State) : (raiseConfigError code s).pea = s.pea := rfl

@[simp] theorem raiseConfigError_captured (code : ErrCode) (s : State) : (raiseConfigError code s).captured = s.captured := rfl

@[simp] theorem raiseConfigError_cyc (code : ErrCode) (s : State) : (raiseConfigError code s).cyc = s.cyc := rfl

@[simp] theorem raiseConfigError_refused (code : ErrCode) (s : State) : (raiseConfigError code s).refused = s.refused := rfl

@[simp] theorem raiseConfigError_ext (code : ErrCode) (s : State) : (raiseConfigError code s).ext = s.ext := rfl

@[simp] theorem raiseConfigError_host (code : ErrCode) (s : State) : (raiseConfigError code s).host = s.host := rfl

@[simp] theorem raiseConfigError_turns (code : ErrCode) (s : State) : (raiseConfigError code s).turns = s.turns := rfl

@[simp] theorem raiseConfigError_replies (code : ErrCode) (s : State) : (raiseConfigError code s).replies = s.replies := rfl

@[simp] theorem raiseConfigError_draws (code : ErrCode) (s : State) : (raiseConfigError code s).draws = s.draws := rfl

/-! `acceptGo`. -/

@[simp] theorem acceptGo_cfg (d : Desc Word) (s : State) : (acceptGo d s).cfg = s.cfg := rfl

@[simp] theorem acceptGo_desc (d : Desc Word) (s : State) : (acceptGo d s).desc = s.desc := rfl

@[simp] theorem acceptGo_status (d : Desc Word) (s : State) : (acceptGo d s).status = statusBusy := rfl

@[simp] theorem acceptGo_snap (d : Desc Word) (s : State) : (acceptGo d s).snap = d := rfl

@[simp] theorem acceptGo_ta (d : Desc Word) (s : State) : (acceptGo d s).ta = s.ta := rfl

@[simp] theorem acceptGo_tb (d : Desc Word) (s : State) : (acceptGo d s).tb = s.tb := rfl

@[simp] theorem acceptGo_tc (d : Desc Word) (s : State) : (acceptGo d s).tc = s.tc := rfl

@[simp] theorem acceptGo_pea (d : Desc Word) (s : State) : (acceptGo d s).pea = s.pea := rfl

@[simp] theorem acceptGo_captured (d : Desc Word) (s : State) : (acceptGo d s).captured = s.captured := rfl

@[simp] theorem acceptGo_cyc (d : Desc Word) (s : State) : (acceptGo d s).cyc = s.cyc := rfl

@[simp] theorem acceptGo_refused (d : Desc Word) (s : State) : (acceptGo d s).refused = s.refused := rfl

@[simp] theorem acceptGo_ext (d : Desc Word) (s : State) : (acceptGo d s).ext = s.ext := rfl

@[simp] theorem acceptGo_host (d : Desc Word) (s : State) : (acceptGo d s).host = s.host := rfl

@[simp] theorem acceptGo_turns (d : Desc Word) (s : State) : (acceptGo d s).turns = s.turns := rfl

@[simp] theorem acceptGo_replies (d : Desc Word) (s : State) : (acceptGo d s).replies = s.replies := rfl

@[simp] theorem acceptGo_draws (d : Desc Word) (s : State) : (acceptGo d s).draws = s.draws := rfl

/-! `complete`. -/

@[simp] theorem complete_cfg (s : State) : (complete s).cfg = s.cfg := rfl

@[simp] theorem complete_desc (s : State) : (complete s).desc = s.desc := rfl

@[simp] theorem complete_status (s : State) : (complete s).status = statusDone := rfl

@[simp] theorem complete_snap (s : State) : (complete s).snap = s.snap := rfl

@[simp] theorem complete_ta (s : State) : (complete s).ta = s.ta := rfl

@[simp] theorem complete_tb (s : State) : (complete s).tb = s.tb := rfl

@[simp] theorem complete_tc (s : State) : (complete s).tc = s.tc := rfl

@[simp] theorem complete_pea (s : State) : (complete s).pea = s.pea := rfl

@[simp] theorem complete_captured (s : State) : (complete s).captured = s.captured := rfl

@[simp] theorem complete_cyc (s : State) : (complete s).cyc = s.cyc := rfl

@[simp] theorem complete_refused (s : State) : (complete s).refused = s.refused := rfl

@[simp] theorem complete_ext (s : State) : (complete s).ext = s.ext := rfl

@[simp] theorem complete_host (s : State) : (complete s).host = s.host := rfl

@[simp] theorem complete_turns (s : State) : (complete s).turns = s.turns := rfl

@[simp] theorem complete_replies (s : State) : (complete s).replies = s.replies := rfl

@[simp] theorem complete_draws (s : State) : (complete s).draws = s.draws := rfl

/-! `beginKernel`. -/

@[simp] theorem beginKernel_cfg (s : State) : (beginKernel s).cfg = s.cfg := rfl

@[simp] theorem beginKernel_desc (s : State) : (beginKernel s).desc = s.desc := rfl

@[simp] theorem beginKernel_status (s : State) : (beginKernel s).status = s.status := rfl

@[simp] theorem beginKernel_snap (s : State) : (beginKernel s).snap = s.snap := rfl

@[simp] theorem beginKernel_ta (s : State) : (beginKernel s).ta = unwrittenBank s.cfg := rfl

@[simp] theorem beginKernel_tb (s : State) : (beginKernel s).tb = unwrittenBank s.cfg := rfl

@[simp] theorem beginKernel_tc (s : State) : (beginKernel s).tc = unwrittenBank s.cfg := rfl

@[simp] theorem beginKernel_pea (s : State) : (beginKernel s).pea = s.pea := rfl

@[simp] theorem beginKernel_captured (s : State) : (beginKernel s).captured = s.captured := rfl

@[simp] theorem beginKernel_cyc (s : State) : (beginKernel s).cyc = 0 := rfl

@[simp] theorem beginKernel_refused (s : State) : (beginKernel s).refused = s.refused := rfl

@[simp] theorem beginKernel_ext (s : State) : (beginKernel s).ext = s.ext := rfl

@[simp] theorem beginKernel_host (s : State) : (beginKernel s).host = s.host := rfl

@[simp] theorem beginKernel_turns (s : State) : (beginKernel s).turns = s.turns := rfl

@[simp] theorem beginKernel_replies (s : State) : (beginKernel s).replies = s.replies := rfl

@[simp] theorem beginKernel_draws (s : State) : (beginKernel s).draws = s.draws := rfl

/-! `settle`. -/

@[simp] theorem settle_next (s t : State) : s.settle (.next t) = t := rfl

@[simp] theorem settle_refused (s : State) (r : Refusal) : s.settle (.refused r) = { s with refused := true } := rfl

@[simp] theorem settle_fault (s : State) (f : Fault) : s.settle (.fault f) = s := rfl

/-! The status words (R331, R332). -/

theorem statusBusy_ne_done : statusBusy ≠ statusDone := by decide

theorem statusError_ne_done (code : ErrCode) : statusError code ≠ statusDone := by cases code <;> decide

theorem statusError_ne_busy (code : ErrCode) : statusError code ≠ statusBusy := by cases code <;> decide

/-- Two causes with one status word are the same cause. -/
theorem statusError_injective {c c' : ErrCode} (h : statusError c = statusError c') : c = c' := by
  cases c <;> cases c' <;> first | rfl | (revert h; decide)

theorem busy_of_status {s : State} (h : s.status = statusBusy) : s.busy = true := by simp [State.busy, h, statusBusy]

theorem not_busy_of_done {s : State} (h : s.status = statusDone) : s.busy = false := by
  simp [State.busy, h, statusDone]

theorem not_busy_of_error {s : State} {code : ErrCode} (h : s.status = statusError code) : s.busy = false := by
  rw [State.busy, h]; cases code <;> decide

theorem done_of_status {s : State} (h : s.status = statusDone) : s.done = true := by
  simp [State.done, h, statusDone]

theorem not_done_of_error {s : State} {code : ErrCode} (h : s.status = statusError code) : s.done = false := by
  rw [State.done, h]; cases code <;> decide

@[simp] theorem busy_acceptGo (d : Desc Word) (s : State) : (acceptGo d s).busy = true := busy_of_status rfl

@[simp] theorem busy_complete (s : State) : (complete s).busy = false := not_busy_of_done rfl

@[simp] theorem done_complete (s : State) : (complete s).done = true := done_of_status rfl

@[simp] theorem busy_raiseConfigError (code : ErrCode) (s : State) : (raiseConfigError code s).busy = false :=
  not_busy_of_error rfl

@[simp] theorem done_raiseConfigError (code : ErrCode) (s : State) : (raiseConfigError code s).done = false :=
  not_done_of_error rfl

/-! The register file. -/

@[simp] theorem writtenDesc_writtenRegs (d : Desc Word) : writtenDesc (writtenRegs d) = some d := rfl

/-- The registers of a written register file are those of its descriptor. -/
theorem writtenDesc_eq_some {r : Desc (Option Word)} {d : Desc Word} (h : writtenDesc r = some d) :
    r = writtenRegs d := by
  obtain ⟨a, b, c, e, f, g, i, j, k⟩ := r
  simp only [writtenDesc, Option.bind_eq_bind, Option.bind_eq_some_iff] at h
  obtain ⟨_, rfl, _, rfl, _, rfl, _, rfl, _, rfl, _, rfl, _, rfl, _, rfl, _, rfl, h⟩ := h
  cases h; rfl

/-- A register reads as the last value written to it; the others keep theirs. -/
theorem descReg_setDescReg (d : Desc (Option Word)) {r q : Nat} (hr : r ≤ 8) (hq : q ≤ 8) (v : Word) :
    descReg (setDescReg d r v) q = if q = r then some (some v) else descReg d q := by
  interval_cases r <;> interval_cases q <;> rfl

end Sys2Proof.Machine
end

