-- ==== Sys2Proof/Laws/Kernels.lean ====
section
/-! SUPPORT. What the phases of each kernel can do: the boundary checks, the refusal checks, and the footprint of
phase 4. -/

namespace Sys2Proof.Machine

/-! The meaning of an instruction as a result: `exec i s = finish s (kernel i s)`. -/

/-- Phases 2 to 4 of R333. -/
def kernel (i : Instr) (s : State) : Res State :=
  match i with
  | .init => .error (.refuse .initUndefined)
  | .add n off a b d m => addSub true (.add n off a b d m) n off a b d m s
  | .sub n off a b d m => addSub false (.sub n off a b d m) n off a b d m s
  | .mul n off a b d m kh mu => mulLimbs (.mul n off a b d m kh mu) n off a b d m kh mu s
  | .ntt n off a d m kh mu tw => transformLimbs true (.ntt n off a d m kh mu tw) n off a d m kh mu tw s
  | .intt n off a d m kh mu tw => transformLimbs false (.intt n off a d m kh mu tw) n off a d m kh mu tw s
  | .bconv a b d m => baseConvert (.bconv a b d m) a b d m s
  | .auto n off st a d m => autoLimbs (.auto n off st a d m) n off st a d m s
  | .ilvR n a d => interleaveLimbs true (.ilvR n a d) n a d s
  | .ilvL n a d => interleaveLimbs false (.ilvL n a d) n a d s

theorem exec_eq_finish (i : Instr) (s : State) : exec i s = finish s (kernel i s) := by cases i <;> rfl

/-- An instruction that answers a next state completed its phase 4, or was rejected with a code. -/
theorem exec_eq_next {i : Instr} {s t : State} (h : exec i s = .next t) :
    (∃ u, kernel i s = .ok u ∧ t = complete u) ∨
      ∃ code, kernel i s = .error (.raise code) ∧ t = raiseConfigError code s :=
  finish_eq_next (by rwa [exec_eq_finish] at h)

/-! Boundary checks. -/

theorem checkLimbs_eq_ok {s : State} {n : Nat} {u : Unit} : checkLimbs s n = .ok u ↔ n ≤ s.cfg.maxLimbs := check_eq_ok

theorem checkModIndex_eq_ok {s : State} {n moff : Nat} {u : Unit} :
    checkModIndex s n moff = .ok u ↔ moff + n ≤ s.cfg.numModuli := check_eq_ok

theorem checkRange_eq_ok {s : State} {i : Instr} {u : Unit} : checkRange s i = .ok u ↔ InRange s i := check_eq_ok

theorem validModulus_ok {w : Word} (h0 : w.toNat ≠ 0) (h : w.toNat < 2 ^ 62) : validModulus w = .ok w.toNat := by
  simp only [validModulus, check_of_pos h0, check_of_pos h, ok_bind]

theorem validModulus_eq_ok {w : Word} {q : Nat} (h : validModulus w = .ok q) :
    w.toNat ≠ 0 ∧ w.toNat < 2 ^ 62 ∧ q = w.toNat := by
  obtain ⟨_, h0, h⟩ := bind_eq_ok.1 h
  obtain ⟨_, h1, h⟩ := bind_eq_ok.1 h
  exact ⟨check_eq_ok.1 h0, check_eq_ok.1 h1, by simpa [eq_comm] using h⟩

theorem validModulus_zero {w : Word} (h : w.toNat = 0) : validModulus w = .error (.raise .modulusZero) := by
  simp only [validModulus, check_of_neg (show ¬ w.toNat ≠ 0 by simpa using h), error_bind]

theorem validModulus_range {w : Word} (h : 2 ^ 62 ≤ w.toNat) : validModulus w = .error (.raise .modulusRange) := by
  simp only [validModulus, check_of_pos (show w.toNat ≠ 0 by omega),
    check_of_neg (show ¬ w.toNat < 2 ^ 62 by omega), ok_bind, error_bind]

/-- A read inside EXT gives the number in the word. -/
theorem coreRead_wordAt {s : State} {a : Nat} (ha : a < s.cfg.extWords) :
    ∃ w : Word, coreRead s a = .ok w ∧ w.toNat = wordAt s a := ⟨_, coreRead_ok ha, rfl⟩

theorem wordAt_of_coreRead {s : State} {a : Nat} {w : Word} (h : coreRead s a = .ok w) : wordAt s a = w.toNat := by
  rw [(coreRead_eq_ok.1 h).2]; rfl

/-- Legal moduli inside EXT are read, in order. -/
theorem readModuli_ok {s : State} {base n : Nat} (hin : ∀ l < n, base + l < s.cfg.extWords) (h : ModuliOk s base n) :
    readModuli s base n = .ok (tab n fun l => wordAt s (base + l)) := by
  refine gather_ok fun l hl => ?_
  obtain ⟨h0, h1⟩ := h l hl
  obtain ⟨w, hr, he⟩ := coreRead_wordAt (hin l hl)
  rw [hr, ok_bind, ← he, validModulus_ok (by omega) (by omega)]

theorem readModuli_eq_ok {s : State} {base n : Nat} {qs : List Nat} (h : readModuli s base n = .ok qs) :
    qs.length = n ∧ ModuliOk s base n ∧ ∀ l < n, qs.getD l 0 = wordAt s (base + l) := by
  obtain ⟨hl, hx⟩ := gather_eq_ok h
  have key : ∀ l < n, ModulusOk s (base + l) ∧ qs.getD l 0 = wordAt s (base + l) := by
    intro l hln
    obtain ⟨w, hw, he⟩ := bind_eq_ok.1 (hx l hln 0)
    obtain ⟨h0, h1, e⟩ := validModulus_eq_ok he
    have hv := wordAt_of_coreRead hw
    exact ⟨⟨by omega, by omega⟩, by omega⟩
  exact ⟨hl, fun l hln => (key l hln).1, fun l hln => (key l hln).2⟩

/-- Steps 3 to 6 of R363 pass. -/
theorem modularBoundary_ok {s : State} {i : Instr} {n moff modb : Nat} (hb : BoundaryOk s i n moff)
    (hin : ∀ l < n, modb + moff + l < s.cfg.extWords) (hm : ModuliOk s (modb + moff) n) :
    modularBoundary s i n moff modb = .ok (tab n fun l => wordAt s (modb + moff + l)) := by
  obtain ⟨h1, h2, h3⟩ := hb
  simp only [modularBoundary, checkLimbs, checkModIndex, checkRange, check_of_pos h1, check_of_pos h2, check_of_pos h3,
    ok_bind, readModuli_ok hin hm]

theorem modularBoundary_eq_ok {s : State} {i : Instr} {n moff modb : Nat} {qs : List Nat}
    (h : modularBoundary s i n moff modb = .ok qs) :
    BoundaryOk s i n moff ∧ ModuliOk s (modb + moff) n ∧ qs.length = n ∧
      ∀ l < n, qs.getD l 0 = wordAt s (modb + moff + l) := by
  obtain ⟨_, h1, h⟩ := bind_eq_ok.1 h
  obtain ⟨_, h2, h⟩ := bind_eq_ok.1 h
  obtain ⟨_, h3, h⟩ := bind_eq_ok.1 h
  obtain ⟨hl, hm, hq⟩ := readModuli_eq_ok h
  exact ⟨⟨checkLimbs_eq_ok.1 h1, checkModIndex_eq_ok.1 h2, checkRange_eq_ok.1 h3⟩, hm, hl, hq⟩

/-- A range of the access set that is not empty lies inside EXT. -/
theorem Span.lt_of_inside {words : Nat} {r : Span} (h : r.inside words) {x : Nat} (hx : x < r.len) :
    r.base + x < words := by
  rcases h with h | h <;> omega

/-! Refusal checks. -/

theorem operandsBelow_ok {s : State} {src n base : Nat} {qs : List Nat}
    (hin : ∀ l < n, ∀ x < s.cfg.ringDim, tiledAddr s.cfg src l x < s.cfg.extWords)
    (hq : ∀ l < n, qs.getD l 0 = wordAt s (base + l)) (h : OperandsOk s src n base) :
    operandsBelow s src n qs = .ok () :=
  each_ok fun l hl => each_ok fun x hx => by
    have hlt := h l hl x hx
    obtain ⟨w, hr, he⟩ := coreRead_wordAt (hin l hl x hx)
    rw [hr, ok_bind, check_of_pos (by rw [hq l hl]; omega)]

theorem operandsBelow_eq_ok {s : State} {src n : Nat} {qs : List Nat} {u : Unit}
    (h : operandsBelow s src n qs = .ok u) :
    ∀ l < n, ∀ x < s.cfg.ringDim, wordAt s (tiledAddr s.cfg src l x) < qs.getD l 0 := by
  intro l hl x hx
  obtain ⟨w, hr, hc⟩ := bind_eq_ok.1 (each_eq_ok.1 (each_eq_ok.1 h l hl) x hx)
  rw [wordAt_of_coreRead hr]
  exact check_eq_ok.1 hc

theorem readBarrett_ok {s : State} {base khb mb moff n : Nat} {qs : List Nat}
    (hk : ∀ l < n, khb + moff + l < s.cfg.extWords) (hm : ∀ l < n, mb + moff + l < s.cfg.extWords)
    (hq : ∀ l < n, qs.getD l 0 = wordAt s (base + l)) (h : BarrettOk s base (khb + moff) (mb + moff) n) :
    readBarrett s khb mb moff n qs = .ok (tab n fun l => (wordAt s (khb + moff + l), wordAt s (mb + moff + l))) :=
  gather_ok fun l hl => by
    obtain ⟨h1, h2⟩ := h l hl
    obtain ⟨kh, hkr, hke⟩ := coreRead_wordAt (hk l hl)
    obtain ⟨mu, hmr, hme⟩ := coreRead_wordAt (hm l hl)
    rw [hkr, hmr, ok_bind, ok_bind, check_of_pos (by rw [hq l hl, hke, hme]; exact ⟨h1, h2⟩), ok_bind, hke, hme]

theorem readBarrett_eq_ok {s : State} {khb mb moff n : Nat} {qs : List Nat} {ks : List (Nat × Nat)}
    (h : readBarrett s khb mb moff n qs = .ok ks) :
    ks.length = n ∧ ∀ l < n, ks.getD l (0, 0) = (barrettShift (qs.getD l 0), barrettRecip (qs.getD l 0)) := by
  obtain ⟨hl, hx⟩ := gather_eq_ok h
  refine ⟨hl, fun l hln => ?_⟩
  obtain ⟨kh, -, h⟩ := bind_eq_ok.1 (hx l hln (0, 0))
  obtain ⟨mu, -, h⟩ := bind_eq_ok.1 h
  obtain ⟨_, hc, h⟩ := bind_eq_ok.1 h
  obtain ⟨h1, h2⟩ := check_eq_ok.1 hc
  have : ks.getD l (0, 0) = (kh.toNat, mu.toNat) := by simpa [eq_comm] using h
  rw [this, h1, h2]

theorem checkWritten_eq_ok {s : State} {i : Instr} {u : Unit} : checkWritten s i = .ok u ↔ InputsWritten s i := check_eq_ok

/-- Case 11 of 95_test_vectors.md section 8.2 asks nothing of a kernel but NTT. -/
theorem inputsWritten_of_ne {s : State} {i : Instr} (h : i.opcode ≠ 4) : InputsWritten s i := by
  cases i <;> first | exact absurd rfl h | exact fun _ ha => absurd ha List.not_mem_nil

/-- The words an NTT under `REF` asks to have been written, one by one. -/
theorem mem_mustBeWritten_ntt {c : Cfg} {n off a d m kh mu tw x : Nat} :
    x ∈ mustBeWritten c (.ntt n off a d m kh mu tw) ↔ c.nttConvention = .ref ∧ ∃ l < n,
      x = m + off + l ∨ x = kh + off + l ∨ x = mu + off + l ∨ (∃ y < c.ringDim, x = tiledAddr c a l y) ∨
        ∃ f < 2 * c.ringDim, refReads c f = true ∧ x = tw + (off + l) * c.twn + f := by
  cases hc : c.nttConvention with
  | opq => simp [mustBeWritten, hc]
  | ref =>
    simp only [mustBeWritten, hc, List.mem_flatMap, List.mem_range, List.mem_append, List.mem_cons, List.mem_map,
      List.mem_filter, List.not_mem_nil, or_false, true_and, or_assoc, and_assoc, @eq_comm Nat _ x]

/-! The footprint of phase 4. -/

/-- The tiles of a bank after a Load or a compute phase are in order. -/
theorem bankOk_putTiles {c : Cfg} {bank tiles : List Tile} (h : BankOk c bank) (hl : tiles.length ≤ c.maxLimbs)
    (ht : ∀ t ∈ tiles, Memory.wf t ∧ Memory.Below c.ringDim t) : BankOk c (putTiles bank tiles) where
  slots := by rw [length_putTiles (by rw [h.slots]; exact hl), h.slots]
  canonical := fun t hm => (mem_putTiles hm).elim (fun hm => (ht t hm).1) (h.canonical t)
  inTile := fun t hm => (mem_putTiles hm).elim (fun hm => (ht t hm).2) (h.inTile t)

theorem bankOk_unwritten (c : Cfg) : BankOk c (unwrittenBank c) where
  slots := by simp [unwrittenBank]
  canonical := fun t ht => by rw [(List.mem_replicate.1 ht).2]; exact List.Pairwise.nil
  inTile := fun t ht => by rw [(List.mem_replicate.1 ht).2]; intro c hc; simp at hc

/-- An entry of a list, found by its position. -/
theorem exists_getD_of_mem {α : Type} {xs : List α} {a : α} (h : a ∈ xs) (d : α) : ∃ x < xs.length, xs.getD x d = a := by
  obtain ⟨x, hx, rfl⟩ := List.getElem_of_mem h
  exact ⟨x, hx, by rw [List.getD_eq_getElem?_getD, List.getElem?_eq_getElem hx]; rfl⟩

theorem bankOk_load {s : State} {base n : Nat} {bank bank' : List Tile} (h : load s base bank n = .ok bank')
    (hn : n ≤ s.cfg.maxLimbs) (hb : BankOk s.cfg bank) : BankOk s.cfg bank' := by
  obtain ⟨tiles, hl, rfl, ht⟩ := load_eq_ok h
  refine bankOk_putTiles hb (by omega) fun t hm => ?_
  obtain ⟨l, hln, rfl⟩ := exists_getD_of_mem hm []
  obtain ⟨h1, h2, -⟩ := ht l (by omega)
  exact ⟨h1, h2⟩

/-- A compute phase whose tiles are each in order leaves a bank in order. -/
theorem bankOk_compute {c : Cfg} {n : Nat} {bank tiles : List Tile} {f : Nat → Res Tile}
    (h : gather n f = .ok tiles) (hn : n ≤ c.maxLimbs) (hb : BankOk c bank)
    (hf : ∀ l t, f l = .ok t → Memory.wf t ∧ Memory.Below c.ringDim t) : BankOk c (putTiles bank tiles) := by
  obtain ⟨hl, hx⟩ := gather_eq_ok h
  refine bankOk_putTiles hb (by omega) fun t hm => ?_
  obtain ⟨l, hln, rfl⟩ := exists_getD_of_mem hm []
  exact hf l _ (hx l (by omega) [])

/-- R170: what phase 4 of ADD, SUB and MUL changes. -/
theorem runElementwise_eq_ok {op : Nat → Nat → Nat → Nat} {n src1 src2 dst : Nat} {s t : State}
    (h : runElementwise op n src1 src2 dst s = .ok t) :
    ∃ ta tb ws, t = { s with ta := ta, tb := tb, ext := s.ext.writeWords dst ws } ∧ ws.length = n * s.cfg.ringDim ∧
      (ws = [] ∨ dst + ws.length ≤ s.cfg.extWords) ∧
      (n ≤ s.cfg.maxLimbs → BankOk s.cfg s.ta → BankOk s.cfg s.tb → BankOk s.cfg ta ∧ BankOk s.cfg tb) := by
  obtain ⟨ta, hta, h⟩ := bind_eq_ok.1 h
  obtain ⟨tb, htb, h⟩ := bind_eq_ok.1 h
  obtain ⟨tiles, ht, h⟩ := bind_eq_ok.1 h
  obtain ⟨ws, hl, -, hb, rfl⟩ := store_eq_ok h
  refine ⟨_, _, ws, rfl, hl, hb, fun hn ha hb => ⟨?_, bankOk_load htb hn hb⟩⟩
  refine bankOk_compute ht hn (bankOk_load hta hn ha) fun l t hf => ?_
  obtain ⟨xs, -, hf⟩ := bind_eq_ok.1 hf
  obtain ⟨ys, -, hf⟩ := bind_eq_ok.1 hf
  cases hf
  exact ⟨tileOf_wf _, tileOf_below (by simp)⟩

/-- R190: a permuted tile is in order. -/
theorem permuteTile_eq_ok {c : Cfg} {dest : Nat → Nat} {val : Nat → Nat → Nat} {t u : Tile}
    (h : permuteTile c dest val t = .ok u) (hd : ∀ x < c.ringDim, dest x < c.ringDim) :
    Memory.wf u ∧ Memory.Below c.ringDim u := by
  obtain ⟨xs, -, h⟩ := bind_eq_ok.1 h
  cases h
  exact ⟨Memory.scatter_wf List.Pairwise.nil _ _ _, Memory.scatter_below (fun _ hc => by simp at hc) hd⟩

/-- R200 to R202: what phase 4 of AUTO, ILV_R and ILV_L changes. -/
theorem runPermutation_eq_ok {unit : Nat → Tile → Res Tile} {n src dst : Nat} {s t : State}
    (h : runPermutation unit n src dst s = .ok t) :
    ∃ ta tc ws, t = { s with ta := ta, tc := tc, ext := s.ext.writeWords dst ws } ∧ ws.length = n * s.cfg.ringDim ∧
      (ws = [] ∨ dst + ws.length ≤ s.cfg.extWords) ∧
      (n ≤ s.cfg.maxLimbs → BankOk s.cfg s.ta → BankOk s.cfg s.tc →
        (∀ l t u, unit l t = .ok u → Memory.wf u ∧ Memory.Below s.cfg.ringDim u) →
        BankOk s.cfg ta ∧ BankOk s.cfg tc) := by
  obtain ⟨ta, hta, h⟩ := bind_eq_ok.1 h
  obtain ⟨tiles, ht, h⟩ := bind_eq_ok.1 h
  obtain ⟨ws, hl, -, hb, rfl⟩ := store_eq_ok h
  exact ⟨_, _, ws, rfl, hl, hb, fun hn ha hc hu => ⟨bankOk_load hta hn ha,
    bankOk_compute ht hn hc fun l t hf => hu _ _ _ hf⟩⟩

@[simp] theorem length_fourStep (c : Cfg) (p : LimbMod) (tw : Nat → Nat) (xs : List Nat) :
    (fourStep c p tw xs).length = c.ringDim := by simp [fourStep, transpose]

@[simp] theorem length_transform (c : Cfg) (forward : Bool) (p : LimbMod) (table xs : List Nat) :
    (transform c forward p table xs).length = c.ringDim := by
  unfold transform
  cases c.nttConvention <;> cases forward <;> simp [nttRef, inttRef, twist, opaqueTile]

/-- R240, R241: what phase 4 of NTT and INTT changes. -/
theorem runTransform_eq_ok {forward : Bool} {ps : List LimbMod} {tables : List (List Nat)} {n src dst : Nat}
    {s t : State} (h : runTransform forward ps tables n src dst s = .ok t) :
    ∃ ta ws, t = { s with ta := ta, ext := s.ext.writeWords dst ws } ∧ ws.length = n * s.cfg.ringDim ∧
      (ws = [] ∨ dst + ws.length ≤ s.cfg.extWords) ∧
      (n ≤ s.cfg.maxLimbs → BankOk s.cfg s.ta → BankOk s.cfg ta) := by
  obtain ⟨ta, hta, h⟩ := bind_eq_ok.1 h
  obtain ⟨tiles, ht, h⟩ := bind_eq_ok.1 h
  obtain ⟨ws, hl, -, hb, rfl⟩ := store_eq_ok h
  refine ⟨_, ws, rfl, hl, hb, fun hn ha => bankOk_compute ht hn (bankOk_load hta hn ha) fun l t hf => ?_⟩
  obtain ⟨xs, -, hf⟩ := bind_eq_ok.1 hf
  cases hf
  exact ⟨tileOf_wf _, tileOf_below (by simp)⟩

/-! The systolic engine. -/

theorem configure_eq_ok {src2 modb : Nat} {s t : State} (h : configure src2 modb s = .ok t) :
    ∃ pea, t = { s with pea := pea, captured := List.replicate s.cfg.sizeP 0, draws := s.draws + 1 } ∧
      PeaOk s.cfg pea := by
  obtain ⟨pea, hp, h⟩ := bind_eq_ok.1 h
  cases h
  obtain ⟨hl, hx⟩ := gather_eq_ok hp
  refine ⟨pea, rfl, hl, fun row hr => ?_, fun row hr pe hpe => ?_⟩
  · obtain ⟨k, hk, rfl⟩ := exists_getD_of_mem hr []
    exact (gather_eq_ok (hx k (by omega) [])).1
  · obtain ⟨k, hk, rfl⟩ := exists_getD_of_mem hr []
    obtain ⟨hrl, hrx⟩ := gather_eq_ok (hx k (by omega) [])
    obtain ⟨c, hc, rfl⟩ := exists_getD_of_mem hpe ⟨0, 0, 0, 0⟩
    obtain ⟨w, -, hf⟩ := bind_eq_ok.1 (hrx c (by omega) ⟨0, 0, 0, 0⟩)
    obtain ⟨m, -, hf⟩ := bind_eq_ok.1 hf
    rw [← Except.ok.inj hf]
    exact Nat.mod_lt _ (Nat.two_pow_pos _)

/-- R298: what the collector of one column can do in a cycle: write one output word and count it, or nothing. -/
theorem collectColumn_eq_ok {dst t c : Nat} {s u : State} (h : collectColumn dst t c s = .ok u) :
    u = s ∨ (s.cfg.sizeQ + c ≤ t ∧ t - s.cfg.sizeQ - c < s.cfg.ringDim ∧
      dst + (t - s.cfg.sizeQ - c) * s.cfg.sizeP + c < s.cfg.extWords ∧
      u = { s with
        ext := s.ext.write (dst + (t - s.cfg.sizeQ - c) * s.cfg.sizeP + c)
          (BitVec.ofNat 64 ((peAt s.pea (s.cfg.sizeQ - 1) c).sr % (peAt s.pea (s.cfg.sizeQ - 1) c).md.toNat))
        captured := s.captured.set c (s.captured.getD c 0 + 1) }) := by
  unfold collectColumn at h
  split_ifs at h with hc
  · obtain ⟨s', hs, h⟩ := bind_eq_ok.1 h
    obtain ⟨hin, rfl⟩ := coreWrite_eq_ok.1 hs
    cases h
    exact .inr ⟨hc.1, hc.2, hin, rfl⟩
  · cases h; exact .inl rfl

/-- R298, R299: what the collectors change in a cycle: EXT inside the output range, and their counts. -/
theorem collect_eq_ok {dst t n : Nat} {s u : State} (h : collect dst t n s = .ok u) :
    ∃ ext captured, u = { s with ext := ext, captured := captured } ∧ captured.length = s.captured.length ∧
      (s.ext.wf → ext.wf) ∧ (s.ext.Below s.cfg.extWords → ext.Below s.cfg.extWords) ∧
      (n ≤ s.cfg.sizeP → ∀ a, ¬ (dst ≤ a ∧ a < dst + s.cfg.ringDim * s.cfg.sizeP) → ext.read a = s.ext.read a) := by
  induction n generalizing u with
  | zero => cases h; exact ⟨_, _, rfl, rfl, id, id, fun _ _ _ => rfl⟩
  | succ n ih =>
    obtain ⟨s', hs, h⟩ := bind_eq_ok.1 h
    obtain ⟨ext, cap, rfl, hl, hw, hb, hr⟩ := ih hs
    rcases collectColumn_eq_ok h with rfl | ⟨h1, h2, hin, rfl⟩
    · exact ⟨ext, cap, rfl, hl, hw, hb, fun hn => hr (by omega)⟩
    · refine ⟨_, _, rfl, by simpa using hl, fun h => Memory.write_wf (hw h) _ _,
        fun h => Memory.write_below (hb h) hin _, fun hn a ha => ?_⟩
      rw [Memory.read_write_other _ _ fun e => ha ?_, hr (by omega) a ha]
      subst e
      have h3 : (t - s.cfg.sizeQ - n + 1) * s.cfg.sizeP ≤ s.cfg.ringDim * s.cfg.sizeP := Nat.mul_le_mul_right _ h2
      rw [Nat.add_mul] at h3
      simp only
      omega

/-- R294: what the cells change in a cycle: the array alone. -/
theorem stepCells_eq (feeds : List Word) (s : State) :
    ∃ pea, stepCells feeds s = { s with pea := pea } ∧ PeaOk s.cfg pea ∧
      ∀ k < s.cfg.sizeQ, ∀ c < s.cfg.sizeP, peAt pea k c = { peAt s.pea k c with
        xr := if c = 0 then feeds.getD k 0 else (peAt s.pea k (c - 1)).xr
        sr := wrap s.cfg.accWidth ((if k = 0 then 0 else (peAt s.pea (k - 1) c).sr) +
          (if c = 0 then feeds.getD k 0 else (peAt s.pea k (c - 1)).xr).toNat * (peAt s.pea k c).wt.toNat) } := by
  refine ⟨_, rfl, ⟨by simp, fun row hr => ?_, fun row hr pe hpe => ?_⟩, fun k hk c hc => ?_⟩
  · obtain ⟨k, hk, rfl⟩ := mem_tab.1 hr
    simp
  · obtain ⟨k, hk, rfl⟩ := mem_tab.1 hr
    obtain ⟨c, hc, rfl⟩ := mem_tab.1 hpe
    exact Nat.mod_lt _ (Nat.two_pow_pos _)
  · rw [peAt, getD_tab_of_lt _ _ hk, getD_tab_of_lt _ _ hc]

/-- R305: what one cycle changes. -/
theorem bconvCycle_eq_ok {src1 dst t : Nat} {s u : State} (h : bconvCycle src1 dst t s = .ok u) :
    ∃ ext captured pea, u = { s with ext := ext, captured := captured, pea := pea, cyc := t } ∧
      captured.length = s.captured.length ∧ PeaOk s.cfg pea ∧
      (s.ext.wf → ext.wf) ∧ (s.ext.Below s.cfg.extWords → ext.Below s.cfg.extWords) ∧
      ∀ a, ¬ (dst ≤ a ∧ a < dst + s.cfg.ringDim * s.cfg.sizeP) → ext.read a = s.ext.read a := by
  obtain ⟨s', hs, h⟩ := bind_eq_ok.1 h
  obtain ⟨feeds, -, h⟩ := bind_eq_ok.1 h
  obtain ⟨ext, cap, rfl, hl, hw, hb, hr⟩ := collect_eq_ok hs
  obtain ⟨pea, he, hp, -⟩ := stepCells_eq feeds { s with ext := ext, captured := cap, cyc := t }
  cases h
  exact ⟨ext, cap, pea, he, hl, hp, hw, hb, hr (by simp)⟩

/-- R305: what a run of cycles changes, and where `CYC` ends. -/
theorem bconvCycles_eq_ok {src1 dst m t : Nat} {s u : State} (h : bconvCycles src1 dst m t s = .ok u) :
    ∃ ext captured pea cyc, u = { s with ext := ext, captured := captured, pea := pea, cyc := cyc } ∧
      cyc = (if m = 0 then s.cyc else t + m - 1) ∧
      captured.length = s.captured.length ∧ (PeaOk s.cfg s.pea → PeaOk s.cfg pea) ∧
      (s.ext.wf → ext.wf) ∧ (s.ext.Below s.cfg.extWords → ext.Below s.cfg.extWords) ∧
      ∀ a, ¬ (dst ≤ a ∧ a < dst + s.cfg.ringDim * s.cfg.sizeP) → ext.read a = s.ext.read a := by
  induction m generalizing t s with
  | zero => cases h; exact ⟨_, _, _, _, rfl, rfl, rfl, id, id, id, fun _ _ => rfl⟩
  | succ m ih =>
    obtain ⟨s', hs, h⟩ := bind_eq_ok.1 h
    obtain ⟨ext, cap, pea, rfl, hl, hp, hw, hb, hr⟩ := bconvCycle_eq_ok hs
    obtain ⟨ext', cap', pea', cyc', rfl, hc', hl', hp', hw', hb', hr'⟩ := ih h
    refine ⟨ext', cap', pea', cyc', rfl, ?_, hl'.trans hl, fun _ => hp' hp, fun h => hw' (hw h), fun h => hb' (hb h),
      fun a ha => (hr' a ha).trans (hr a ha)⟩
    rw [hc', if_neg (Nat.succ_ne_zero m)]
    split_ifs
    · change t = _; omega
    · omega

end Sys2Proof.Machine
end

