-- ==== Sys2Proof/Laws/Determinism.lean ====
section
/-! SUPPORT. What an invocation reads of the state it starts in (R338): the configuration and EXT. Each shared operation
agrees on two states that agree on both, whatever else they hold. -/

namespace Sys2Proof.Machine

/-- Two states with one configuration and one EXT. -/
structure SameInputs (s t : State) : Prop where
  cfg : t.cfg = s.cfg
  ext : t.ext = s.ext

/-- Two results that end alike: both go on, with related values, or both stop for one reason. -/
def Alike {α : Type} (R : α → α → Prop) : Res α → Res α → Prop
  | .ok a, .ok b => R a b
  | .error e, .error e' => e = e'
  | .ok _, .error _ => False
  | .error _, .ok _ => False

/-- A sequence with one first part ends alike if its second parts do. -/
theorem Alike.bind_eq {α β : Type} {R : β → β → Prop} {x y : Res α} {f g : α → Res β} (h : y = x)
    (hf : ∀ a, Alike R (f a) (g a)) : Alike R (x >>= f) (y >>= g) := by
  subst h
  cases y with
  | ok a => exact hf a
  | error e => exact rfl

/-- A sequence ends alike if both parts do. -/
theorem Alike.bind {α β : Type} {Q : α → α → Prop} {R : β → β → Prop} {x y : Res α} {f g : α → Res β}
    (h : Alike Q x y) (hf : ∀ a b, Q a b → Alike R (f a) (g b)) : Alike R (x >>= f) (y >>= g) := by
  cases x with
  | ok a =>
    cases y with
    | ok b => exact hf a b h
    | error e => exact h.elim
  | error e =>
    cases y with
    | ok b => exact h.elim
    | error e' => exact h

/-- R17: loops whose iterations end alike end alike, and their values are related one by one. -/
theorem gather_alike {α : Type} {R : α → α → Prop} {n : Nat} {f g : Nat → Res α}
    (h : ∀ x < n, Alike R (f x) (g x)) :
    Alike (fun as bs => ∀ d, ∀ x < n, R (as.getD x d) (bs.getD x d)) (gather n f) (gather n g) := by
  induction n generalizing f g with
  | zero => exact fun _ x hx => absurd hx (Nat.not_lt_zero x)
  | succ n ih =>
    refine Alike.bind (h 0 (Nat.succ_pos n)) fun a b hab => Alike.bind (ih fun x hx => h (x + 1) (by omega)) ?_
    intro as bs hs d x hx
    cases x with
    | zero => exact hab
    | succ x => exact hs d x (by omega)

variable {s t : State}

theorem coreRead_same (h : SameInputs s t) : coreRead t = coreRead s := funext fun a => coreRead_congr h.cfg h.ext a

theorem modularBoundary_same (h : SameInputs s t) (i : Instr) (n moff modb : Nat) :
    modularBoundary t i n moff modb = modularBoundary s i n moff modb := by
  simp only [modularBoundary, checkLimbs, checkModIndex, checkRange, readModuli, coreRead_same h, h.cfg]

theorem operandsBelow_same (h : SameInputs s t) (base n : Nat) (qs : List Nat) :
    operandsBelow t base n qs = operandsBelow s base n qs := by simp only [operandsBelow, coreRead_same h, h.cfg]

theorem readBarrett_same (h : SameInputs s t) (khb mb moff n : Nat) (qs : List Nat) :
    readBarrett t khb mb moff n qs = readBarrett s khb mb moff n qs := by simp only [readBarrett, coreRead_same h]

theorem readTable_same (h : SameInputs s t) (base q : Nat) : readTable t base q = readTable s base q := by
  unfold readTable; rw [h.cfg, coreRead_same h]

theorem checkWritten_same (h : SameInputs s t) (i : Instr) : checkWritten t i = checkWritten s i := by
  simp only [checkWritten, h.cfg, h.ext]

theorem load_same (h : SameInputs s t) (base : Nat) (bank : List Tile) (n : Nat) :
    load t base bank n = load s base bank n := by
  have : loadTile t base = loadTile s base := by funext l; simp only [loadTile, coreRead_same h, h.cfg]
  simp only [load, this]

theorem feed_same (h : SameInputs s t) (src1 k cycle : Nat) : feed src1 k cycle t = feed src1 k cycle s := by
  simp only [feed, coreRead_same h, h.cfg]

theorem exactSum_same (h : SameInputs s t) (src1 src2 r col : Nat) :
    exactSum t src1 src2 r col = exactSum s src1 src2 r col := by simp only [exactSum, coreRead_same h, h.cfg]

theorem beginKernel_same (h : SameInputs s t) : SameInputs (beginKernel s) (beginKernel t) := ⟨h.cfg, h.ext⟩

theorem coreWriteWords_same (h : SameInputs s t) (base : Nat) (ws : List Word) :
    Alike SameInputs (coreWriteWords s base ws) (coreWriteWords t base ws) := by
  induction ws generalizing s t base with
  | nil => exact h
  | cons w ws ih =>
    simp only [coreWriteWords, coreWrite, h.cfg]
    split_ifs
    · simp only [ok_bind]
      apply ih
      exact ⟨rfl, by simp only [h.ext]⟩
    · exact rfl

theorem store_same (h : SameInputs s t) (base : Nat) (bank : List Tile) (n : Nat) :
    Alike SameInputs (store s base bank n) (store t base bank n) :=
  Alike.bind_eq (by rw [h.cfg]) fun ws => coreWriteWords_same h base ws

/-- R170: phase 4 of ADD, SUB and MUL. -/
theorem runElementwise_same (h : SameInputs s t) (op : Nat → Nat → Nat → Nat) (n src1 src2 dst : Nat) :
    Alike SameInputs (runElementwise op n src1 src2 dst (beginKernel s))
      (runElementwise op n src1 src2 dst (beginKernel t)) := by
  have hb := beginKernel_same h
  refine Alike.bind_eq (by rw [load_same hb]; simp only [beginKernel, h.cfg]) fun ta =>
    Alike.bind_eq (by rw [load_same hb]; simp only [beginKernel, h.cfg]) fun tb =>
    Alike.bind_eq (by rw [hb.cfg]) fun tiles => ?_
  apply store_same
  exact ⟨h.cfg, h.ext⟩

/-- R240, R241: phase 4 of NTT and INTT. -/
theorem runTransform_same (h : SameInputs s t) (forward : Bool) (ps : List LimbMod) (tables : List (List Nat))
    (n src dst : Nat) :
    Alike SameInputs (runTransform forward ps tables n src dst (beginKernel s))
      (runTransform forward ps tables n src dst (beginKernel t)) := by
  have hb := beginKernel_same h
  refine Alike.bind_eq (by rw [load_same hb]; simp only [beginKernel, h.cfg]) fun ta =>
    Alike.bind_eq (by rw [hb.cfg]) fun tiles => ?_
  apply store_same
  exact ⟨h.cfg, h.ext⟩

/-- R200 to R202: phase 4 of AUTO, ILV_R and ILV_L. -/
theorem runPermutation_same (h : SameInputs s t) (unit : Nat → Tile → Res Tile) (n src dst : Nat) :
    Alike SameInputs (runPermutation unit n src dst (beginKernel s)) (runPermutation unit n src dst (beginKernel t)) := by
  refine Alike.bind_eq (by rw [load_same (beginKernel_same h)]; simp only [beginKernel, h.cfg]) fun ta =>
    Alike.bind_eq rfl fun tiles => ?_
  simp only [beginKernel, h.cfg]
  apply store_same
  exact ⟨rfl, h.ext⟩

end Sys2Proof.Machine
end

