-- ==== Sys2Proof/Laws/Step.lean ====
section
/-! SUPPORT. Who moves in a step, and what the step then does. -/

namespace Sys2Proof.Machine

/-- `BUSY` is a bit of `STATUS` alone. -/
theorem busy_congr {s t : State} (h : t.status = s.status) : t.busy = s.busy := by rw [State.busy, State.busy, h]

/-- `DONE` is a bit of `STATUS` alone. -/
theorem done_congr {s t : State} (h : t.status = s.status) : t.done = s.done := by rw [State.done, State.done, h]

theorem step_invalid {s : State} (h : ¬ s.cfg.Valid) : step s = .refused .invalidConfig := by
  rw [step, guardedTurn, if_pos h]

theorem step_refused {s : State} (h : s.cfg.Valid) (hr : s.refused = true) : step s = .refused .alreadyRefused := by
  rw [step, guardedTurn, if_neg (not_not.2 h), if_pos hr]

theorem step_going {s : State} (h : Going s) : step s = oneTurn s := by
  rw [step, guardedTurn, if_neg (not_not.2 h.1), if_neg (by simp [h.2])]

/-- A step that goes on is taken from a state a step can be taken from. -/
theorem step_eq_next {s t : State} (h : step s = .next t) : Going s ∧ oneTurn s = .next t := by
  by_cases hv : s.cfg.Valid
  · cases hr : s.refused
    · exact ⟨⟨hv, hr⟩, by rwa [step_going ⟨hv, hr⟩] at h⟩
    · rw [step_refused hv hr] at h; cases h
  · rw [step_invalid hv] at h; cases h

/-- R339: the core's turn. -/
theorem step_core {s : State} (h : Going s) (hc : CoreNext s) :
    step s = runSnapshot { s with turns := s.turns.tail } := by
  rw [step_going h, oneTurn, if_pos hc.1]
  obtain ⟨-, ht⟩ := hc
  cases hs : s.turns with
  | nil =>
    simp only [List.tail_nil]
    rw [← hs]
  | cons a rest =>
    rcases ht with ht | ht
    · rw [hs] at ht; cases ht
    · rw [hs] at ht; cases ht; rfl

/-- R339: the host's turn. -/
theorem step_host {s : State} {ts : List Agent} (h : Going s) (hn : HostNext s ts) :
    step s = hostTurn { s with turns := ts } := by
  rw [step_going h, oneTurn]
  rcases hn with ⟨hb, rfl⟩ | ⟨hb, ht⟩
  · rw [if_neg (by simp [hb])]
  · rw [if_pos hb, ht]

/-- One of the two agents moves. -/
theorem core_or_host (s : State) : CoreNext s ∨ ∃ ts, HostNext s ts := by
  cases hb : s.busy
  · exact .inr ⟨_, .inl ⟨hb, rfl⟩⟩
  · cases ht : s.turns with
    | nil => exact .inl ⟨hb, .inl ht⟩
    | cons a rest =>
      cases a with
      | core => exact .inl ⟨hb, .inr (by rw [ht]; rfl)⟩
      | host => exact .inr ⟨rest, .inr ⟨hb, ht⟩⟩

theorem runSnapshot_instr {s : State} {i : Instr} (h : decode s.cfg.extPermOps s.snap = .instr i) :
    runSnapshot s = exec i s := by rw [runSnapshot, h]

theorem runSnapshot_reject {s : State} {code : ErrCode} (h : decode s.cfg.extPermOps s.snap = .reject code) :
    runSnapshot s = .next (raiseConfigError code s) := by rw [runSnapshot, h]

/-- The core's turn runs an instruction or rejects the snapshot. -/
theorem runSnapshot_eq_next {s t : State} (h : runSnapshot s = .next t) :
    (∃ i, decode s.cfg.extPermOps s.snap = .instr i ∧ exec i s = .next t) ∨
      ∃ code, t = raiseConfigError code s := by
  cases hd : decode s.cfg.extPermOps s.snap with
  | instr i => exact .inl ⟨i, rfl, by rwa [runSnapshot_instr hd] at h⟩
  | reject code => rw [runSnapshot_reject hd] at h; cases h; exact .inr ⟨code, rfl⟩

theorem step_core_instr {s : State} {i : Instr} (h : Going s) (hc : CoreNext s)
    (hd : decode s.cfg.extPermOps s.snap = .instr i) : step s = exec i { s with turns := s.turns.tail } :=
  (step_core h hc).trans (runSnapshot_instr hd)

theorem step_core_reject {s : State} {code : ErrCode} (h : Going s) (hc : CoreNext s)
    (hd : decode s.cfg.extPermOps s.snap = .reject code) :
    step s = .next (raiseConfigError code { s with turns := s.turns.tail }) :=
  (step_core h hc).trans (runSnapshot_reject hd)

/-! The host's accesses. -/

theorem hostTurn_nil {s : State} (h : s.host = []) : hostTurn s = .next s := by rw [hostTurn, h]

theorem hostTurn_cons {s : State} {a : HostAction} {rest : List HostAction} (h : s.host = a :: rest) :
    hostTurn s = hostAct a { s with host := rest } := by rw [hostTurn, h]

theorem step_host_nil {s : State} {ts : List Agent} (h : Going s) (hn : HostNext s ts) (hs : s.host = []) :
    step s = .next { s with turns := ts } := (step_host h hn).trans (hostTurn_nil hs)

theorem step_host_cons {s : State} {ts : List Agent} {a : HostAction} {rest : List HostAction} (h : Going s)
    (hn : HostNext s ts) (hs : s.host = a :: rest) : step s = hostAct a { s with host := rest, turns := ts } :=
  (step_host h hn).trans (hostTurn_cons hs)

theorem ctlWrite_busy {s : State} (h : s.busy = true) (r : Nat) (v : Word) : ctlWrite r v s = .refused .hostBusy := by
  rw [ctlWrite, if_pos h]

theorem ctlWrite_desc {s : State} (h : s.busy = false) {r : Nat} (hr : r ≤ 8) (v : Word) :
    ctlWrite r v s = .next { s with desc := setDescReg s.desc r v } := by
  rw [ctlWrite, if_neg (by simp [h]), if_pos hr]

theorem ctlWrite_ctrl {s : State} (h : s.busy = false) (v : Word) : ctlWrite 9 v s = goWrite v s := by
  rw [ctlWrite, if_neg (by simp [h]), if_neg (by omega), if_pos rfl]

theorem ctlRead_desc {s : State} {r : Nat} (hr : r ≤ 8) {v : Word} (h : descReg s.desc r = some (some v)) :
    ctlRead r s = .next { s with replies := v :: s.replies } := by
  rw [ctlRead, if_pos hr, h]; rfl

theorem ctlRead_unwritten {s : State} {r : Nat} (hr : r ≤ 8) (h : descReg s.desc r = some none) :
    ctlRead r s = .refused .unwrittenRead := by
  rw [ctlRead, if_pos hr, h]

@[simp] theorem ctlRead_ctrl (s : State) : ctlRead 9 s = .next { s with replies := 0 :: s.replies } := rfl

@[simp] theorem ctlRead_status (s : State) : ctlRead 10 s = .next { s with replies := s.status :: s.replies } := rfl

theorem goWrite_clear {v : Word} (h : v.getLsbD 0 = false) (s : State) : goWrite v s = .next s := by
  rw [goWrite, if_neg (by rw [h]; exact Bool.false_ne_true)]

/-- R331. -/
theorem goWrite_accepted {v : Word} (h : v.getLsbD 0 = true) {s : State} {d : Desc Word} (hd : s.desc = writtenRegs d) :
    goWrite v s = .next (acceptGo d s) := by
  rw [goWrite, if_pos h, hd, writtenDesc_writtenRegs]

theorem goWrite_unwritten {v : Word} (h : v.getLsbD 0 = true) {s : State} (hd : ∀ d, s.desc ≠ writtenRegs d) :
    goWrite v s = .refused .unwrittenRead := by
  rw [goWrite, if_pos h]
  cases hw : writtenDesc s.desc with
  | none => rfl
  | some d => exact absurd (writtenDesc_eq_some hw) (hd d)

theorem hostMemWrite_ok {s : State} (h : s.busy = false) {a : Nat} (ha : a < s.cfg.extWords) (v : Word) :
    hostMemWrite a v s = .next { s with ext := s.ext.write a v } := by rw [hostMemWrite, if_pos ⟨h, ha⟩]

/-- R340, R74: a read of any word of EXT while idle goes on, and returns it. -/
theorem hostMemRead_ok {s : State} (h : s.busy = false) {a : Nat} (ha : a < s.cfg.extWords) :
    hostMemRead a s = .next { s with replies := extWord s.ext a :: s.replies } := by
  rw [hostMemRead, if_pos ⟨h, ha⟩]; rfl

end Sys2Proof.Machine
end

