-- ==== Sys2Proof/Laws/Footprint.lean ====
section
/-! SUPPORT. Everything an invocation can change, said once for all kernels. -/

namespace Sys2Proof.Machine

/-- What phases 1 to 4 of an invocation of `i` started in `s` leave in `t`, if they go on. -/
structure Footprint (i : Instr) (s t : State) : Prop where
  control : SameControl s t
  status : t.status = s.status
  outside : SameOutside s t (writeSpan s.cfg i)
  array : i.limbs ≠ none → t.pea = s.pea ∧ t.captured = s.captured ∧ t.draws = s.draws ∧ t.cyc = 0
  idleB : i.opcode ≤ 3 ∨ t.tb = unwrittenBank s.cfg
  idleC : 7 ≤ i.opcode ∨ t.tc = unwrittenBank s.cfg
  idleA : i.limbs = none → t.ta = unwrittenBank s.cfg ∧ t.tb = unwrittenBank s.cfg ∧ t.tc = unwrittenBank s.cfg
  canonical : s.ext.wf → t.ext.wf
  inside : s.ext.Below s.cfg.extWords → t.ext.Below s.cfg.extWords
  banks : s.cfg.Valid → BankOk s.cfg t.ta ∧ BankOk s.cfg t.tb ∧ BankOk s.cfg t.tc
  grid : PeaOk s.cfg s.pea → PeaOk s.cfg t.pea
  counts : s.captured.length = s.cfg.sizeP → t.captured.length = s.cfg.sizeP
  cycles : s.cfg.Valid → t.cyc < runLength s.cfg

theorem runLength_pos {c : Cfg} (h : c.Valid) : 0 < runLength c := by
  have h1 : 1 ≤ c.sizeQ := h.2.2.2.2.1
  unfold runLength; omega

/-- The footprint of a tiled kernel, from the banks it used and the words it stored. -/
theorem footprint_tiled {i : Instr} {n dst : Nat} {s : State} {ta tb tc : List Tile} {ws : List Word}
    (hi : i.limbs = some n) (hw : writeSpan s.cfg i = tiledSpan s.cfg dst n) (hl : ws.length = n * s.cfg.ringDim)
    (hin : ws = [] ∨ dst + ws.length ≤ s.cfg.extWords) (hb : i.opcode ≤ 3 ∨ tb = unwrittenBank s.cfg)
    (hc : 7 ≤ i.opcode ∨ tc = unwrittenBank s.cfg)
    (hbanks : s.cfg.Valid → BankOk s.cfg ta ∧ BankOk s.cfg tb ∧ BankOk s.cfg tc) :
    Footprint i s { beginKernel s with ta := ta, tb := tb, tc := tc, ext := s.ext.writeWords dst ws } where
  control := ⟨rfl, rfl, rfl, rfl, rfl, rfl, rfl⟩
  status := rfl
  outside := fun a ha => by
    rw [hw] at ha
    change (Memory.writeWords s.ext dst ws).read a = _
    rw [Memory.read_writeWords, if_neg]
    rw [hl]; exact ha
  array := fun _ => ⟨rfl, rfl, rfl, rfl⟩
  idleB := hb
  idleC := hc
  idleA := fun h => by rw [hi] at h; cases h
  canonical := fun h => Memory.writeWords_wf h _ _
  inside := fun h => Memory.writeWords_below h hin
  banks := hbanks
  grid := id
  counts := id
  cycles := fun h => runLength_pos h

theorem footprint_elementwise {i : Instr} {op : Nat → Nat → Nat → Nat} {n a b d : Nat} {s t : State}
    (hi : i.limbs = some n) (hw : writeSpan s.cfg i = tiledSpan s.cfg d n) (ho : i.opcode ≤ 3)
    (hn : n ≤ s.cfg.maxLimbs) (h : runElementwise op n a b d (beginKernel s) = .ok t) : Footprint i s t := by
  obtain ⟨ta, tb, ws, rfl, hl, hin, hbk⟩ := runElementwise_eq_ok h
  exact footprint_tiled (tc := unwrittenBank s.cfg) hi hw hl hin (.inl ho) (.inr rfl) fun _ =>
    have hb := hbk hn (bankOk_unwritten _) (bankOk_unwritten _)
    ⟨hb.1, hb.2, bankOk_unwritten _⟩

theorem footprint_transform {i : Instr} {forward : Bool} {ps : List LimbMod} {tables : List (List Nat)} {n a d : Nat}
    {s t : State} (hi : i.limbs = some n) (hw : writeSpan s.cfg i = tiledSpan s.cfg d n) (hn : n ≤ s.cfg.maxLimbs)
    (h : runTransform forward ps tables n a d (beginKernel s) = .ok t) : Footprint i s t := by
  obtain ⟨ta, ws, rfl, hl, hin, hbk⟩ := runTransform_eq_ok h
  exact footprint_tiled (tb := unwrittenBank s.cfg) (tc := unwrittenBank s.cfg) hi hw hl hin (.inr rfl) (.inr rfl)
    fun _ => ⟨hbk hn (bankOk_unwritten _), bankOk_unwritten _, bankOk_unwritten _⟩

theorem footprint_permutation {i : Instr} {unit : Nat → Tile → Res Tile} {n a d : Nat} {s t : State}
    (hi : i.limbs = some n) (hw : writeSpan s.cfg i = tiledSpan s.cfg d n) (ho : 7 ≤ i.opcode)
    (hn : n ≤ s.cfg.maxLimbs)
    (hu : s.cfg.Valid → ∀ l t u, unit l t = .ok u → Memory.wf u ∧ Memory.Below s.cfg.ringDim u)
    (h : runPermutation unit n a d (beginKernel s) = .ok t) : Footprint i s t := by
  obtain ⟨ta, tc, ws, rfl, hl, hin, hbk⟩ := runPermutation_eq_ok h
  refine footprint_tiled (tb := unwrittenBank s.cfg) hi hw hl hin (.inr rfl) (.inl ho) fun hv => ?_
  have hb := hbk hn (bankOk_unwritten _) (bankOk_unwritten _) (hu hv)
  exact ⟨hb.1, bankOk_unwritten _, hb.2⟩

theorem ringDim_pos {c : Cfg} (h : c.Valid) : 0 < c.ringDim := by
  rw [h.2.1]; exact Nat.mul_pos h.1.1 h.1.1

/-- R191, R192: Interleave stays inside the tile. -/
theorem interleaveDest_lt {c : Cfg} (h : c.Valid) (right : Bool) {x : Nat} (hx : x < c.ringDim) :
    interleaveDest c.sqrt right x < c.ringDim := by
  have hs : 0 < c.sqrt := h.1.1
  rw [h.2.1] at hx ⊢
  have hi : x / c.sqrt < c.sqrt := Nat.div_lt_of_lt_mul hx
  have hj : ∀ y, y % c.sqrt < c.sqrt := fun y => Nat.mod_lt _ hs
  have hrow : (x / c.sqrt + 1) * c.sqrt ≤ c.sqrt * c.sqrt := Nat.mul_le_mul_right _ hi
  rw [Nat.add_mul] at hrow
  unfold interleaveDest
  cases right
  · have := hj (x % c.sqrt + c.sqrt - x / c.sqrt); simp only [Bool.false_eq_true, if_false]; omega
  · have := hj (x % c.sqrt + x / c.sqrt); simp only [if_true]; omega

theorem autoDest_eq (c : Cfg) (k x : Nat) : autoDest c k x = autoRaw c k x % c.ringDim := Nat.div_add_mod' _ _

/-- R194: Auto stays inside the tile. -/
theorem autoDest_lt {c : Cfg} (h : c.Valid) (k x : Nat) : autoDest c k x < c.ringDim := by
  rw [autoDest_eq]; exact Nat.mod_lt _ (ringDim_pos h)

/-- R305: the footprint of BCONV. -/
theorem footprint_bconv {a b d m : Nat} {s t : State} (h : baseConvert (.bconv a b d m) a b d m s = .ok t) :
    Footprint (.bconv a b d m) s t := by
  obtain ⟨_, -, h⟩ := bind_eq_ok.1 h
  obtain ⟨_, -, h⟩ := bind_eq_ok.1 h
  obtain ⟨_, -, h⟩ := bind_eq_ok.1 h
  obtain ⟨_, -, h⟩ := bind_eq_ok.1 h
  obtain ⟨s', hc, h⟩ := bind_eq_ok.1 h
  obtain ⟨pea, rfl, hp⟩ := configure_eq_ok hc
  obtain ⟨ext, cap, pea', cyc, rfl, hcyc, hl, hp', hw, hb, hr⟩ := bconvCycles_eq_ok h
  exact
    { control := ⟨rfl, rfl, rfl, rfl, rfl, rfl, rfl⟩
      status := rfl
      outside := hr
      array := fun h => absurd rfl h
      idleB := .inr rfl
      idleC := .inr rfl
      idleA := fun _ => ⟨rfl, rfl, rfl⟩
      canonical := hw
      inside := hb
      banks := fun _ => ⟨bankOk_unwritten _, bankOk_unwritten _, bankOk_unwritten _⟩
      grid := fun _ => hp' hp
      counts := fun _ => hl.trans (by simp)
      cycles := fun hv => by
        have h0 : 0 < runLength s.cfg := runLength_pos hv
        change cyc < _
        rw [hcyc, if_neg (by omega)]
        omega }

/-- R79, R402: everything an invocation that goes on to its end changes. -/
theorem footprint {i : Instr} {s t : State} (h : kernel i s = .ok t) : Footprint i s t := by
  have hmod : ∀ {i n off m qs}, modularBoundary s i n off m = .ok qs → n ≤ s.cfg.maxLimbs :=
    fun h => (modularBoundary_eq_ok h).1.1
  cases i with
  | init => cases h
  | add n off a b d m =>
    obtain ⟨qs, hq, h⟩ := bind_eq_ok.1 h
    obtain ⟨_, -, h⟩ := bind_eq_ok.1 h
    obtain ⟨_, -, h⟩ := bind_eq_ok.1 h
    exact footprint_elementwise rfl rfl (by simp [Instr.opcode]) (hmod hq) h
  | sub n off a b d m =>
    obtain ⟨qs, hq, h⟩ := bind_eq_ok.1 h
    obtain ⟨_, -, h⟩ := bind_eq_ok.1 h
    obtain ⟨_, -, h⟩ := bind_eq_ok.1 h
    exact footprint_elementwise rfl rfl (by simp [Instr.opcode]) (hmod hq) h
  | mul n off a b d m kh mu =>
    obtain ⟨qs, hq, h⟩ := bind_eq_ok.1 h
    obtain ⟨_, -, h⟩ := bind_eq_ok.1 h
    obtain ⟨_, -, h⟩ := bind_eq_ok.1 h
    obtain ⟨_, -, h⟩ := bind_eq_ok.1 h
    exact footprint_elementwise rfl rfl (by simp [Instr.opcode]) (hmod hq) h
  | ntt n off a d m kh mu tw =>
    obtain ⟨qs, hq, h⟩ := bind_eq_ok.1 h
    obtain ⟨_, -, h⟩ := bind_eq_ok.1 h
    obtain ⟨_, -, h⟩ := bind_eq_ok.1 h
    obtain ⟨_, -, h⟩ := bind_eq_ok.1 h
    obtain ⟨_, -, h⟩ := bind_eq_ok.1 h
    exact footprint_transform rfl rfl (hmod hq) h
  | intt n off a d m kh mu tw =>
    obtain ⟨qs, hq, h⟩ := bind_eq_ok.1 h
    obtain ⟨_, -, h⟩ := bind_eq_ok.1 h
    obtain ⟨_, -, h⟩ := bind_eq_ok.1 h
    obtain ⟨_, -, h⟩ := bind_eq_ok.1 h
    obtain ⟨_, -, h⟩ := bind_eq_ok.1 h
    exact footprint_transform rfl rfl (hmod hq) h
  | bconv a b d m => exact footprint_bconv h
  | auto n off st a d m =>
    obtain ⟨qs, hq, h⟩ := bind_eq_ok.1 h
    obtain ⟨_, -, h⟩ := bind_eq_ok.1 h
    obtain ⟨_, -, h⟩ := bind_eq_ok.1 h
    exact footprint_permutation rfl rfl (by simp [Instr.opcode]) (hmod hq)
      (fun hv _ _ _ hu => permuteTile_eq_ok hu fun _ _ => autoDest_lt hv _ _) h
  | ilvR n a d =>
    obtain ⟨_, hn, h⟩ := bind_eq_ok.1 h
    obtain ⟨_, -, h⟩ := bind_eq_ok.1 h
    exact footprint_permutation rfl rfl (by simp [Instr.opcode]) (checkLimbs_eq_ok.1 hn)
      (fun hv _ _ _ hu => permuteTile_eq_ok hu fun _ hx => interleaveDest_lt hv true hx) h
  | ilvL n a d =>
    obtain ⟨_, hn, h⟩ := bind_eq_ok.1 h
    obtain ⟨_, -, h⟩ := bind_eq_ok.1 h
    exact footprint_permutation rfl rfl (by simp [Instr.opcode]) (checkLimbs_eq_ok.1 hn)
      (fun hv _ _ _ hu => permuteTile_eq_ok hu fun _ hx => interleaveDest_lt hv false hx) h

/-- R77: an invocation that goes on to its end stays inside EXT. -/
theorem kernel_inRange {i : Instr} {s t : State} (h : kernel i s = .ok t) : InRange s i := by
  cases i with
  | init => cases h
  | add => obtain ⟨qs, hq, -⟩ := bind_eq_ok.1 h; exact (modularBoundary_eq_ok hq).1.2.2
  | sub => obtain ⟨qs, hq, -⟩ := bind_eq_ok.1 h; exact (modularBoundary_eq_ok hq).1.2.2
  | mul => obtain ⟨qs, hq, -⟩ := bind_eq_ok.1 h; exact (modularBoundary_eq_ok hq).1.2.2
  | ntt => obtain ⟨qs, hq, -⟩ := bind_eq_ok.1 h; exact (modularBoundary_eq_ok hq).1.2.2
  | intt => obtain ⟨qs, hq, -⟩ := bind_eq_ok.1 h; exact (modularBoundary_eq_ok hq).1.2.2
  | bconv => obtain ⟨_, hr, -⟩ := bind_eq_ok.1 h; exact checkRange_eq_ok.1 hr
  | auto => obtain ⟨qs, hq, -⟩ := bind_eq_ok.1 h; exact (modularBoundary_eq_ok hq).1.2.2
  | ilvR =>
    obtain ⟨_, -, h⟩ := bind_eq_ok.1 h
    obtain ⟨_, hr, -⟩ := bind_eq_ok.1 h
    exact checkRange_eq_ok.1 hr
  | ilvL =>
    obtain ⟨_, -, h⟩ := bind_eq_ok.1 h
    obtain ⟨_, hr, -⟩ := bind_eq_ok.1 h
    exact checkRange_eq_ok.1 hr

/-- An instruction that answers a next state completed, with its footprint, or was rejected with a code. -/
theorem exec_next {i : Instr} {s t : State} (h : exec i s = .next t) :
    (∃ u, kernel i s = .ok u ∧ Footprint i s u ∧ t = complete u) ∨
      ∃ code, kernel i s = .error (.raise code) ∧ t = raiseConfigError code s := by
  rcases exec_eq_next h with ⟨u, hu, ht⟩ | h
  · exact .inl ⟨u, hu, footprint hu, ht⟩
  · exact .inr h

theorem exec_sameControl {i : Instr} {s t : State} (h : exec i s = .next t) : SameControl s t := by
  rcases exec_next h with ⟨u, -, hf, rfl⟩ | ⟨code, -, rfl⟩
  · exact ⟨hf.control.cfg, hf.control.desc, hf.control.snap, hf.control.refused, hf.control.host, hf.control.turns,
      hf.control.replies⟩
  · exact ⟨rfl, rfl, rfl, rfl, rfl, rfl, rfl⟩

theorem exec_not_busy {i : Instr} {s t : State} (h : exec i s = .next t) : t.busy = false := by
  rcases exec_next h with ⟨u, -, -, rfl⟩ | ⟨code, -, rfl⟩
  · exact busy_complete u
  · exact busy_raiseConfigError code s

/-- R391: the pending writes of a reset lie inside EXT. -/
theorem pendingWrites_inside (s : State) : (pendingWrites s).inside s.cfg.extWords := by
  unfold pendingWrites
  split
  · split
    · rename_i i _
      split
      · rename_i t he
        split
        · rename_i hd
          rcases exec_next he with ⟨u, hk, -, -⟩ | ⟨code, -, rfl⟩
          · exact (kernel_inRange hk).2
          · simp at hd
        · exact .inl rfl
      · exact .inl rfl
    · exact .inl rfl
  · exact .inl rfl

/-! Runs. -/

theorem run_unfold (M : Host.Core) (k : Nat) (s : M.State) :
    M.run (k + 1) s = match M.step s with
      | .next t => M.run k t
      | .fault r => .fault r
      | .refused r => .refused r := by rfl

theorem run_of_next (M : Host.Core) (k : Nat) {s t : M.State} (h : M.step s = .next t) :
    M.run (k + 1) s = M.run k t := by rw [run_unfold, h]

theorem run_of_refused (M : Host.Core) (k : Nat) {s : M.State} {r : M.Refusal} (h : M.step s = .refused r) :
    M.run (k + 1) s = .refused r := by rw [run_unfold, h]

theorem next_of_run_one (M : Host.Core) {s t : M.State} (h : M.run 1 s = .next t) : M.step s = .next t := by
  rw [run_unfold] at h
  cases hs : M.step s with
  | next u => rw [hs] at h; exact h
  | fault r => rw [hs] at h; cases h
  | refused r => rw [hs] at h; cases h

theorem run_succ (k : Nat) {s t : State} (h : step s = .next t) : core.run (k + 1) s = core.run k t :=
  run_of_next core k h

theorem run_one {s t : State} (h : core.run 1 s = .next t) : step s = .next t := next_of_run_one core h

theorem run_two {s t u : State} (h : step s = .next t) (h' : step t = .next u) : core.run 2 s = .next u :=
  (run_of_next core 1 h).trans (run_of_next core 0 h')

theorem run_two_refused {s t : State} {r : Refusal} (h : step s = .next t) (h' : step t = .refused r) :
    core.run 2 s = .refused r := (run_of_next core 1 h).trans (run_of_refused core 0 h')

end Sys2Proof.Machine
end

