-- ==== Sys2Proof/Laws/Operands.lean ====
section
/-! SUPPORT. The access set of an instruction, by the names of its operands, and how its checks end. -/

namespace Sys2Proof

theorem modular_limbs {i : Instr} {n off m : Nat} (h : i.modular = some (n, off, m)) : i.limbs = some n := by
  cases i <;> simp only [Instr.modular, Option.some.injEq, Prod.mk.injEq, reduceCtorEq] at h <;>
    obtain ⟨rfl, rfl, rfl⟩ := h <;> rfl

end Sys2Proof

namespace Sys2Proof.Machine

/-- R109: the access set of an opcode of `MODULAR` holds its moduli, its input limbs and its Barrett tables. -/
theorem modular_spans {c : Cfg} {i : Instr} {n off m : Nat} (h : i.modular = some (n, off, m)) :
    entrySpan m off n ∈ readSpans c i ∧ (∀ a ∈ i.operandBuffers, tiledSpan c a n ∈ readSpans c i) ∧
      ∀ kh mu, i.barrettTables = some (kh, mu) →
        entrySpan kh off n ∈ readSpans c i ∧ entrySpan mu off n ∈ readSpans c i := by
  cases i <;> simp only [Instr.modular, Option.some.injEq, Prod.mk.injEq, reduceCtorEq] at h <;>
    obtain ⟨rfl, rfl, rfl⟩ := h <;>
    simp [readSpans, Instr.operandBuffers, Instr.barrettTables]

/-- The words of the access set are words of EXT. -/
theorem modular_inside {s : State} {i : Instr} {n off m : Nat} (h : i.modular = some (n, off, m)) (hr : InRange s i) :
    (∀ l < n, m + off + l < s.cfg.extWords) ∧
    (∀ a ∈ i.operandBuffers, ∀ l < n, ∀ x < s.cfg.ringDim, tiledAddr s.cfg a l x < s.cfg.extWords) ∧
    ∀ kh mu, i.barrettTables = some (kh, mu) →
      (∀ l < n, kh + off + l < s.cfg.extWords) ∧ ∀ l < n, mu + off + l < s.cfg.extWords := by
  obtain ⟨h1, h2, h3⟩ := modular_spans (c := s.cfg) h
  refine ⟨fun l hl => Span.lt_of_inside (hr.1 _ h1) hl, fun a ha l hl x hx => ?_, fun kh mu hk => ?_⟩
  · have hlt : l * s.cfg.ringDim + x < n * s.cfg.ringDim := by
      have := Nat.mul_le_mul_right s.cfg.ringDim (show l + 1 ≤ n from hl)
      rw [Nat.add_mul] at this
      omega
    have := Span.lt_of_inside (hr.1 _ (h2 a ha)) hlt
    simp only [tiledSpan, tiledAddr] at this ⊢
    omega
  · exact ⟨fun l hl => Span.lt_of_inside (hr.1 _ (h3 kh mu hk).1) hl, fun l hl => Span.lt_of_inside (hr.1 _ (h3 kh mu hk).2) hl⟩

/-- An opcode of `MODULAR` that fails a boundary check ends so. -/
theorem kernel_boundary_error {i : Instr} {s : State} {n off m : Nat} {e : Stop} (hi : i.modular = some (n, off, m))
    (h : modularBoundary s i n off m = .error e) : kernel i s = .error e := by
  cases i <;> simp only [Instr.modular, Option.some.injEq, Prod.mk.injEq, reduceCtorEq] at hi <;>
    obtain ⟨rfl, rfl, rfl⟩ := hi <;>
    (simp only [kernel, addSub, mulLimbs, transformLimbs, autoLimbs, h]; rfl)

/-- R143: limbs inside EXT pass the operand check, or a value out of range fails it. -/
theorem operandsBelow_cases {s : State} {src n base : Nat} {qs : List Nat}
    (hin : ∀ l < n, ∀ x < s.cfg.ringDim, tiledAddr s.cfg src l x < s.cfg.extWords)
    (hq : ∀ l < n, qs.getD l 0 = wordAt s (base + l)) :
    OperandsOk s src n base ∧ operandsBelow s src n qs = .ok () ∨
      ¬ OperandsOk s src n base ∧ operandsBelow s src n qs = .error (.refuse .operandRange) := by
  cases he : operandsBelow s src n qs with
  | ok u =>
    refine .inl ⟨fun l hl x hx => ?_, rfl⟩
    have := operandsBelow_eq_ok he l hl x hx
    rwa [hq l hl] at this
  | error e =>
    refine .inr ⟨fun h => ?_, ?_⟩
    · rw [operandsBelow_ok hin hq h] at he; cases he
    · obtain ⟨l, hl, h⟩ := each_eq_error he
      obtain ⟨x, hx, h⟩ := each_eq_error h
      obtain ⟨w, hr, -⟩ := coreRead_wordAt (hin l hl x hx)
      rw [hr, ok_bind] at h
      rw [(check_eq_error.1 h).2]

/-- R147: Barrett tables inside EXT pass the check, or constants other than those of R144 fail it. -/
theorem readBarrett_cases {s : State} {base khb mb moff n : Nat} {qs : List Nat}
    (hk : ∀ l < n, khb + moff + l < s.cfg.extWords) (hm : ∀ l < n, mb + moff + l < s.cfg.extWords)
    (hq : ∀ l < n, qs.getD l 0 = wordAt s (base + l)) :
    BarrettOk s base (khb + moff) (mb + moff) n ∨
      readBarrett s khb mb moff n qs = .error (.refuse .barrettConstants) := by
  by_cases h : BarrettOk s base (khb + moff) (mb + moff) n
  · exact .inl h
  · right
    cases he : readBarrett s khb mb moff n qs with
    | error e =>
      obtain ⟨l, hl, h⟩ := gather_eq_error he
      obtain ⟨kh, hkr, -⟩ := coreRead_wordAt (hk l hl)
      obtain ⟨mu, hmr, -⟩ := coreRead_wordAt (hm l hl)
      rw [hkr, ok_bind, hmr, ok_bind] at h
      rcases bind_eq_error.1 h with h | ⟨_, -, h⟩
      · rw [(check_eq_error.1 h).2]
      · cases h
    | ok ks =>
      refine absurd (fun l hl => ?_) h
      obtain ⟨kh, hkr, hke⟩ := coreRead_wordAt (hk l hl)
      obtain ⟨mu, hmr, hme⟩ := coreRead_wordAt (hm l hl)
      have hx := (gather_eq_ok he).2 l hl (0, 0)
      rw [hkr, ok_bind, hmr, ok_bind] at hx
      obtain ⟨_, hc, -⟩ := bind_eq_ok.1 hx
      have := check_eq_ok.1 hc
      rw [hq l hl, hke, hme] at this
      exact this

end Sys2Proof.Machine
end

