-- ==== Sys2Proof/Laws/PerInstr.lean ====
section
/-! SUPPORT. Statements about every instruction as syntax, one lemma per constructor. -/

namespace Sys2Proof.Laws.CommandFields

/-- R101: the CMD word of an encoded instruction carries its opcode, and its reserved field is 0. -/
def Statement (i : Instr) : Prop := i.wellFormed = true → (encode i).opc = i.opcode ∧ (encode i).rsv = 0

/-- A CMD word with its fields in range has the opcode and `RSV = 0`. -/
theorem of_cmd {i : Instr} {n m s : Nat} (h : (encode i).cmd = cmdWord i.opcode n m s) (hn : n < 2 ^ 16)
    (hm : m < 2 ^ 16) (hs : s < 2 ^ 16) : (encode i).opc = i.opcode ∧ (encode i).rsv = 0 := by
  obtain ⟨h1, h2, -⟩ := cmdWord_fields (opcode_lt i) hn hm hs
  exact ⟨by rw [Desc.opc, h, h1], by rw [Desc.rsv, h, h2]⟩

theorem init : Statement .init := fun _ => of_cmd rfl (by omega) (by omega) (by omega)

theorem add (n off a b d m : Nat) : Statement (.add n off a b d m) := fun h => by
  simp only [Instr.wellFormed, Bool.and_eq_true, decide_eq_true_eq] at h
  exact of_cmd rfl (by omega) (by omega) (by omega)

theorem sub (n off a b d m : Nat) : Statement (.sub n off a b d m) := fun h => by
  simp only [Instr.wellFormed, Bool.and_eq_true, decide_eq_true_eq] at h
  exact of_cmd rfl (by omega) (by omega) (by omega)

theorem mul (n off a b d m kh mu : Nat) : Statement (.mul n off a b d m kh mu) := fun h => by
  simp only [Instr.wellFormed, Bool.and_eq_true, decide_eq_true_eq] at h
  exact of_cmd rfl (by omega) (by omega) (by omega)

theorem ntt (n off a d m kh mu tw : Nat) : Statement (.ntt n off a d m kh mu tw) := fun h => by
  simp only [Instr.wellFormed, Bool.and_eq_true, decide_eq_true_eq] at h
  exact of_cmd rfl (by omega) (by omega) (by omega)

theorem intt (n off a d m kh mu tw : Nat) : Statement (.intt n off a d m kh mu tw) := fun h => by
  simp only [Instr.wellFormed, Bool.and_eq_true, decide_eq_true_eq] at h
  exact of_cmd rfl (by omega) (by omega) (by omega)

theorem bconv (a b d m : Nat) : Statement (.bconv a b d m) := fun _ => of_cmd rfl (by omega) (by omega) (by omega)

theorem auto (n off st a d m : Nat) : Statement (.auto n off st a d m) := fun h => by
  simp only [Instr.wellFormed, Bool.and_eq_true, decide_eq_true_eq] at h
  exact of_cmd rfl (by omega) (by omega) (by omega)

theorem ilvR (n a d : Nat) : Statement (.ilvR n a d) := fun h => by
  simp only [Instr.wellFormed, Bool.and_eq_true, decide_eq_true_eq] at h
  exact of_cmd rfl (by omega) (by omega) (by omega)

theorem ilvL (n a d : Nat) : Statement (.ilvL n a d) := fun h => by
  simp only [Instr.wellFormed, Bool.and_eq_true, decide_eq_true_eq] at h
  exact of_cmd rfl (by omega) (by omega) (by omega)

end Sys2Proof.Laws.CommandFields
end

