-- ==== Sys2Proof/Laws/Results.lean ====
section
/-! SUPPORT. When phase 4 of each tiled kernel goes on, and the words it stores. -/

namespace Sys2Proof.Machine

/-- The words of `n` tiled limbs, `g l x` at coefficient `x` of limb `l`, in address order. -/
def limbWords (c : Cfg) (n : Nat) (g : Nat → Nat → Word) : List Word :=
  tab (n * c.ringDim) fun y => g (y / c.ringDim) (y % c.ringDim)

@[simp] theorem length_limbWords (c : Cfg) (n : Nat) (g : Nat → Nat → Word) :
    (limbWords c n g).length = n * c.ringDim := by simp [limbWords]

theorem limbWords_congr {c : Cfg} {n : Nat} {g g' : Nat → Nat → Word} (hN : 0 < c.ringDim)
    (h : ∀ l < n, ∀ x < c.ringDim, g l x = g' l x) : limbWords c n g = limbWords c n g' :=
  tab_congr fun _ hy => h _ (Nat.div_lt_of_lt_mul (by rwa [Nat.mul_comm])) _ (Nat.mod_lt _ hN)

/-- A word of the `n` limbs lies before their end. -/
theorem limb_offset_lt {N n l x : Nat} (hl : l < n) (hx : x < N) : l * N + x < n * N := by
  have := Nat.mul_le_mul_right N (show l + 1 ≤ n from hl)
  rw [Nat.add_mul] at this
  omega

/-- R76: what coefficient `x` of limb `l` reads as after the limbs are written. -/
theorem read_limbWords {c : Cfg} {m : Memory} {base n l x : Nat} {g : Nat → Nat → Word} (hl : l < n)
    (hx : x < c.ringDim) : (m.writeWords base (limbWords c n g)).read (base + l * c.ringDim + x) = some (g l x) := by
  have hlt := limb_offset_lt hl hx
  rw [Memory.read_writeWords, length_limbWords, if_pos ⟨by omega, by omega⟩, limbWords, getElem?_tab,
    if_pos (by omega), show base + l * c.ringDim + x - base = x + c.ringDim * l by rw [Nat.mul_comm]; omega,
    Nat.add_mul_div_left _ _ (by omega), Nat.div_eq_of_lt hx, Nat.zero_add, Nat.add_mul_mod_self_left,
    Nat.mod_eq_of_lt hx]

/-- A row and a column of the tile make a coefficient. -/
theorem coeff_lt {c : Cfg} (h : c.Valid) {i j : Nat} (hi : i < c.sqrt) (hj : j < c.sqrt) :
    i * c.sqrt + j < c.ringDim := by rw [h.2.1]; exact limb_offset_lt hi hj

/-- The result of a kernel that stored the words `g l x`, row by row. -/
theorem holds_limbWords {s t : State} {base n l i j : Nat} {g : Nat → Nat → Nat} (hv : s.cfg.Valid)
    (ht : t.ext = s.ext.writeWords base (limbWords s.cfg n fun l x => BitVec.ofNat 64 (g l x))) (hc : t.cfg = s.cfg)
    (hl : l < n) (hi : i < s.cfg.sqrt) (hj : j < s.cfg.sqrt) : Holds t base l i j (g l (i * s.cfg.sqrt + j)) := by
  rw [Holds, ht, hc, Nat.add_assoc, ← Nat.add_assoc, Nat.add_assoc (base + _), read_limbWords hl (coeff_lt hv hi hj)]

/-- The words of the limbs lie inside EXT. -/
abbrev LimbsInside (s : State) (base n : Nat) : Prop :=
  ∀ l < n, ∀ x < s.cfg.ringDim, tiledAddr s.cfg base l x < s.cfg.extWords

theorem limbsInside_of {s : State} {base n : Nat} (hr : (tiledSpan s.cfg base n).inside s.cfg.extWords) :
    LimbsInside s base n := fun l hl x hx => by
  have := limb_offset_lt hl hx
  rcases hr with hr | hr <;> simp only [tiledSpan, tiledAddr] at hr ⊢ <;> omega

/-- R272, R337: a Load of limbs inside EXT goes on; the values of its tiles are the words of EXT. -/
theorem load_inside {s : State} {base n : Nat} (bank : List Tile) (h : LimbsInside s base n) :
    ∃ bank', load s base bank n = .ok bank' ∧ (∀ l, n ≤ l → slot bank' l = slot bank l) ∧ ∀ l < n,
      tileValues s.cfg (slot bank' l) = .ok (tab s.cfg.ringDim fun x => wordAt s (tiledAddr s.cfg base l x)) ∧
      (slot bank' l).wf ∧ (slot bank' l).Below s.cfg.ringDim := by
  have hload := load_ok (bank := bank) h
  refine ⟨_, hload, fun l hl => slot_putTiles_of_le (by simpa using hl), fun l hl => ?_⟩
  rw [slot_putTiles_of_lt (by simpa using hl), getD_tab_of_lt _ _ hl]
  refine ⟨tileValues_ok fun x hx => ?_, Memory.writeWords_wf List.Pairwise.nil _ _,
    Memory.writeWords_below (fun _ hc => by simp at hc) (.inr (by simp))⟩
  rw [read_writeWords_nil, getElem?_tab, if_pos hx]

/-- R273: a Store of tiles whose words are `g l x` writes them, in address order. -/
theorem store_limbs {s : State} {base n : Nat} {bank : List Tile} {g : Nat → Nat → Word}
    (hN : 0 < s.cfg.ringDim) (hin : (tiledSpan s.cfg base n).inside s.cfg.extWords)
    (h : ∀ l < n, ∀ x < s.cfg.ringDim, (slot bank l).read x = some (g l x)) :
    store s base bank n = .ok { s with ext := s.ext.writeWords base (limbWords s.cfg n g) } :=
  store_ok hin fun _ hy => h _ (Nat.div_lt_of_lt_mul (by rwa [Nat.mul_comm])) _ (Nat.mod_lt _ hN)

/-- R170: when phase 4 of ADD, SUB and MUL goes on, and what it stores. -/
theorem runElementwise_ok {op : Nat → Nat → Nat → Nat} {n a b d : Nat} {s : State} (hN : 0 < s.cfg.ringDim)
    (ha : LimbsInside s a n) (hb : LimbsInside s b n) (hd : (tiledSpan s.cfg d n).inside s.cfg.extWords) :
    ∃ ta tb, runElementwise op n a b d s =
      .ok { s with ta := ta, tb := tb, ext := s.ext.writeWords d (limbWords s.cfg n fun l x =>
        BitVec.ofNat 64 (op l (wordAt s (tiledAddr s.cfg a l x)) (wordAt s (tiledAddr s.cfg b l x)))) } := by
  obtain ⟨ta, hta, -, hav⟩ := load_inside s.ta ha
  obtain ⟨tb, htb, -, hbv⟩ := load_inside s.tb hb
  unfold runElementwise
  rw [hta, ok_bind, htb, ok_bind, gather_ok (g := fun l => tileOf (tab s.cfg.ringDim fun x =>
    op l (wordAt s (tiledAddr s.cfg a l x)) (wordAt s (tiledAddr s.cfg b l x)))), ok_bind]
  · refine ⟨_, _, store_limbs hN hd fun l hl x hx => ?_⟩
    rw [slot_putTiles_of_lt (by simpa using hl), getD_tab_of_lt _ _ hl, read_tileOf _ (by simpa using hx),
      getD_tab_of_lt _ _ hx]
  · intro l hl
    rw [(hav l hl).1, ok_bind, (hbv l hl).1, ok_bind]
    exact congrArg (fun v => Except.ok (tileOf v)) (tab_congr fun x hx => by
      rw [getD_tab_of_lt _ _ hx, getD_tab_of_lt _ _ hx])

/-- R240, R241: when phase 4 of NTT and INTT goes on, and what it stores. -/
theorem runTransform_ok {forward : Bool} {ps : List LimbMod} {tables : List (List Nat)} {n a d : Nat} {s : State}
    (hN : 0 < s.cfg.ringDim) (ha : LimbsInside s a n) (hd : (tiledSpan s.cfg d n).inside s.cfg.extWords) :
    ∃ ta, runTransform forward ps tables n a d s =
      .ok { s with ta := ta, ext := s.ext.writeWords d (limbWords s.cfg n fun l x =>
        BitVec.ofNat 64 ((transform s.cfg forward (ps.getD l ⟨0, 0, 0⟩) (tables.getD l [])
          (tab s.cfg.ringDim fun x => wordAt s (tiledAddr s.cfg a l x))).getD x 0)) } := by
  obtain ⟨ta, hta, -, hav⟩ := load_inside s.ta ha
  unfold runTransform
  rw [hta, ok_bind, gather_ok (g := fun l => tileOf (transform s.cfg forward (ps.getD l ⟨0, 0, 0⟩) (tables.getD l [])
    (tab s.cfg.ringDim fun x => wordAt s (tiledAddr s.cfg a l x)))), ok_bind]
  · refine ⟨_, store_limbs hN hd fun l hl x hx => ?_⟩
    rw [slot_putTiles_of_lt (by simpa using hl), getD_tab_of_lt _ _ hl, read_tileOf _ (by simpa using hx)]
  · intro l hl
    rw [(hav l hl).1, ok_bind]

/-- The shape of every tiled result: the invocation completes, and leaves the words `g l x` in the output limbs. -/
theorem tiled_result {i : Instr} {s u : State} {n d : Nat} {g : Nat → Nat → Nat} (hv : s.cfg.Valid)
    (hk : kernel i s = .ok u) (hw : writeSpan s.cfg i = tiledSpan s.cfg d n)
    (he : u.ext = s.ext.writeWords d (limbWords s.cfg n fun l x => BitVec.ofNat 64 (g l x))) :
    ∃ t, exec i s = .next t ∧ t.status = 0x2 ∧ SameControl s t ∧ SameOutside s t (tiledSpan s.cfg d n) ∧
      ∀ l < n, ∀ r < s.cfg.sqrt, ∀ j < s.cfg.sqrt, Holds t d l r j (g l (r * s.cfg.sqrt + j)) := by
  have hx : exec i s = .next (complete u) := by rw [exec_eq_finish, hk]; rfl
  have hf := footprint hk
  exact ⟨_, hx, rfl, exec_sameControl hx, hw ▸ hf.outside, fun l hl r hr j hj =>
    holds_limbWords (t := complete u) hv he hf.control.cfg hl hr hj⟩

/-- R190: a permutation of a full tile goes on. -/
theorem permuteTile_ok {c : Cfg} {dest : Nat → Nat} {val : Nat → Nat → Nat} {t : Tile} {xs : List Nat}
    (h : tileValues c t = .ok xs) :
    permuteTile c dest val t =
      .ok (Memory.scatter dest (fun x => BitVec.ofNat 64 (val x (xs.getD x 0))) c.ringDim []) := by
  rw [permuteTile, h, ok_bind]

/-- R200 to R202: when phase 4 of AUTO, ILV_R and ILV_L goes on, and what it stores: `g l d` at coefficient `d`, if
`back` undoes `dest`. -/
theorem runPermutation_ok {dest back : Nat → Nat} {val : Nat → Nat → Nat → Nat} {n a d : Nat} {s : State}
    (hN : 0 < s.cfg.ringDim) (ha : LimbsInside s a n) (hd : (tiledSpan s.cfg d n).inside s.cfg.extWords)
    (hb : ∀ x < s.cfg.ringDim, back x < s.cfg.ringDim ∧ dest (back x) = x)
    (hi : ∀ x < s.cfg.ringDim, ∀ y < s.cfg.ringDim, dest x = dest y → x = y) :
    ∃ ta tc, runPermutation (fun l t => permuteTile s.cfg dest (val l) t) n a d s =
      .ok { s with ta := ta, tc := tc, ext := s.ext.writeWords d (limbWords s.cfg n fun l x =>
        BitVec.ofNat 64 (val l (back x) (wordAt s (tiledAddr s.cfg a l (back x))))) } := by
  obtain ⟨ta, hta, -, hav⟩ := load_inside s.ta ha
  unfold runPermutation
  rw [hta, ok_bind, gather_ok fun l hl => permuteTile_ok (hav l hl).1, ok_bind]
  refine ⟨_, _, store_limbs hN hd fun l hl x hx => ?_⟩
  rw [slot_putTiles_of_lt (by simpa using hl), getD_tab_of_lt _ _ hl]
  obtain ⟨h1, h2⟩ := hb x hx
  have := Memory.read_scatter (m := []) (val := fun y => BitVec.ofNat 64 (val l y ((tab s.cfg.ringDim fun x =>
    wordAt s (tiledAddr s.cfg a l x)).getD y 0))) hi h1
  rw [h2] at this
  rw [this, getD_tab_of_lt _ _ h1]

end Sys2Proof.Machine
end

