-- ==== Sys2Proof/Tests/Slice0.lean ====
section
/-! SUPPORT. The model's own tests: well-formedness, words written out from the spec's encoding, one-step vectors of
95_test_vectors.md, and a witness for the hypotheses of every statement that has some. -/

namespace Sys2Proof.Tests

open Sys2Proof Sys2Proof.Machine

set_option Elab.async false

/-! The start state of 95_test_vectors.md section 9.1, without its zero words, and with the operands of P3. -/

def put (base : Nat) (vs : List Nat) (m : Memory) : Memory := m.writeWords base (vs.map (BitVec.ofNat 64))

/-- Moduli, Barrett constants and the four twiddle tables. -/
def tablesExt : Memory :=
  put 0x00 [17, 97, 5, 7, 60, 168] <|
  put 0x08 [1, 2, 4, 8, 1, 4, 16, 13, 1, 33, 22, 47, 1, 22, 96, 75] <|
  put 0x18 [13, 15, 16, 8, 1, 13, 16, 4, 73, 61, 43, 16, 1, 75, 96, 22] []

/-- The operands `A` and `B`, and those of P3. -/
def demoExt : Memory :=
  put 0x40 [3, 10, 16, 0, 50, 96, 1, 2, 5, 9, 16, 0, 60, 96, 0, 3] <|
  put 0x80 [1, 2, 3, 4, 5, 6, 7, 8, 10, 20, 30, 40, 50, 60] <|
  put 0x90 [7, 11, 13] tablesExt

def demo : State := { State.reset with ext := demoExt }

/-- `demo` with one EXT word changed. -/
def patched (a v : Nat) : State := { demo with ext := demoExt.write a (BitVec.ofNat 64 v) }

def mkDesc (cmd src1 src2 dst modb khb mb nttb inttb : Nat) : Desc Word where
  cmd := BitVec.ofNat 64 cmd
  src1 := BitVec.ofNat 64 src1
  src2 := BitVec.ofNat 64 src2
  dst := BitVec.ofNat 64 dst
  modb := BitVec.ofNat 64 modb
  khb := BitVec.ofNat 64 khb
  mb := BitVec.ofNat 64 mb
  nttb := BitVec.ofNat 64 nttb
  inttb := BitVec.ofNat 64 inttb

/-- `STATUS` and `n` EXT words from `base` after one step. -/
def seen (o : Host.Outcome State Fault Refusal) (base n : Nat) : Option (Nat × List (Option Nat)) :=
  match o with
  | .next t => some (t.status.toNat, (List.range n).map fun x => (t.ext.read (base + x)).map BitVec.toNat)
  | .fault _ => none
  | .refused _ => none

/-- The reason of a refusal. -/
def reason (o : Host.Outcome State Fault Refusal) : Option Refusal :=
  match o with
  | .next _ => none
  | .fault _ => none
  | .refused r => some r

/-- The step that runs `d`, from `s` with `d` accepted by GO. -/
def ran (s : State) (d : Desc Word) : Host.Outcome State Fault Refusal := step (started d s)

def isNext (o : Host.Outcome State Fault Refusal) : Bool := (seen o 0 0).isSome

theorem exists_of_isNext {o : Host.Outcome State Fault Refusal} (h : isNext o = true) : ∃ t, o = .next t := by
  cases o with
  | next t => exact ⟨t, rfl⟩
  | fault _ => cases h
  | refused _ => cases h

theorem refused_of_reason {o : Host.Outcome State Fault Refusal} {r : Refusal} (h : reason o = some r) :
    o = .refused r := by
  cases o with
  | next _ => cases h
  | fault _ => cases h
  | refused _ => cases h; rfl

/-! Well-formedness (R101, R107): one ill-formed term for each check. -/

theorem test_wf_add_limbs : (Instr.add 65536 0 0 0 0 0).wellFormed = false := by decide
theorem test_wf_add_moff : (Instr.add 0 65536 0 0 0 0).wellFormed = false := by decide
theorem test_wf_add_words : ∀ i ∈ [Instr.add 0 0 (2 ^ 64) 0 0 0, .add 0 0 0 (2 ^ 64) 0 0, .add 0 0 0 0 (2 ^ 64) 0,
    .add 0 0 0 0 0 (2 ^ 64)], i.wellFormed = false := by decide
theorem test_wf_sub : ∀ i ∈ [Instr.sub 65536 0 0 0 0 0, .sub 0 65536 0 0 0 0, .sub 0 0 (2 ^ 64) 0 0 0,
    .sub 0 0 0 (2 ^ 64) 0 0, .sub 0 0 0 0 (2 ^ 64) 0, .sub 0 0 0 0 0 (2 ^ 64)], i.wellFormed = false := by decide
theorem test_wf_mul : ∀ i ∈ [Instr.mul 65536 0 0 0 0 0 0 0, .mul 0 65536 0 0 0 0 0 0, .mul 0 0 (2 ^ 64) 0 0 0 0 0,
    .mul 0 0 0 (2 ^ 64) 0 0 0 0, .mul 0 0 0 0 (2 ^ 64) 0 0 0, .mul 0 0 0 0 0 (2 ^ 64) 0 0,
    .mul 0 0 0 0 0 0 (2 ^ 64) 0, .mul 0 0 0 0 0 0 0 (2 ^ 64)], i.wellFormed = false := by decide
theorem test_wf_ntt : ∀ i ∈ [Instr.ntt 65536 0 0 0 0 0 0 0, .ntt 0 65536 0 0 0 0 0 0, .ntt 0 0 (2 ^ 64) 0 0 0 0 0,
    .ntt 0 0 0 (2 ^ 64) 0 0 0 0, .ntt 0 0 0 0 (2 ^ 64) 0 0 0, .ntt 0 0 0 0 0 (2 ^ 64) 0 0,
    .ntt 0 0 0 0 0 0 (2 ^ 64) 0, .ntt 0 0 0 0 0 0 0 (2 ^ 64)], i.wellFormed = false := by decide
theorem test_wf_intt : ∀ i ∈ [Instr.intt 65536 0 0 0 0 0 0 0, .intt 0 65536 0 0 0 0 0 0, .intt 0 0 (2 ^ 64) 0 0 0 0 0,
    .intt 0 0 0 (2 ^ 64) 0 0 0 0, .intt 0 0 0 0 (2 ^ 64) 0 0 0, .intt 0 0 0 0 0 (2 ^ 64) 0 0,
    .intt 0 0 0 0 0 0 (2 ^ 64) 0, .intt 0 0 0 0 0 0 0 (2 ^ 64)], i.wellFormed = false := by decide
theorem test_wf_bconv : ∀ i ∈ [Instr.bconv (2 ^ 64) 0 0 0, .bconv 0 (2 ^ 64) 0 0, .bconv 0 0 (2 ^ 64) 0,
    .bconv 0 0 0 (2 ^ 64)], i.wellFormed = false := by decide
theorem test_wf_auto : ∀ i ∈ [Instr.auto 65536 0 0 0 0 0, .auto 0 65536 0 0 0 0, .auto 0 0 65536 0 0 0,
    .auto 0 0 0 (2 ^ 64) 0 0, .auto 0 0 0 0 (2 ^ 64) 0, .auto 0 0 0 0 0 (2 ^ 64)], i.wellFormed = false := by decide
theorem test_wf_ilv : ∀ i ∈ [Instr.ilvR 65536 0 0, .ilvR 0 (2 ^ 64) 0, .ilvR 0 0 (2 ^ 64), .ilvL 65536 0 0,
    .ilvL 0 (2 ^ 64) 0, .ilvL 0 0 (2 ^ 64)], i.wellFormed = false := by decide

/-! Decoding (R101, R107, R110): the CMD word bit by bit, `STEP`, `MOFF`, `NLIMB`, `RSV`, `OPC` from the left, with the
nine words of the descriptor after it. -/

/-- A CMD word from its five fields as bits. -/
def cmdBits (step moff nlimb : BitVec 16) (rsv : BitVec 12) (opc : BitVec 4) : Nat :=
  (step ++ moff ++ nlimb ++ rsv ++ opc).toNat

theorem test_decode_init : decode true (mkDesc (cmdBits 7 6 5 0 0b0000) 1 2 3 4 5 6 7 8) = .instr .init := by decide
theorem test_decode_add : decode true (mkDesc (cmdBits 0 0x0002 0x0003 0 0b0001) 1 2 3 4 5 6 7 8) =
    .instr (.add 3 2 1 2 3 4) := by decide
theorem test_decode_sub : decode true (mkDesc (cmdBits 0 0xFFFF 0x8001 0 0b0010) 1 2 3 4 5 6 7 8) =
    .instr (.sub 0x8001 0xFFFF 1 2 3 4) := by decide
theorem test_decode_mul : decode true (mkDesc (cmdBits 9 0x0002 0x0003 0 0b0011) 1 2 3 4 5 6 7 8) =
    .instr (.mul 3 2 1 2 3 4 5 6) := by decide
theorem test_decode_ntt : decode true (mkDesc (cmdBits 9 0x0002 0x0003 0 0b0100) 1 2 3 4 5 6 7 8) =
    .instr (.ntt 3 2 1 3 4 5 6 7) := by decide
theorem test_decode_intt : decode true (mkDesc (cmdBits 9 0x0002 0x0003 0 0b0101) 1 2 3 4 5 6 7 8) =
    .instr (.intt 3 2 1 3 4 5 6 8) := by decide
theorem test_decode_bconv : decode true (mkDesc (cmdBits 9 8 7 0 0b0110) 1 2 3 (2 ^ 64 - 1) 5 6 7 8) =
    .instr (.bconv 1 2 3 (2 ^ 64 - 1)) := by decide
theorem test_decode_auto : decode true (mkDesc (cmdBits 0xABCD 0x0002 0x0003 0 0b0111) 1 2 3 4 5 6 7 8) =
    .instr (.auto 3 2 0xABCD 1 3 4) := by decide
theorem test_decode_ilvR : decode true (mkDesc (cmdBits 9 8 0x0003 0 0b1000) 1 2 3 4 5 6 7 8) =
    .instr (.ilvR 3 1 3) := by decide
theorem test_decode_ilvL : decode true (mkDesc (cmdBits 9 8 0x0003 0 0b1001) 1 2 3 4 5 6 7 8) =
    .instr (.ilvL 3 1 3) := by decide
theorem test_decode_reserved : ∀ opc ∈ [10, 11, 12, 13, 14, 15], decode true (mkDesc opc 0 0 0 0 0 0 0 0) =
    .reject .reservedOpcode := by decide
theorem test_decode_extension_off : ∀ opc ∈ [7, 8, 9], decode false (mkDesc (0x10000 + opc) 0 0 0 0 0 0 0 0) =
    .reject .reservedOpcode := by decide
theorem test_decode_rsv : ∀ bit ∈ List.range 12, decode true (mkDesc (2 ^ (4 + bit) + 1) 0 0 0 0 0 0 0 0) =
    .reject .reservedField := by decide
/-- 30_encoding.md R117. -/
theorem test_decode_table_word : decodeTableWord 64 0x0005000000010007 = some (.auto 1 0 5 0 0 0) := by decide
/-- R115: the descriptor of P1's ADD (95 section 9.2). -/
theorem test_encode_add : encode (.add 2 0 0x40 0x48 0x50 0) = mkDesc 0x20001 0x40 0x48 0x50 0 0 0 0 0 := by decide

/-! One step of each instruction (95 sections 7, 8 and 9). -/

/-- 8.2 case 1. -/
theorem test_init : reason (ran demo (mkDesc 0 0 0 0 0 0 0 0 0)) = some .initUndefined := by decide +kernel
/-- 9.2, P1. -/
theorem test_add : seen (ran demo (mkDesc 0x20001 0x40 0x48 0x50 0 0 0 0 0)) 0x50 8 =
    some (2, [8, 2, 15, 0, 13, 95, 1, 5].map some) := by decide +kernel
/-- 8.2 case 3. -/
theorem test_add_operand_range : reason (ran (patched 0x4D 97) (mkDesc 0x20001 0x40 0x48 0x50 0 0 0 0 0)) =
    some .operandRange := by decide +kernel
/-- Section 3. -/
theorem test_sub : seen (ran demo (mkDesc 0x20002 0x40 0x48 0x50 0 0 0 0 0)) 0x50 8 =
    some (2, [15, 1, 0, 0, 87, 0, 1, 96].map some) := by decide +kernel
/-- 8.1 case 6. -/
theorem test_sub_mod_index : seen (ran demo (mkDesc 0x100020002 0x40 0x48 0x50 0 0 0 0 0)) 0 0 = some (0x404, []) := by
  decide +kernel
/-- Section 3. -/
theorem test_mul : seen (ran demo (mkDesc 0x10003 0x40 0x48 0x50 0 2 4 0 0)) 0x50 4 =
    some (2, [15, 5, 1, 0].map some) := by decide +kernel
/-- 8.2 case 5. -/
theorem test_mul_barrett : reason (ran (patched 4 61) (mkDesc 0x10003 0x40 0x48 0x50 0 2 4 0 0)) =
    some .barrettConstants := by decide +kernel
/-- Section 4.5. -/
theorem test_ntt : seen (ran demo (mkDesc 0x20004 0x40 0 0x50 0 2 4 8 0)) 0x50 8 =
    some (2, [2, 2, 13, 12, 36, 47, 11, 9].map some) := by decide +kernel
/-- 8.2 case 11: word 0x54 has never been written. -/
theorem test_ntt_unwritten : reason (ran demo (mkDesc 0x10004 0x51 0 0x50 0 2 4 8 0)) = some .unwrittenRead := by
  decide +kernel
/-- Section 4.2, the inverse trace. -/
theorem test_intt : seen (ran { demo with ext := put 0x40 [15, 13, 11, 16] demoExt }
    (mkDesc 0x10005 0x40 0 0x40 0 2 4 0 0x18)) 0x40 4 = some (2, [1, 2, 3, 4].map some) := by decide +kernel
/-- Section 4.5: an unread table word has no effect. -/
theorem test_intt_unread : isNext (ran (patched 0x1F 99) (mkDesc 0x10005 0x40 0 0x50 0 2 4 0 0x18)) = true := by
  decide +kernel
/-- Section 7, whatever the initial latches are. -/
theorem test_bconv : seen (ran demo (mkDesc 6 0x80 0x88 0x98 0x90 0 0 0 0)) 0x98 12 =
    some (2, [6, 10, 7, 1, 7, 5, 3, 4, 3, 5, 1, 1].map some) := by decide +kernel
/-- Section 7: `BCONV_ALIAS`. -/
theorem test_bconv_alias : reason (ran demo (mkDesc 6 0x80 0x88 0x86 0x90 0 0 0 0)) = some .bconvAlias := by
  decide +kernel
/-- Section 5: `k = 3`. -/
theorem test_auto : seen (ran demo (mkDesc 0x1000000020007 0x40 0 0x50 0 0 0 0 0)) 0x50 8 =
    some (2, [3, 0, 1, 10, 50, 2, 96, 96].map some) := by decide +kernel
/-- Section 5: `k = 5`. -/
theorem test_auto_five : seen (ran demo (mkDesc 0x2000000010007 0x40 0 0x68 0 0 0 0 0)) 0x68 4 =
    some (2, [3, 7, 16, 0].map some) := by decide +kernel
/-- Section 5: no modulus and no range check. -/
theorem test_ilvR : seen (ran (patched 0x4D 97) (mkDesc 0x20008 0x48 0 0x60 0 0 0 0 0)) 0x64 4 =
    some (2, [60, 97, 3, 0].map some) := by decide +kernel
/-- R334, R337: ILV_R checks no word, so it completes on words nothing has written (log 29). -/
theorem test_ilvR_unwritten : isNext (ran State.reset (mkDesc 0x20008 0x48 0 0x60 0 0 0 0 0)) = true := by
  decide +kernel
/-- Sections 1.5 and 5: row 1 rotates left by 1; with `S = 2` that swaps its two words. -/
theorem test_ilvL : seen (ran demo (mkDesc 0x20009 0x40 0 0x60 0 0 0 0 0)) 0x60 8 =
    some (2, [3, 10, 0, 16, 50, 96, 2, 1].map some) := by decide +kernel
/-- Section 5, `S = 4`. -/
theorem test_ilvL_dest :
    ((List.range 16).map fun d => (List.range 16).find? fun x => interleaveDest 4 false x == d) =
      [0, 1, 2, 3, 5, 6, 7, 4, 10, 11, 8, 9, 15, 12, 13, 14].map some := by decide
/-- 10_state.md R34 and 46_invocation.md R331: 8.2 case 10. -/
theorem test_go_unwritten : reason (step { demo with host := [.ctlWrite 9 1] }) = some .unwrittenRead := by
  decide +kernel
/-- R331: a GO while idle sets `BUSY` alone. -/
theorem test_go : seen (step { demo with desc := writtenRegs (mkDesc 1 0 0 0 0 0 0 0 0), host := [.ctlWrite 9 1] }) 0 0 =
    some (1, []) := by decide +kernel
/-- 40_modular_arithmetic.md, 95 section 2.2. -/
theorem test_multMod : [multMod 110 111 113 7 144, multMod 125 129 139 8 471, multMod 16 16 17 5 60] = [6, 1, 1] := by
  decide +kernel
/-- 95 section 2.3. -/
theorem test_karatsuba : karatsuba 0x123456789ABCDEF0 0xFEDCBA9876543210 = 0x121FA00AD77D7422236D88FE5618CF00 := by
  decide +kernel

/-! Witnesses: for each statement with hypotheses, concrete values that meet them all, one per clause. -/

theorem of_seen {o : Host.Outcome State Fault Refusal} {base n status : Nat} {ws : List (Option Nat)}
    (h : seen o base n = some (status, ws)) : ∃ t, o = .next t ∧ t.status.toNat = status := by
  cases o with
  | next t => simp only [seen, Option.some.injEq, Prod.mk.injEq] at h; exact ⟨t, rfl, h.1⟩
  | fault _ => cases h
  | refused _ => cases h

/-- `demo` in the middle of the invocation of `d`, with a schedule and host accesses to come. -/
def during (d : Desc Word) (turns : List Agent) (host : List HostAction) : State :=
  { started d demo with turns := turns, host := host }

/-- `demo` under the `OPAQUE` convention. -/
def opaqueDemo : State := { demo with cfg := { Cfg.specExample with nttConvention := .opq } }

/-- `demo` with a step table whose values are even. -/
def evenDemo : State := { demo with cfg := { Cfg.specExample with galois := ⟨[], 2, 0⟩ } }

/-- `demo` with `EXT_PERM_OPS = false`. -/
def plainDemo : State := { demo with cfg := { Cfg.specExample with extPermOps := false } }

def addDesc : Desc Word := mkDesc 0x20001 0x40 0x48 0x50 0 0 0 0 0

theorem witness_DecodeUndoesEncode :
    (Instr.mul 65535 65535 (2 ^ 64 - 1) 0 (2 ^ 64 - 1) 1 2 3).wellFormed = true ∧
    (Instr.auto 65535 65535 65535 0 (2 ^ 64 - 1) 7).wellFormed = true ∧ 7 ≤ (Instr.auto 65535 65535 65535 0 0 0).opcode := by
  decide

theorem witness_ReservedEncodingsRaise :
    let a := started (mkDesc 0x0A 0 0 0 0 0 0 0 0) demo
    let b := started (mkDesc 0x07 0 0 0 0 0 0 0 0) plainDemo
    let c := started (mkDesc 0x11 0 0 0 0 0 0 0 0) demo
    let d := started addDesc demo
    (Going a ∧ CoreNext a ∧ 10 ≤ a.snap.opc) ∧
    (Going b ∧ CoreNext b ∧ 7 ≤ b.snap.opc ∧ b.cfg.extPermOps = false) ∧
    (Going c ∧ CoreNext c ∧ ¬ (10 ≤ c.snap.opc ∨ (7 ≤ c.snap.opc ∧ c.cfg.extPermOps = false)) ∧ c.snap.rsv ≠ 0) ∧
    (Going d ∧ CoreNext d ∧ ¬ (10 ≤ d.snap.opc ∨ (7 ≤ d.snap.opc ∧ d.cfg.extPermOps = false)) ∧ d.snap.rsv = 0) := by
  dsimp only
  and_intros <;> decide +kernel

theorem witness_UnusedFieldsIgnored :
    let d := mkDesc 0x10008 0x40 1 0x50 2 3 4 5 6
    let e := mkDesc 0x7000200010008 0x40 0 0x50 0 0 0 0 0
    d ≠ e ∧ d.opc = e.opc ∧ d.rsv = e.rsv ∧ usedFields d.opc d = usedFields e.opc e := by
  dsimp only
  and_intros <;> decide +kernel

/-- Two machines whose snapshots differ in the words BCONV ignores, and which differ in their queues and draws. -/
theorem witness_UnusedFieldsIgnored_step :
    let s := during (mkDesc 6 0x80 0x88 0x98 0x90 0 0 0 0) [] []
    let t : State := { during (mkDesc 0x7000200010006 0x80 0x88 0x98 0x90 1 2 3 4) [.core] [.ctlRead 10] with draws := 9 }
    (Going s ∧ Going t ∧ CoreNext s ∧ CoreNext t ∧ t.cfg = s.cfg ∧ t.ext = s.ext) ∧ s.snap ≠ t.snap ∧
    s.snap.opc = t.snap.opc ∧ s.snap.rsv = t.snap.rsv ∧
    usedFields s.snap.opc s.snap = usedFields t.snap.opc t.snap := by
  dsimp only
  and_intros <;> decide +kernel

theorem witness_StepRunsDecodedInstruction :
    let a := during addDesc [.core, .host] []
    (Going a ∧ CoreNext a ∧ decode a.cfg.extPermOps a.snap = .instr (.add 2 0 0x40 0x48 0x50 0)) ∧
    (Going State.reset ∧ decode State.reset.cfg.extPermOps (descOfNat (0x20001 % 2 ^ 64)) = .instr (.add 2 0 0 0 0 0)) := by
  dsimp only
  and_intros <;> decide +kernel

theorem witness_GoStartsAnInvocation :
    let idle : State := { demo with host := [.ctlRead 9] }
    let busy := during addDesc [.host, .core] [.ctlWrite 9 1]
    let clear : State := { demo with host := [.ctlWrite 9 2] }
    let ready : State := { demo with host := [.ctlWrite 9 3], desc := writtenRegs addDesc }
    (Going idle ∧ HostNext idle [] ∧ idle.host = [.ctlRead 9]) ∧
    (Going busy ∧ HostNext busy [.core] ∧ busy.host = [.ctlWrite 9 1] ∧ busy.busy = true) ∧
    (Going clear ∧ HostNext clear [] ∧ clear.host = [.ctlWrite 9 2] ∧ clear.busy = false ∧ (2 : Word).getLsbD 0 = false) ∧
    (Going ready ∧ HostNext ready [] ∧ ready.host = [.ctlWrite 9 3] ∧ ready.busy = false ∧
      (3 : Word).getLsbD 0 = true ∧ ready.desc = writtenRegs addDesc ∧
      decode ready.cfg.extPermOps addDesc = .instr (.add 2 0 0x40 0x48 0x50 0) ∧
      CoreNext { ready with host := [], snap := addDesc, status := 0x1 }) := by
  dsimp only
  and_intros <;> decide +kernel

theorem witness_GoStartsAnInvocation_unwritten :
    let s : State := { demo with host := [.ctlWrite 9 1] }
    (Going s ∧ HostNext s [] ∧ s.host = [.ctlWrite 9 1] ∧ s.busy = false ∧ (1 : Word).getLsbD 0 = true) ∧
    ∀ d, s.desc ≠ writtenRegs d := by
  refine ⟨by decide +kernel, fun d h => ?_⟩
  have := congrArg Desc.cmd h
  cases this

theorem witness_DescriptorRegistersKeepWrites :
    let s : State := { demo with host := [.ctlWrite 8 5, .ctlRead 0] }
    let t : State := { demo with host := [.ctlWrite 8 5, .ctlRead 0], desc := writtenRegs addDesc }
    let u : State := { demo with host := [.ctlWrite 8 5, .ctlRead 8] }
    (Going s ∧ s.busy = false ∧ s.host = [.ctlWrite 8 5, .ctlRead 0] ∧ descReg s.desc 0 = some none) ∧
    (Going t ∧ t.busy = false ∧ t.host = [.ctlWrite 8 5, .ctlRead 0] ∧ descReg t.desc 0 = some (some 0x20001)) ∧
    (Going u ∧ u.busy = false ∧ u.host = [.ctlWrite 8 5, .ctlRead 8]) := by
  dsimp only
  and_intros <;> decide +kernel

/-- Reads at the ends of the range, by a host that has its turn while the core is busy, and of an unwritten register. -/
theorem witness_DescriptorRegistersKeepWrites_read :
    let s : State := { during addDesc [.host, .core] [.ctlRead 8] with desc := writtenRegs addDesc }
    let t : State := { demo with host := [.ctlRead 0] }
    (Going s ∧ s.busy = true ∧ HostNext s [.core] ∧ s.host = [.ctlRead 8] ∧ descReg s.desc 8 = some (some 0)) ∧
    (Going t ∧ HostNext t [] ∧ t.host = [.ctlRead 0] ∧ descReg t.desc 0 = some none) := by
  dsimp only
  and_intros <;> decide +kernel

theorem witness_StatusReadReturnsStatus :
    let idle : State := { demo with host := [.ctlRead 10] }
    let busy := during addDesc [.host] [.ctlRead 10]
    (Going idle ∧ HostNext idle [] ∧ idle.host = [.ctlRead 10]) ∧ (Going busy ∧ HostNext busy [] ∧ busy.host = [.ctlRead 10]) ∧
    (Going demo ∧ HostNext demo [] ∧ demo.host = []) := by
  dsimp only
  and_intros <;> decide +kernel

theorem witness_IllegalHostAccessRefused :
    (∀ a ∈ [HostAction.ctlRead 11, .ctlWrite 10 0, .memRead 256, .memWrite 256 0],
      Going { demo with host := [a] } ∧ HostNext { demo with host := [a] } []) ∧
    (∀ a ∈ [HostAction.ctlWrite 9 1, .ctlWrite 0 0, .memRead 0, .memWrite 0 0],
      Going (during addDesc [.host] [a]) ∧ HostNext (during addDesc [.host] [a]) []) ∧
    Illegal demo (.ctlRead 11) ∧ Illegal demo (.ctlWrite 10 0) ∧ Illegal demo (.memRead 256) ∧
    Illegal demo (.memWrite 256 0) ∧ Illegal (during addDesc [.host] []) (.ctlWrite 9 1) ∧
    Illegal (during addDesc [.host] []) (.ctlWrite 0 0) ∧ Illegal (during addDesc [.host] []) (.memRead 0) ∧
    Illegal (during addDesc [.host] []) (.memWrite 0 0) := by
  refine ⟨by decide +kernel, by decide +kernel, ?_, ?_, ?_, ?_, ?_, ?_, ?_, ?_⟩
  · exact (by decide : 10 < 11)
  · exact .inr (by decide)
  · exact .inr (by decide)
  · exact .inr (by decide)
  · exact .inl ⟨by decide, by decide⟩
  · exact .inl ⟨by decide, by decide⟩
  · exact .inl (by decide)
  · exact .inl (by decide)

theorem witness_HostMemoryKeepsWrites :
    let s : State := { demo with host := [.memWrite 255 5, .memRead 255] }
    let t : State := { demo with host := [.memWrite 255 5, .memRead 0] }
    let u : State := { demo with host := [.memWrite 0 5, .memRead 255] }
    (Going s ∧ s.busy = false ∧ 255 < s.cfg.extWords) ∧ (Going t ∧ t.busy = false ∧ t.ext.read 0 = some 17) ∧
    (Going u ∧ u.busy = false ∧ u.ext.read 255 = none) := by
  dsimp only
  and_intros <;> decide +kernel

/-- Reads repeated at a written and at an unwritten word. -/
theorem witness_HostMemoryKeepsWrites_repeat :
    ∀ b ∈ [0, 255], Going { demo with host := [.memRead b, .memRead b] } ∧
      ({ demo with host := [.memRead b, .memRead b] } : State).busy = false ∧ b < demo.cfg.extWords := by
  decide +kernel

/-- R340: a read of a word nothing has written goes on (log 29). -/
theorem test_hostMemRead_unwritten : isNext (step { demo with host := [.memRead 255] }) = true := by decide +kernel

theorem witness_RefusalIsPermanent :
    step (started (mkDesc 0 0 0 0 0 0 0 0 0) demo) = .refused .initUndefined ∧
    (({ demo with refused := true } : State).cfg.Valid ∧ ({ demo with refused := true } : State).refused = true) ∧
    ∃ t, step demo = .next t :=
  ⟨refused_of_reason (by decide +kernel), by decide +kernel, exists_of_isNext (by decide +kernel)⟩

theorem witness_InvalidConfigBuildsNothing :
    Cfg.specExample.Valid ∧ ¬ Cfg.Valid { Cfg.specExample with sqrt := 3, ringDim := 9 } ∧
    ({ demo with cfg := { Cfg.specExample with sqrt := 3, ringDim := 9 } } : State).cfg =
      { Cfg.specExample with sqrt := 3, ringDim := 9 } := by decide +kernel

theorem three_not_pow : ∀ k, 3 ≠ 2 ^ k
  | 0 => by decide
  | k + 1 => by rw [Nat.pow_succ]; omega

/-- Each constraint of R8 broken at its boundary; and a configuration at every boundary that breaks none. -/
theorem witness_InvalidConfigBuildsNothing_constraints :
    let c := Cfg.specExample
    (∀ b ∈ [{ c with sqrt := 3, ringDim := 9 }, { c with sqrt := 0, ringDim := 0 }, { c with ringDim := 5 },
        { c with maxLimbs := 0 }, { c with maxLimbs := 65536 }, { c with buNum := 1 }, { c with sizeQ := 0 },
        { c with sizeP := 0 }, { c with numModuli := 0 }, { c with extWords := 2 ^ 64 + 1 }, { c with accWidth := 127 },
        { c with hostByteOrder := [0, 0, 2, 3, 4, 5, 6, 7] }], State.build b = none) ∧
    BreaksR8 { c with sqrt := 3, ringDim := 9 } ∧ BreaksR8 { c with accWidth := 127 } ∧
    ¬ ByteOrderOk { c with hostByteOrder := [0, 0, 2, 3, 4, 5, 6, 7] } ∧
    ¬ BreaksR8 { c with
      sqrt := 1, ringDim := 1, maxLimbs := 65535, nttConvention := .opq, buNum := 0, sizeQ := 1, sizeP := 1,
      numModuli := 1, extWords := 2 ^ 64, accWidth := 128 } ∧ ByteOrderOk c := by
  refine ⟨by decide +kernel, .inl three_not_pow, .inr (.inr (.inr (.inr (.inr (.inr (.inr (.inr (.inr (by decide))))))))),
    by decide, fun h => ?_, by decide⟩
  rcases h with h | h
  · exact h 0 rfl
  · revert h; decide

theorem witness_ResetWhileIdle :
    let s : State := { demo with host := [.reset] }
    Going s ∧ s.busy = false ∧ s.host = [.reset] := by
  dsimp only
  and_intros <;> decide +kernel

/-- An invocation that would complete, one that would be rejected, and a descriptor that does not decode. -/
theorem witness_ResetWhileBusy :
    let s := during addDesc [.host] [.reset]
    let t := during (mkDesc 0x30001 0x40 0x48 0x50 0 0 0 0 0) [.host] [.reset]
    let u := during (mkDesc 0x0A 0 0 0 0 0 0 0 0) [.host] [.reset]
    (∀ x ∈ [s, t, u], Going x ∧ x.busy = true ∧ x.turns = [.host] ∧ x.host = [.reset]) ∧
    decode s.cfg.extPermOps s.snap = .instr (.add 2 0 0x40 0x48 0x50 0) ∧
    decode t.cfg.extPermOps t.snap = .instr (.add 3 0 0x40 0x48 0x50 0) ∧
    decode u.cfg.extPermOps u.snap = .reject .reservedOpcode ∧
    seen (exec (.add 2 0 0x40 0x48 0x50 0) { s with host := [], turns := [] }) 0 0 = some (2, []) ∧
    seen (exec (.add 3 0 0x40 0x48 0x50 0) { t with host := [], turns := [] }) 0 0 = some (0x304, []) := by
  dsimp only
  and_intros <;> decide +kernel

theorem witness_PollingSeesTheEnd :
    let s := during addDesc [.host, .host] [.ctlRead 10, .ctlRead 10]
    Going s ∧ s.busy = true ∧ (∀ a ∈ s.host, a = .ctlRead 10) := by
  dsimp only
  and_intros <;> decide +kernel

theorem witness_ExecCompletesOrOnlySetsStatus :
    (∃ t, exec (.add 2 0 0x40 0x48 0x50 0) demo = .next t ∧ t.status.toNat = 0x2) ∧
    ∃ t, exec (.add 3 0 0x40 0x48 0x50 0) demo = .next t ∧ t.status.toNat = 0x304 :=
  ⟨of_seen (base := 0) (n := 0) (ws := []) (by decide +kernel), of_seen (base := 0) (n := 0) (ws := []) (by decide +kernel)⟩

theorem witness_TooManyLimbsRaises : (Instr.ilvR 3 0 0).limbs = some 3 ∧ demo.cfg.maxLimbs < 3 := by decide

theorem witness_ModulusIndexRaises :
    (Instr.add 2 1 0x40 0x48 0x50 0).modular = some (2, 1, 0) ∧ 2 ≤ demo.cfg.maxLimbs ∧ demo.cfg.numModuli < 1 + 2 := by
  decide

theorem witness_RangeErrorRaises :
    Instr.ilvR 1 0x40 0xFD ≠ .init ∧ (∀ n, (Instr.ilvR 1 0x40 0xFD).limbs = some n → n ≤ demo.cfg.maxLimbs) ∧
    (∀ n off m, (Instr.ilvR 1 0x40 0xFD).modular = some (n, off, m) → off + n ≤ demo.cfg.numModuli) ∧
    ¬ InRange demo (.ilvR 1 0x40 0xFD) ∧ ¬ InRange demo (.bconv 0x80 0x88 0xF5 0x90) ∧
    InRange demo (.bconv 0x80 0x88 0xF4 0x90) := by
  refine ⟨by decide, fun n h => ?_, fun n off m h => ?_, by decide +kernel, by decide +kernel, by decide +kernel⟩
  · cases h; decide
  · cases h

theorem witness_FirstBadModulusRaises :
    let z := patched 1 0
    let r := patched 1 (2 ^ 62)
    let b := patched 0x92 0
    (BoundaryOk z (.add 2 0 0x40 0x48 0x50 0) 2 0 ∧ ModuliOk z 0 1 ∧ wordAt z 1 = 0) ∧
    (BoundaryOk r (.add 2 0 0x40 0x48 0x50 0) 2 0 ∧ ModuliOk r 0 1 ∧ 2 ^ 62 ≤ wordAt r 1) ∧
    (InRange b (.bconv 0x80 0x88 0x98 0x90) ∧ b.cfg.sizeP = 3 ∧ ModuliOk b 0x90 2 ∧ wordAt b 0x92 = 0) := by
  dsimp only
  and_intros <;> decide +kernel

theorem witness_EvenGaloisElementRaises :
    BoundaryOk evenDemo (.auto 1 0 3 0x40 0x50 0) 1 0 ∧ ModuliOk evenDemo 0 1 ∧ galoisElement evenDemo.cfg 3 % 2 = 0 := by
  decide +kernel

/-- An index out of range, an even Galois element, and neither, at the largest `MOFF` that passes. -/
theorem witness_NoActiveLimbs :
    (Instr.add 0 3 0 0 0 0).limbs = some 0 ∧ (Instr.add 0 3 0 0 0 0).modular = some (0, 3, 0) ∧ ¬ 3 ≤ demo.cfg.numModuli ∧
    (Instr.auto 0 2 3 0 0 0).limbs = some 0 ∧ 2 ≤ evenDemo.cfg.numModuli ∧ ¬ galoisElement evenDemo.cfg 3 % 2 = 1 ∧
    galoisElement demo.cfg 3 % 2 = 1 := by decide +kernel

theorem witness_InitIsRefused :
    let s := started (mkDesc 0xFFFF0000 0 0 0 0 0 0 0 0) demo
    let t := started (mkDesc 0x10 0 0 0 0 0 0 0 0) demo
    (Going s ∧ CoreNext s ∧ s.snap.opc = 0 ∧ s.snap.rsv = 0) ∧ (Going t ∧ CoreNext t ∧ t.snap.opc = 0 ∧ t.snap.rsv ≠ 0) := by
  dsimp only
  and_intros <;> decide +kernel

theorem witness_AddMod : 1 ≤ 2 ^ 62 - 1 ∧ 2 ^ 62 - 1 < 2 ^ 62 ∧ 2 ^ 62 - 2 < 2 ^ 62 - 1 ∧ 0 < 1 ∧ 1 ≤ 1 := by decide

theorem witness_BarrettConstantBounds : ∀ q ∈ [1, 2 ^ 61, 2 ^ 62 - 1], 1 ≤ q ∧ q < 2 ^ 62 := by decide

theorem witness_MultModIsExact : 2 ^ 62 - 1 < 2 ^ 62 ∧ 2 ^ 62 - 2 < 2 ^ 62 - 1 ∧ 0 < 2 ^ 62 - 1 := by decide

theorem witness_NegModNegatesModulo : 0 < 1 ∧ 2 ^ 62 - 2 < 2 ^ 62 - 1 := by decide

theorem witness_AddResult :
    demo.cfg.Valid ∧ BoundaryOk demo (.add 2 0 0x40 0x48 0xF8 0) 2 0 ∧ ModuliOk demo (0 + 0) 2 ∧
    OperandsOk demo 0x40 2 (0 + 0) ∧ OperandsOk demo 0x48 2 (0 + 0) := by decide +kernel

theorem witness_SubResult :
    demo.cfg.Valid ∧ BoundaryOk demo (.sub 1 1 0x44 0x4C 0x44 0) 1 1 ∧ ModuliOk demo (0 + 1) 1 ∧
    OperandsOk demo 0x44 1 (0 + 1) ∧ OperandsOk demo 0x4C 1 (0 + 1) := by decide +kernel

theorem witness_MulResult :
    demo.cfg.Valid ∧ BoundaryOk demo (.mul 2 0 0x40 0x48 0x50 0 2 4) 2 0 ∧ ModuliOk demo (0 + 0) 2 ∧
    OperandsOk demo 0x40 2 (0 + 0) ∧ OperandsOk demo 0x48 2 (0 + 0) ∧ BarrettOk demo (0 + 0) (2 + 0) (4 + 0) 2 := by
  decide +kernel

theorem witness_OutOfRangeOperandRefused :
    let s := patched 0x4D 97
    (Instr.add 2 0 0x40 0x48 0x50 0).modular = some (2, 0, 0) ∧ BoundaryOk s (.add 2 0 0x40 0x48 0x50 0) 2 0 ∧
    ModuliOk s (0 + 0) 2 ∧
    InputsWritten s (.add 2 0 0x40 0x48 0x50 0) ∧ 0x48 ∈ (Instr.add 2 0 0x40 0x48 0x50 0).operandBuffers ∧
    wordAt s (0 + 0 + 1) ≤ wordAt s (tiledAddr s.cfg 0x48 1 1) := by
  dsimp only
  and_intros <;> decide +kernel

theorem witness_OutOfRangeOperandRefused_auto :
    let s := patched 0x41 17
    BoundaryOk s (.auto 1 0 1 0x40 0x50 0) 1 0 ∧ ModuliOk s (0 + 0) 1 ∧
    (∀ n moff st a d modb, Instr.auto 1 0 1 0x40 0x50 0 = .auto n moff st a d modb → galoisElement s.cfg st % 2 = 1) ∧
    InputsWritten s (.auto 1 0 1 0x40 0x50 0) ∧
    wordAt s (0 + 0 + 0) ≤ wordAt s (tiledAddr s.cfg 0x40 0 1) := by
  refine ⟨by decide +kernel, by decide +kernel, fun n moff st a d modb h => ?_, by decide +kernel, by decide +kernel⟩
  cases h; decide +kernel

theorem witness_WrongBarrettConstantsRefused :
    let s := patched 4 61
    (Instr.mul 1 0 0x40 0x48 0x50 0 2 4).barrettTables = some (2, 4) ∧
    BoundaryOk s (.mul 1 0 0x40 0x48 0x50 0 2 4) 1 0 ∧ ModuliOk s (0 + 0) 1 ∧
    (∀ b ∈ (Instr.mul 1 0 0x40 0x48 0x50 0 2 4).operandBuffers, OperandsOk s b 1 (0 + 0)) ∧
    InputsWritten s (.mul 1 0 0x40 0x48 0x50 0 2 4) ∧
    wordAt s (4 + 0 + 0) ≠ barrettRecip (wordAt s (0 + 0 + 0)) := by
  dsimp only
  and_intros <;> decide +kernel

theorem witness_InterleaveResults :
    demo.cfg.Valid ∧ 2 ≤ demo.cfg.maxLimbs ∧ InRange demo (.ilvR 2 0x40 0xF8) ∧ InRange demo (.ilvL 2 0x40 0x40) ∧
    InRange State.reset (.ilvR 2 0xF8 0) ∧ InRange State.reset (.ilvL 2 0xF8 0) := by decide +kernel

theorem fullTile_demo : FullTile demo.cfg (tileOf [1, 2, 3, 4]) := ⟨by decide, by decide, by decide⟩

theorem witness_InterleaveInverse : demo.cfg.Valid ∧ FullTile demo.cfg (tileOf [1, 2, 3, 4]) := ⟨by decide, fullTile_demo⟩

theorem witness_AutoResult :
    demo.cfg.Valid ∧ BoundaryOk demo (.auto 2 0 65535 0x40 0xF8 0) 2 0 ∧ ModuliOk demo (0 + 0) 2 ∧
    galoisElement demo.cfg 65535 % 2 = 1 ∧ OperandsOk demo 0x40 2 (0 + 0) := by decide +kernel

theorem witness_AutoIsAPermutation : demo.cfg.Valid ∧ 7 % 2 = 1 := by decide

theorem witness_AutoInverse :
    (demo.cfg.Valid ∧ 3 * 3 % (2 * demo.cfg.ringDim) = 1 ∧ 17 < 2 ^ 62) ∧ FullTile demo.cfg (tileOf [1, 2, 3, 4]) ∧
    ∀ x < demo.cfg.ringDim, (((tileOf [1, 2, 3, 4]).read x).getD 0).toNat < 17 := ⟨by decide, fullTile_demo, by decide⟩

theorem witness_ButterflyIsExact :
    let p : LimbMod := ⟨17, 5, 60⟩
    p.q < 2 ^ 62 ∧ p.kh = barrettShift p.q ∧ p.mu = barrettRecip p.q ∧ 16 < p.q := by
  dsimp only
  and_intros <;> decide +kernel

theorem witness_NttResult :
    (∀ s ∈ [demo, opaqueDemo], s.cfg.Valid ∧ BoundaryOk s (.ntt 2 0 0x40 0xF8 0 2 4 8) 2 0 ∧ ModuliOk s (0 + 0) 2 ∧
      OperandsOk s 0x40 2 (0 + 0) ∧ BarrettOk s (0 + 0) (2 + 0) (4 + 0) 2 ∧
      InputsWritten s (.ntt 2 0 0x40 0xF8 0 2 4 8) ∧
      ∀ l < 2, TableOk s (8 + (0 + l) * s.cfg.twn) (wordAt s (0 + 0 + l))) ∧
    demo.cfg.nttConvention = .ref ∧ opaqueDemo.cfg.nttConvention = .opq := by
  refine ⟨fun s hs => ?_, by decide, by decide⟩
  rcases List.mem_pair.1 hs with rfl | rfl <;> and_intros <;> decide +kernel

theorem witness_InttResult :
    (∀ s ∈ [demo, opaqueDemo], s.cfg.Valid ∧ BoundaryOk s (.intt 2 0 0x40 0x40 0 2 4 0x18) 2 0 ∧ ModuliOk s (0 + 0) 2 ∧
      OperandsOk s 0x40 2 (0 + 0) ∧ BarrettOk s (0 + 0) (2 + 0) (4 + 0) 2 ∧
      ∀ l < 2, TableOk s (0x18 + (0 + l) * s.cfg.twn) (wordAt s (0 + 0 + l))) ∧
    demo.cfg.nttConvention = .ref ∧ opaqueDemo.cfg.nttConvention = .opq := by
  refine ⟨fun s hs => ?_, by decide, by decide⟩
  rcases List.mem_pair.1 hs with rfl | rfl <;> and_intros <;> decide +kernel

/-- 95 section 4.1, `q = 17`. -/
def forwardTable : List Nat := [1, 2, 4, 8, 1, 4, 16, 13]

/-- 95 section 4.1, `q = 17`. -/
def inverseTable : List Nat := [13, 15, 16, 8, 1, 13, 16, 4]

theorem witness_TransformStaysBelowModulus :
    demo.cfg.Valid ∧ 0 < 17 ∧ 17 < 2 ^ 62 ∧ 5 = barrettShift 17 ∧ 60 = barrettRecip 17 ∧
    (∀ x < demo.cfg.ringDim, [16, 16, 16, 16].getD x 0 < 17) ∧
    (∀ f < 2 * demo.cfg.ringDim, refReads demo.cfg f = true → forwardTable.getD f 0 < 17) := by decide +kernel

/-- The tables differ at word 7, which `REF` does not read. -/
theorem witness_UnreadTwiddlesIgnored :
    demo.cfg.Valid ∧ refReads demo.cfg 7 = false ∧
    ∀ f, refReads demo.cfg f = true → (if f = 7 then 1 else 0) = (0 : Nat) := by
  refine ⟨by decide, by decide, fun f h => if_neg fun e => ?_⟩
  subst e
  exact absurd h (by decide)

theorem witness_RefComputesTheNegacyclicTransform :
    demo.cfg.Valid ∧ RootOf demo.cfg.ringDim 17 2 9 13 ∧ ForwardTable demo.cfg.ringDim 17 2 forwardTable ∧
    InverseTable demo.cfg.ringDim 17 9 13 inverseTable ∧ [0, 1, 15, 16].length = demo.cfg.ringDim ∧
    (∀ x ∈ [0, 1, 15, 16], x < 17) := by decide

theorem witness_NttThenInttCopies :
    demo.cfg.Valid ∧ BoundaryOk demo (.ntt 1 0 0x40 0x50 0 2 4 8) 1 0 ∧
    BoundaryOk demo (.intt 1 0 0x50 0x58 0 2 4 0x18) 1 0 ∧ ModuliOk demo (0 + 0) 1 ∧ OperandsOk demo 0x40 1 (0 + 0) ∧
    BarrettOk demo (0 + 0) (2 + 0) (4 + 0) 1 ∧
    (∀ l < 1, TableOk demo (8 + (0 + l) * demo.cfg.twn) (wordAt demo (0 + 0 + l))) ∧
    (∀ l < 1, TableOk demo (0x18 + (0 + l) * demo.cfg.twn) (wordAt demo (0 + 0 + l))) ∧
    InputsWritten demo (.ntt 1 0 0x40 0x50 0 2 4 8) ∧
    (∀ r ∈ [entrySpan 0 0 1, entrySpan 2 0 1, entrySpan 4 0 1, twiddleSpan demo.cfg 0x18 0 1],
      ¬ (tiledSpan demo.cfg 0x50 1).overlaps r) := by
  and_intros <;> decide +kernel

/-- The last two hypotheses, under `REF`. (Under `OPAQUE` they are about constants with no body.) -/
theorem witness_NttThenInttCopies_tables :
    (demo.cfg.nttConvention = .opq → OpaqueLaws demo.cfg) ∧
    ∀ l < 1, RoundTripTables demo.cfg (wordAt demo (0 + 0 + l))
      (tab demo.cfg.twn fun f => wordAt demo (8 + (0 + l) * demo.cfg.twn + f))
      (tab demo.cfg.twn fun f => wordAt demo (0x18 + (0 + l) * demo.cfg.twn + f)) := by
  refine ⟨fun h => absurd h (by decide), fun l hl => ⟨fun _ => ⟨2, 9, 13, ?_⟩, fun h => absurd h (by decide)⟩⟩
  obtain rfl : l = 0 := by omega
  decide +kernel

theorem witness_OutOfRangeOrUnwrittenWordRefused :
    let s := patched 0x0D 17
    s.cfg.Valid ∧ s.cfg.nttConvention = .ref ∧ BoundaryOk s (.ntt 1 0 0x40 0x50 0 2 4 8) 1 0 ∧ ModuliOk s (0 + 0) 1 ∧
    OperandsOk s 0x40 1 (0 + 0) ∧ BarrettOk s (0 + 0) (2 + 0) (4 + 0) 1 ∧
    InputsWritten s (.ntt 1 0 0x40 0x50 0 2 4 8) ∧ InputsWritten s (.intt 1 0 0x40 0x50 0 2 4 8) ∧
    5 < 2 * s.cfg.ringDim ∧ refReads s.cfg 5 = true ∧
    wordAt s (0 + 0 + 0) ≤ wordAt s (8 + (0 + 0) * s.cfg.twn + 5) := by
  dsimp only
  and_intros <;> decide +kernel

/-- An unwritten input word, and unwritten Barrett constants, both entries and the last twiddle word `REF` reads. -/
theorem witness_OutOfRangeOrUnwrittenWordRefused_unwritten :
    demo.cfg.nttConvention = .ref ∧
    (BoundaryOk demo (.ntt 1 0 0x51 0x50 0 2 4 8) 1 0 ∧ ModuliOk demo (0 + 0) 1 ∧
      demo.ext.read (tiledAddr demo.cfg 0x51 0 3) = none) ∧
    (BoundaryOk demo (.ntt 1 0 0x40 0x50 0 0x60 0x70 0xF0) 1 0 ∧ demo.ext.read (0x60 + 0 + 0) = none ∧
      demo.ext.read (0x70 + 0 + 0) = none ∧ refReads demo.cfg 5 = true ∧
      demo.ext.read (0xF0 + (0 + 0) * demo.cfg.twn + 5) = none) := by
  and_intros <;> decide +kernel

theorem witness_StoreOfLoadCopies :
    demo.cfg.Valid ∧ (tiledSpan demo.cfg 0x40 2).inside demo.cfg.extWords ∧
    (tiledSpan demo.cfg 0xF8 2).inside demo.cfg.extWords := by
  decide +kernel

theorem witness_BconvResult :
    demo.cfg.Valid ∧ InRange demo (.bconv 0x80 0x88 0x98 0x90) ∧ ModuliOk demo 0x90 demo.cfg.sizeP ∧
    (∀ r ∈ readSpans demo.cfg (.bconv 0x80 0x88 0x98 0x90), ¬ (writeSpan demo.cfg (.bconv 0x80 0x88 0x98 0x90)).overlaps r) ∧
    (∀ r < demo.cfg.ringDim, ∀ c < demo.cfg.sizeP, (sumTo demo.cfg.sizeQ fun k =>
      wordAt demo (0x80 + r * demo.cfg.sizeQ + k) * wordAt demo (0x88 + k * demo.cfg.sizeP + c)) < 2 ^ demo.cfg.accWidth) := by
  decide +kernel

/-- A configured array with the weights and moduli of P3, every latch holding `x`. -/
def demoArray (x : Nat) : List (List Pe) :=
  [[10, 20, 30], [40, 50, 60]].map fun row => (row.zip [7, 11, 13]).map fun wm =>
    { wt := BitVec.ofNat 64 wm.1, md := BitVec.ofNat 64 wm.2, xr := BitVec.ofNat 64 x, sr := x }

/-- `demo` with that array, every latch 0. -/
def arrayDemo : State := { demo with pea := demoArray 0, captured := [0, 0, 0] }

theorem arrayDemo_runs : (bconvCycles 0x80 0x98 (runLength arrayDemo.cfg) 0 arrayDemo).toBool = true := by
  decide +kernel

theorem witness_InitialLatchesDoNotMatter :
    arrayDemo.cfg.Valid ∧ SameStationary arrayDemo.cfg arrayDemo.pea (demoArray 12345) ∧
    ∃ t, bconvCycles 0x80 0x98 (runLength arrayDemo.cfg) 0 arrayDemo = .ok t := by
  refine ⟨by decide, by decide, ?_⟩
  cases h : bconvCycles 0x80 0x98 (runLength arrayDemo.cfg) 0 arrayDemo with
  | ok t => exact ⟨t, rfl⟩
  | error e =>
    have hr := arrayDemo_runs
    rw [h] at hr
    cases hr

theorem witness_BconvAliasRefused :
    InRange demo (.bconv 0x80 0x88 0x86 0x90) ∧ ModuliOk demo 0x90 demo.cfg.sizeP ∧
    ∃ r ∈ readSpans demo.cfg (.bconv 0x80 0x88 0x86 0x90), r.Has 0x87 ∧
      (writeSpan demo.cfg (.bconv 0x80 0x88 0x86 0x90)).Has 0x87 := by decide +kernel

theorem witness_BconvOverflowRefused :
    let s : State := { demo with ext := put 0x80 (List.replicate 14 (2 ^ 64 - 1)) demoExt }
    InRange s (.bconv 0x80 0x88 0x98 0x90) ∧ ModuliOk s 0x90 s.cfg.sizeP ∧
    (∀ r ∈ readSpans s.cfg (.bconv 0x80 0x88 0x98 0x90), ¬ (writeSpan s.cfg (.bconv 0x80 0x88 0x98 0x90)).overlaps r) ∧
    2 ^ s.cfg.accWidth ≤ (sumTo s.cfg.sizeQ fun k =>
      wordAt s (0x80 + 3 * s.cfg.sizeQ + k) * wordAt s (0x88 + k * s.cfg.sizeP + 2)) := by
  dsimp only
  and_intros <;> decide +kernel

/-- A completed and a rejected tiled invocation. -/
theorem witness_TiledFrame :
    (Instr.auto 2 0 1 0x40 0x50 0).limbs = some 2 ∧
    (∃ t, exec (.auto 2 0 1 0x40 0x50 0) demo = .next t ∧ t.status.toNat = 0x2) ∧
    ∃ t, exec (.auto 3 0 1 0x40 0x50 0) demo = .next t ∧ t.status.toNat = 0x304 :=
  ⟨rfl, of_seen (base := 0) (n := 0) (ws := []) (by decide +kernel), of_seen (base := 0) (n := 0) (ws := []) (by decide +kernel)⟩

theorem witness_BconvFrame :
    (∃ t, exec (.bconv 0x80 0x88 0x98 0x90) demo = .next t ∧ t.status.toNat = 0x2) ∧
    ∃ t, exec (.bconv 0x80 0x88 0xF5 0x90) demo = .next t ∧ t.status.toNat = 0x804 :=
  ⟨of_seen (base := 0) (n := 0) (ws := []) (by decide +kernel), of_seen (base := 0) (n := 0) (ws := []) (by decide +kernel)⟩

/-- A state that meets the invariant and takes a step. -/
theorem witness_StepKeepsInvariant : Inv (started addDesc demo) ∧ ∃ t, step (started addDesc demo) = .next t := by
  refine ⟨⟨by decide, .inr (.inl rfl), by decide, by decide, ?_, ?_, ?_, ?_, by decide, by decide, rfl⟩,
    exists_of_isNext (by decide +kernel)⟩
  · exact ⟨by decide, by decide, by decide⟩
  · exact ⟨by decide, by decide, by decide⟩
  · exact ⟨by decide, by decide, by decide⟩
  · exact ⟨by decide, by decide, by decide⟩

theorem witness_ResetMeetsInvariant : Cfg.specExample.Valid := by decide

theorem witness_StepKeepsConfiguration : ∃ t, step demo = .next t := exists_of_isNext (by decide +kernel)

theorem witness_HostBytesDetermineTheWord :
    let c : Cfg := { Cfg.specExample with hostByteOrder := [7, 6, 5, 4, 3, 2, 1, 0] }
    c.Valid ∧ ∀ j < 8, hostByteOf c.hostByteOrder 0x0102030405060708 j = BitVec.ofNat 8 (j + 1) := by
  dsimp only
  and_intros <;> decide +kernel

end Sys2Proof.Tests
end

section
/-! PROOFS. Construction from a configuration: the checks of `Cfg.Valid` are the constraints of R8. -/

namespace Sys2Proof.Machine

/-- The check on `SQRT` says that it is a power of two, as R8 puts it. -/
theorem sqrt_check_iff (c : Cfg) : (1 ≤ c.sqrt ∧ 2 ^ c.logs = c.sqrt) ↔ ∃ k, c.sqrt = 2 ^ k := by
  constructor
  · rintro ⟨-, h⟩
    exact ⟨c.logs, h.symm⟩
  · rintro ⟨k, h⟩
    rw [Cfg.logs, h, Nat.log2_two_pow]
    exact ⟨Nat.one_le_two_pow, rfl⟩

/-- R8, R9: the construction checks are the constraints of R8 and the form of `HOST_BYTE_ORDER` (log 23). -/
theorem valid_iff (c : Cfg) : c.Valid ↔ ¬ BreaksR8 c ∧ ByteOrderOk c := by
  rw [Cfg.Valid, sqrt_check_iff]
  simp only [BreaksR8, ByteOrderOk, List.mem_range, not_or, not_and, not_forall, not_not, not_lt,
    Nat.one_le_iff_ne_zero, and_assoc, ne_eq]

theorem build_valid {c : Cfg} (h : c.Valid) : State.build c = some (State.resetOf c) := by
  rw [State.build, if_pos h]

theorem build_invalid {c : Cfg} (h : ¬ c.Valid) : State.build c = none := by
  rw [State.build, if_neg h]

/-- Settles O12: a configuration is valid just when it keeps R8 and lists the byte lanes, and `State.build` and
`step` look at nothing but its validity. -/
theorem invalidConfigBuildsNothing : Obligations.InvalidConfigBuildsNothing := by
  intro c
  refine ⟨build_valid, fun h => ⟨build_invalid h, ?_⟩, fun h => build_invalid fun hv => ?_, fun hr ho => ?_⟩
  · rintro s rfl
    exact step_invalid h
  · obtain ⟨hr, ho⟩ := (valid_iff c).1 hv
    exact h.elim hr (absurd ho)
  · exact build_valid ((valid_iff c).2 ⟨hr, ho⟩)

end Sys2Proof.Machine
end

section
/-! PROOFS. What one host access can do (R340), which accesses are refused (R37), and the mark REFUSED (R46). -/

namespace Sys2Proof.Machine

/-- R340, R331, R390: the host accesses the core accepts in `s`, each with the state it leaves. -/
inductive HostMove (s : State) : HostAction → State → Prop
  | readReg {r : Nat} {v : Word} (hr : r ≤ 8) (hv : descReg s.desc r = some (some v)) :
      HostMove s (.ctlRead r) { s with replies := v :: s.replies }
  | readCtrl : HostMove s (.ctlRead 9) { s with replies := 0 :: s.replies }
  | readStatus : HostMove s (.ctlRead 10) { s with replies := s.status :: s.replies }
  | writeReg {r : Nat} {v : Word} (hb : s.busy = false) (hr : r ≤ 8) :
      HostMove s (.ctlWrite r v) { s with desc := setDescReg s.desc r v }
  | writeClear {v : Word} (hb : s.busy = false) (hv : v.getLsbD 0 = false) : HostMove s (.ctlWrite 9 v) s
  | go {v : Word} {d : Desc Word} (hb : s.busy = false) (hv : v.getLsbD 0 = true) (hd : s.desc = writtenRegs d) :
      HostMove s (.ctlWrite 9 v) (acceptGo d s)
  | readWord {x : Nat} (hb : s.busy = false) (hx : x < s.cfg.extWords) :
      HostMove s (.memRead x) { s with replies := extWord s.ext x :: s.replies }
  | writeWord {x : Nat} {v : Word} (hb : s.busy = false) (hx : x < s.cfg.extWords) :
      HostMove s (.memWrite x v) { s with ext := s.ext.write x v }
  | reset : HostMove s .reset (resetEvent s)

theorem ctlRead_above {r : Nat} (hr : 10 < r) (s : State) : ctlRead r s = .refused .hostBusy := by
  rw [ctlRead, if_neg (by omega), if_neg (by omega), if_neg (by omega)]

theorem ctlWrite_above {r : Nat} (hr : 10 ≤ r) (v : Word) (s : State) : ctlWrite r v s = .refused .hostBusy := by
  cases hb : s.busy
  · rw [ctlWrite, if_neg (by simp [hb]), if_neg (by omega), if_neg (by omega)]
  · exact ctlWrite_busy hb r v

/-- The two ways an access to EXT is illegal exclude the condition it is accepted under. -/
theorem not_extAccess {s : State} {x : Nat} (h : s.busy = true ∨ s.cfg.extWords ≤ x) :
    ¬ (s.busy = false ∧ x < s.cfg.extWords) :=
  fun ⟨hb, hx⟩ => h.elim (by simp [hb]) (Nat.not_le.2 hx)

theorem hostMemRead_illegal {s : State} {x : Nat} (h : s.busy = true ∨ s.cfg.extWords ≤ x) :
    hostMemRead x s = .refused .hostBusy := by rw [hostMemRead, if_neg (not_extAccess h)]

theorem hostMemWrite_illegal {s : State} {x : Nat} (h : s.busy = true ∨ s.cfg.extWords ≤ x) (v : Word) :
    hostMemWrite x v s = .refused .hostBusy := by rw [hostMemWrite, if_neg (not_extAccess h)]

/-- R37: the accesses that `Illegal` names are refused. -/
theorem hostAct_illegal {s : State} {a : HostAction} (h : Illegal s a) : hostAct a s = .refused .hostBusy := by
  cases a with
  | ctlRead r => exact ctlRead_above h s
  | ctlWrite r v =>
    rcases h with ⟨hb, -⟩ | hr
    · exact ctlWrite_busy hb r v
    · exact ctlWrite_above hr v s
  | memRead x => exact hostMemRead_illegal h
  | memWrite x v => exact hostMemWrite_illegal h v
  | reset => exact h.elim

/-- Whether an access is legal depends on neither the rest of the queue nor the schedule. -/
theorem Illegal.with_queues {s : State} {a : HostAction} (h : Illegal s a) (rest : List HostAction) (ts : List Agent) :
    Illegal { s with host := rest, turns := ts } a := by
  cases a <;> exact h

/-- Settles O9: the host's turn is the access itself, and an illegal one is refused whatever the queue and the
schedule hold. -/
theorem illegalHostAccessRefused : Obligations.IllegalHostAccessRefused := by
  intro s a rest ts hg hn hs hi
  have href : step s = .refused .hostBusy :=
    (step_host_cons hg hn hs).trans (hostAct_illegal (hi.with_queues rest ts))
  exact ⟨href, by rw [href, settle_refused]⟩

/-! What a step that goes on can do. -/

theorem ctlRead_eq_next {r : Nat} {s t : State} (h : ctlRead r s = .next t) : HostMove s (.ctlRead r) t := by
  rw [ctlRead] at h
  split_ifs at h with h8 h9 h10
  · split at h
    case h_1 v hv => cases h; exact .readReg h8 hv
    case h_2 => cases h
  · subst h9; cases h; exact .readCtrl
  · subst h10; cases h; exact .readStatus

theorem goWrite_eq_next {v : Word} {s t : State} (hb : s.busy = false) (h : goWrite v s = .next t) :
    HostMove s (.ctlWrite 9 v) t := by
  rw [goWrite] at h
  split_ifs at h with hv
  · split at h
    case h_1 d hd => cases h; exact .go hb hv (writtenDesc_eq_some hd)
    case h_2 => cases h
  · cases h; exact .writeClear hb (Bool.eq_false_iff.2 hv)

theorem ctlWrite_eq_next {r : Nat} {v : Word} {s t : State} (h : ctlWrite r v s = .next t) :
    HostMove s (.ctlWrite r v) t := by
  rw [ctlWrite] at h
  split_ifs at h with hb h8 h9
  · cases h; exact .writeReg (Bool.eq_false_iff.2 hb) h8
  · subst h9; exact goWrite_eq_next (Bool.eq_false_iff.2 hb) h

theorem hostMemRead_eq_next {x : Nat} {s t : State} (h : hostMemRead x s = .next t) : HostMove s (.memRead x) t := by
  rw [hostMemRead] at h
  split_ifs at h with hx
  cases h; exact .readWord hx.1 hx.2

theorem hostMemWrite_eq_next {x : Nat} {v : Word} {s t : State} (h : hostMemWrite x v s = .next t) :
    HostMove s (.memWrite x v) t := by
  rw [hostMemWrite] at h
  split_ifs at h with hx
  cases h; exact .writeWord hx.1 hx.2

/-- An access that goes on is one the core accepts, and leaves the state R340 gives it. -/
theorem hostAct_eq_next {a : HostAction} {s t : State} (h : hostAct a s = .next t) : HostMove s a t := by
  cases a with
  | ctlRead r => exact ctlRead_eq_next h
  | ctlWrite r v => exact ctlWrite_eq_next h
  | memRead x => exact hostMemRead_eq_next h
  | memWrite x v => exact hostMemWrite_eq_next h
  | reset => cases h; exact .reset

/-- R339: a step that goes on is the core's turn, a host's turn with nothing to do, or one host access. -/
theorem step_next_cases {s t : State} (h : step s = .next t) :
    (CoreNext s ∧ runSnapshot { s with turns := s.turns.tail } = .next t) ∨
      ∃ ts, HostNext s ts ∧ ((s.host = [] ∧ t = { s with turns := ts }) ∨
        ∃ a rest, s.host = a :: rest ∧ HostMove { s with host := rest, turns := ts } a t) := by
  obtain ⟨hg, -⟩ := step_eq_next h
  rcases core_or_host s with hc | ⟨ts, hn⟩
  · exact .inl ⟨hc, by rwa [step_core hg hc] at h⟩
  · refine .inr ⟨ts, hn, ?_⟩
    by_cases hs : s.host = []
    · rw [step_host_nil hg hn hs] at h; cases h; exact .inl ⟨hs, rfl⟩
    · obtain ⟨a, rest, hs⟩ := List.exists_cons_of_ne_nil hs
      rw [step_host_cons hg hn hs] at h; exact .inr ⟨a, rest, hs, hostAct_eq_next h⟩

/-- The core's turn leaves the host's side of the state and the configuration alone, and the mark with them. -/
theorem runSnapshot_sameControl {s t : State} (h : runSnapshot s = .next t) : SameControl s t := by
  rcases runSnapshot_eq_next h with ⟨i, -, he⟩ | ⟨code, rfl⟩
  · exact exec_sameControl he
  · exact ⟨rfl, rfl, rfl, rfl, rfl, rfl, rfl⟩

/-- R46: no host access sets the mark; a reset event too leaves it false (R390). -/
theorem HostMove.refused_false {s t : State} {a : HostAction} (h : HostMove s a t) (hr : s.refused = false) :
    t.refused = false := by
  cases h with
  | reset => rfl
  | _ => exact hr

/-- R46: a step that goes on leaves no mark. -/
theorem step_next_refused_false {s t : State} (h : step s = .next t) : t.refused = false := by
  obtain ⟨⟨-, hr⟩, -⟩ := step_eq_next h
  rcases step_next_cases h with ⟨-, hc⟩ | ⟨ts, -, ⟨-, rfl⟩ | ⟨a, rest, -, hm⟩⟩
  · exact (runSnapshot_sameControl hc).refused.trans hr
  · exact hr
  · exact hm.refused_false hr

/-- Settles O11: the guard of `step` stops a marked machine before any turn, and no turn that goes on sets the mark. -/
theorem refusalIsPermanent : Obligations.RefusalIsPermanent := by
  intro s
  refine ⟨fun r hr => by rw [hr, settle_refused], step_refused, fun t ht => ?_⟩
  obtain ⟨⟨-, hr⟩, -⟩ := step_eq_next ht
  exact ⟨hr, step_next_refused_false ht⟩

end Sys2Proof.Machine
end

section
/-! PROOFS. The host's view of EXT: what a read returns after a write (R74, R340), and the bytes of a word (R72). -/

namespace Sys2Proof.Machine

/-- R74: the word EXT holds after a write: the written one at its address, the old one everywhere else. -/
theorem extWord_write (m : Memory) (a b : Nat) (v : Word) :
    extWord (m.write a v) b = if b = a then v else extWord m b := by
  rw [extWord, Memory.read_write]
  split_ifs <;> rfl

/-- R340: the step of an idle machine whose host writes a word of EXT. -/
theorem step_memWrite {s : State} (hg : Going s) (hb : s.busy = false) {a : Nat} (ha : a < s.cfg.extWords) {v : Word}
    {rest : List HostAction} (hs : s.host = .memWrite a v :: rest) :
    step s = .next { s with host := rest, ext := s.ext.write a v } :=
  (step_host_cons hg (.inl ⟨hb, rfl⟩) hs).trans
    (hostMemWrite_ok (s := { s with host := rest }) hb ha v)

/-- R340: the step of an idle machine whose host reads a word of EXT. -/
theorem step_memRead {s : State} (hg : Going s) (hb : s.busy = false) {a : Nat} (ha : a < s.cfg.extWords)
    {rest : List HostAction} (hs : s.host = .memRead a :: rest) :
    step s = .next { s with host := rest, replies := extWord s.ext a :: s.replies } :=
  (step_host_cons hg (.inl ⟨hb, rfl⟩) hs).trans
    (hostMemRead_ok (s := { s with host := rest }) hb ha)

/-- A write and then a read: the read returns what EXT holds after the write. -/
theorem run_memWrite_memRead {s : State} (hg : Going s) (hb : s.busy = false) {a b : Nat} (ha : a < s.cfg.extWords)
    (hb' : b < s.cfg.extWords) {v : Word} {rest : List HostAction}
    (hs : s.host = .memWrite a v :: .memRead b :: rest) :
    core.run 2 s = .next { s with
      host := rest
      ext := s.ext.write a v
      replies := (if b = a then v else extWord s.ext b) :: s.replies } := by
  rw [← extWord_write]
  exact run_two (step_memWrite hg hb ha hs)
    (step_memRead (s := { s with host := .memRead b :: rest, ext := s.ext.write a v }) hg hb hb' rfl)

/-- Settles O10: a write replaces one word of EXT, and a read returns the word EXT holds and changes only the
replies. -/
theorem hostMemoryKeepsWrites : Obligations.HostMemoryKeepsWrites := by
  refine ⟨fun s a b v rest hg hb ha hb' hs => ?_, fun s b rest hg hb hb' hs => ⟨extWord s.ext b, ?_⟩⟩
  · have hrun := run_memWrite_memRead hg hb ha hb' hs
    refine ⟨fun h => ?_, fun h w hw => ?_, fun h _ => ⟨extWord s.ext b, ?_⟩⟩
    · rwa [if_pos h] at hrun
    · rwa [if_neg h, extWord_of_read hw] at hrun
    · rwa [if_neg h] at hrun
  · exact run_two (step_memRead hg hb hb' hs)
      (step_memRead (s := { s with host := .memRead b :: rest, replies := extWord s.ext b :: s.replies }) hg hb hb' rfl)

/-- R72: host byte `j` of a word is the byte of its lane. -/
theorem getLsbD_hostByteOf (order : List Nat) (w : Word) (j : Nat) {k : Nat} (hk : k < 8) :
    (hostByteOf order w j).getLsbD k = w.getLsbD (8 * order.getD j 0 + k) := by
  rw [hostByteOf, BitVec.getLsbD_ofNat, Nat.testBit_div_two_pow, decide_eq_true hk, Bool.true_and, Nat.add_comm]
  rfl

/-- Settles O60: bit `i` of a word is bit `i % 8` of lane `i / 8`, and the byte order lists that lane. -/
theorem hostBytesDetermineTheWord : Obligations.HostBytesDetermineTheWord := by
  intro c v w hv hbytes
  obtain ⟨-, hlen, hlanes⟩ := (valid_iff c).1 hv
  refine BitVec.eq_of_getLsbD_eq fun i hi => ?_
  obtain ⟨j, hj, hlane⟩ := exists_getD_of_mem (hlanes (i / 8) (by omega)) 0
  have hbit := congrArg (BitVec.getLsbD · (i % 8)) (hbytes j (hlen ▸ hj))
  have hk : i % 8 < 8 := Nat.mod_lt _ (by decide)
  simpa only [getLsbD_hostByteOf _ _ _ hk, hlane, Nat.div_add_mod] using hbit

end Sys2Proof.Machine
end

section
/-! PROOFS. BCONV up to its alias check (R305, R89). -/

namespace Sys2Proof.Machine

/-- R89: two ranges with a common word overlap. -/
theorem Span.overlaps_of_common {r t : Span} {x : Nat} (hr : r.Has x) (ht : t.Has x) : r.overlaps t := by
  unfold Span.Has at hr ht
  unfold Span.overlaps
  omega

/-- R109: the moduli of a BCONV are words of EXT. -/
theorem bconv_moduli_inside {s : State} {a b d m : Nat} (h : InRange s (.bconv a b d m)) :
    ∀ l < s.cfg.sizeP, m + l < s.cfg.extWords := by
  have hin : Span.inside s.cfg.extWords ⟨m, s.cfg.sizeP⟩ := h.1 _ (by simp [readSpans])
  exact fun l hl => Span.lt_of_inside hin hl

/-- R305, R89: BCONV stops at its alias check when the boundary checks pass and the output overlaps an input. -/
theorem kernel_bconv_alias {s : State} {a b d m : Nat} (hr : InRange s (.bconv a b d m))
    (hm : ModuliOk s m s.cfg.sizeP) {r : Span} (hin : r ∈ readSpans s.cfg (.bconv a b d m))
    (ho : (writeSpan s.cfg (.bconv a b d m)).overlaps r) :
    kernel (.bconv a b d m) s = .error (.refuse .bconvAlias) := by
  have hfail : ¬ ∀ r ∈ readSpans s.cfg (.bconv a b d m), ¬ (writeSpan s.cfg (.bconv a b d m)).overlaps r :=
    fun hnone => hnone r hin ho
  rw [kernel, baseConvert, checkRange, check_of_pos hr, ok_bind, readModuli_ok (bconv_moduli_inside hr) hm, ok_bind,
    check_of_neg hfail, error_bind]

/-- Settles O53: a common word makes the two ranges overlap, which the alias check refuses. -/
theorem bconvAliasRefused : Obligations.BconvAliasRefused := by
  rintro s a b d m hr hm ⟨r, hin, x, hx, hwx⟩
  rw [exec_eq_finish, kernel_bconv_alias hr hm hin (Span.overlaps_of_common hwx hx), finish_refuse]

end Sys2Proof.Machine
end

section
/-! PROOFS. The decoder: the fields it reads (R108), the worked words (R117), and the reserved encodings (R114). -/

namespace Sys2Proof.Machine

/-- R108: the decoder reads the opcode, `RSV` and the fields the opcode uses, and nothing else of a descriptor. -/
theorem decode_congr {d e : Desc Word} (extOps : Bool) (ho : d.opc = e.opc) (hr : d.rsv = e.rsv)
    (hu : usedFields d.opc d = usedFields e.opc e) : decode extOps d = decode extOps e := by
  by_cases hres : 10 ≤ d.opc ∨ (7 ≤ d.opc ∧ extOps = false)
  · rw [decode_reserved hres, decode_reserved (ho ▸ hres)]
  · have hlt : d.opc < 10 := by omega
    rw [decode, decode, ← ho, ← hr, if_neg hres, if_neg hres]
    refine if_congr Iff.rfl rfl ?_
    -- past the two checks the opcode alone picks the fields; what the checks said of it is no help any more
    rw [← ho] at hu
    clear ho hr hres
    generalize d.opc = k at hu hlt
    interval_cases k <;> simp_all [usedFields]

/-- Settles O2: the nine words are closed, and the decoder computes. -/
theorem workedWordsDecode : Obligations.WorkedWordsDecode := by
  unfold Obligations.WorkedWordsDecode
  decide +kernel

/-- Settles O3: the core's turn runs the decoder's answer, which is one of three (R114). -/
theorem reservedEncodingsRaise : Obligations.ReservedEncodingsRaise := by
  intro s hg hc here reserved
  refine ⟨fun h => step_core_reject hg hc (decode_reserved h), fun h hr => step_core_reject hg hc (decode_rsv h hr),
    fun h hr => ?_⟩
  obtain ⟨i, hd, ho⟩ := decode_instr h hr
  exact ⟨i, hd, ho, step_core_instr hg hc hd⟩

end Sys2Proof.Machine
end

section
/-! PROOFS. BCONV does not depend on the initial latches (R302): two runs over the same weights and moduli, with
whatever latches, converge. -/

namespace Sys2Proof.Machine

/-- Results that end alike under a relation do so under a weaker one. -/
theorem Alike.mono {α : Type} {Q R : α → α → Prop} {x y : Res α} (h : Alike Q x y) (hqr : ∀ a b, Q a b → R a b) :
    Alike R x y := by
  cases x <;> cases y
  case ok.ok a b => exact hqr a b h
  all_goals exact h

/-- Two runs of the array under the configuration `c`, each before its cycle `n`: they agree on EXT, the counts and
the stationary values, and on the latches that words fed since cycle 0 have reached. An `x` value takes `col + 1`
cycles to reach column `col`, and a sum `k` cycles more to come down to row `k` (R294 to R296). -/
structure Converging (c : Cfg) (n : Nat) (s t : State) : Prop where
  cfgLeft : s.cfg = c
  cfgRight : t.cfg = c
  ext : t.ext = s.ext
  captured : t.captured = s.captured
  stationary : SameStationary c s.pea t.pea
  xr : ∀ k < c.sizeQ, ∀ col < c.sizeP, col < n → (peAt t.pea k col).xr = (peAt s.pea k col).xr
  sr : ∀ k < c.sizeQ, ∀ col < c.sizeP, k + col < n → (peAt t.pea k col).sr = (peAt s.pea k col).sr

variable {c : Cfg} {n : Nat} {s t : State}

theorem Converging.sameInputs (h : Converging c n s t) : SameInputs s t := ⟨h.cfgRight.trans h.cfgLeft.symm, h.ext⟩

/-- The cycle counter is no part of the agreement. -/
theorem Converging.with_cyc (h : Converging c n s t) (i : Nat) :
    Converging c n { s with cyc := i } { t with cyc := i } :=
  ⟨h.cfgLeft, h.cfgRight, h.ext, h.captured, h.stationary, h.xr, h.sr⟩

/-- R302: before the first cycle nothing is asked of the latches. -/
theorem converging_zero (hs : s.cfg = c) (ht : t.cfg = c) (he : t.ext = s.ext) (hc : t.captured = s.captured)
    (hp : SameStationary c s.pea t.pea) : Converging c 0 s t :=
  ⟨hs, ht, he, hc, hp, fun _ _ _ _ h => absurd h (Nat.not_lt_zero _), fun _ _ _ _ h => absurd h (Nat.not_lt_zero _)⟩

/-- R298: a collector at work in cycle `n` reads a sum that has come down from row 0 since cycle 0. -/
theorem collectColumn_converging (h : Converging c n s t) (hq : 1 ≤ c.sizeQ) (dst : Nat) {col : Nat}
    (hcol : col < c.sizeP) : Alike (Converging c n) (collectColumn dst n col s) (collectColumn dst n col t) := by
  simp only [collectColumn, coreWrite, h.cfgLeft, h.cfgRight, h.ext, h.captured]
  split_ifs with hrun hin
  · have hmd := (h.stationary (c.sizeQ - 1) (by omega) col hcol).2
    have hsr := h.sr (c.sizeQ - 1) (by omega) col hcol (by omega)
    rw [hmd, hsr]
    exact ⟨rfl, rfl, rfl, rfl, h.stationary, h.xr, h.sr⟩
  · exact rfl
  · exact h

/-- R299. -/
theorem collect_converging (h : Converging c n s t) (hq : 1 ≤ c.sizeQ) (dst : Nat) {m : Nat} (hm : m ≤ c.sizeP) :
    Alike (Converging c n) (collect dst n m s) (collect dst n m t) := by
  induction m with
  | zero => exact h
  | succ m ih => exact (ih (by omega)).bind fun _ _ h' => collectColumn_converging h' hq dst hm

/-- R294 to R296: the cells move the agreement one column and one row on. -/
theorem stepCells_converging (h : Converging c n s t) (feeds : List Word) :
    Converging c (n + 1) (stepCells feeds s) (stepCells feeds t) := by
  obtain ⟨p, hs, -, hp⟩ := stepCells_eq feeds s
  obtain ⟨p', ht, -, hp'⟩ := stepCells_eq feeds t
  rw [h.cfgLeft] at hp
  rw [h.cfgRight] at hp'
  rw [hs, ht]
  have hx : ∀ k < c.sizeQ, ∀ col < c.sizeP, col < n + 1 →
      (if col = 0 then feeds.getD k 0 else (peAt t.pea k (col - 1)).xr) =
        if col = 0 then feeds.getD k 0 else (peAt s.pea k (col - 1)).xr := by
    intro k hk col hcol hn
    split_ifs with h0
    · rfl
    · exact h.xr k hk (col - 1) (by omega) (by omega)
  refine ⟨h.cfgLeft, h.cfgRight, h.ext, h.captured, fun k hk col hcol => ?_, fun k hk col hcol hn => ?_,
    fun k hk col hcol hn => ?_⟩
  · rw [hp k hk col hcol, hp' k hk col hcol]
    exact h.stationary k hk col hcol
  · rw [hp k hk col hcol, hp' k hk col hcol]
    exact hx k hk col hcol hn
  · have hsum : (if k = 0 then 0 else (peAt t.pea (k - 1) col).sr) =
        if k = 0 then 0 else (peAt s.pea (k - 1) col).sr := by
      split_ifs with h0
      · rfl
      · exact h.sr (k - 1) (by omega) col hcol (by omega)
    rw [hp k hk col hcol, hp' k hk col hcol]
    simp only [hx k hk col hcol (by omega), hsum, (h.stationary k hk col hcol).1]

/-- R305: one cycle. -/
theorem bconvCycle_converging (h : Converging c n s t) (hq : 1 ≤ c.sizeQ) (src dst : Nat) :
    Alike (Converging c (n + 1)) (bconvCycle src dst n s) (bconvCycle src dst n t) := by
  have hs : s.cfg.sizeP = c.sizeP := congrArg Cfg.sizeP h.cfgLeft
  have ht : t.cfg.sizeP = c.sizeP := congrArg Cfg.sizeP h.cfgRight
  rw [bconvCycle, bconvCycle, hs, ht]
  refine (collect_converging (h.with_cyc n) hq dst le_rfl).bind fun s' t' h' => ?_
  refine Alike.bind_eq ?_ fun feeds => stepCells_converging h' feeds
  rw [h'.cfgLeft, h'.cfgRight, funext fun k => feed_same h'.sameInputs src k n]

/-- R302: runs over the same weights and moduli end alike, whatever the latches they start from. -/
theorem bconvCycles_converging (h : Converging c n s t) (hq : 1 ≤ c.sizeQ) (src dst m : Nat) :
    Alike (Converging c (n + m)) (bconvCycles src dst m n s) (bconvCycles src dst m n t) := by
  induction m generalizing n s t with
  | zero => exact h
  | succ m ih =>
    refine (bconvCycle_converging h hq src dst).bind fun s' t' h' => ?_
    rw [← Nat.add_assoc, Nat.add_right_comm]
    exact ih h'

/-- R43: two elements with one weight and one modulus; their latches need not agree. -/
abbrev SamePe (p p' : Pe) : Prop := p'.wt = p.wt ∧ p'.md = p.md

/-- R293: configuration reads the same weights and moduli; its latches are free draws. -/
theorem configure_converging (h : SameInputs s t) (src2 modb : Nat) :
    Alike (Converging s.cfg 0) (configure src2 modb s) (configure src2 modb t) := by
  simp only [configure, h.cfg, coreRead_same h]
  refine (gather_alike fun k _ => gather_alike (R := SamePe) fun col _ => Alike.bind_eq rfl fun w =>
    Alike.bind_eq rfl fun q => ?_).bind fun p p' hp => ?_
  · exact ⟨rfl, rfl⟩
  · exact converging_zero rfl rfl h.ext rfl fun k hk col hcol => hp [] k hk _ col hcol

end Sys2Proof.Machine
end

section
/-! PROOFS. What an invocation answers depends on the configuration, EXT and the fields its opcode uses (R108, R338). -/

namespace Sys2Proof.Machine

variable {s t : State}

theorem readModuli_same (h : SameInputs s t) (base n : Nat) : readModuli t base n = readModuli s base n := by
  simp only [readModuli, coreRead_same h]

theorem checkLimbs_same (h : SameInputs s t) (n : Nat) : checkLimbs t n = checkLimbs s n := by
  simp only [checkLimbs, h.cfg]

theorem checkRange_same (h : SameInputs s t) (i : Instr) : checkRange t i = checkRange s i := by
  simp only [checkRange, h.cfg]

/-- R171, R172: ADD and SUB. -/
theorem addSub_same (h : SameInputs s t) (plus : Bool) (i : Instr) (n off a b d m : Nat) :
    Alike SameInputs (addSub plus i n off a b d m s) (addSub plus i n off a b d m t) :=
  Alike.bind_eq (modularBoundary_same h i n off m) fun qs =>
    Alike.bind_eq (operandsBelow_same h a n qs) fun _ =>
    Alike.bind_eq (operandsBelow_same h b n qs) fun _ => runElementwise_same h _ n a b d

/-- R173: MUL. -/
theorem mulLimbs_same (h : SameInputs s t) (i : Instr) (n off a b d m kh mu : Nat) :
    Alike SameInputs (mulLimbs i n off a b d m kh mu s) (mulLimbs i n off a b d m kh mu t) :=
  Alike.bind_eq (modularBoundary_same h i n off m) fun qs =>
    Alike.bind_eq (operandsBelow_same h a n qs) fun _ =>
    Alike.bind_eq (operandsBelow_same h b n qs) fun _ =>
    Alike.bind_eq (readBarrett_same h kh mu off n qs) fun _ => runElementwise_same h _ n a b d

/-- R240, R241: NTT and INTT. -/
theorem transformLimbs_same (h : SameInputs s t) (forward : Bool) (i : Instr) (n off a d m kh mu tw : Nat) :
    Alike SameInputs (transformLimbs forward i n off a d m kh mu tw s)
      (transformLimbs forward i n off a d m kh mu tw t) :=
  Alike.bind_eq (modularBoundary_same h i n off m) fun qs =>
    Alike.bind_eq (checkWritten_same h i) fun _ =>
    Alike.bind_eq (operandsBelow_same h a n qs) fun _ =>
    Alike.bind_eq (readBarrett_same h kh mu off n qs) fun _ =>
    Alike.bind_eq (by simp only [readTable_same h, h.cfg]) fun tables => runTransform_same h forward _ tables n a d

/-- R200: AUTO. -/
theorem autoLimbs_same (h : SameInputs s t) (i : Instr) (n off st a d m : Nat) :
    Alike SameInputs (autoLimbs i n off st a d m s) (autoLimbs i n off st a d m t) :=
  Alike.bind_eq (modularBoundary_same h i n off m) fun qs => by
    simp only [h.cfg]
    exact Alike.bind_eq rfl fun _ =>
      Alike.bind_eq (operandsBelow_same h a n qs) fun _ => runPermutation_same h _ n a d

/-- R201, R202: ILV_R and ILV_L. -/
theorem interleaveLimbs_same (h : SameInputs s t) (right : Bool) (i : Instr) (n a d : Nat) :
    Alike SameInputs (interleaveLimbs right i n a d s) (interleaveLimbs right i n a d t) :=
  Alike.bind_eq (checkLimbs_same h n) fun _ => Alike.bind_eq (checkRange_same h i) fun _ => by
    simp only [h.cfg]
    exact runPermutation_same h _ n a d

/-- R305, R302: BCONV, whatever the latches. -/
theorem baseConvert_same (h : SameInputs s t) (hv : s.cfg.Valid) (i : Instr) (a b d m : Nat) :
    Alike SameInputs (baseConvert i a b d m s) (baseConvert i a b d m t) := by
  obtain ⟨-, -, -, -, hq, -⟩ := hv
  refine Alike.bind_eq (checkRange_same h i) fun _ => ?_
  simp only [h.cfg, exactSum_same h]
  refine Alike.bind_eq (readModuli_same h m _) fun _ => Alike.bind_eq rfl fun _ => Alike.bind_eq rfl fun _ => ?_
  refine (configure_converging (beginKernel_same h) b m).bind fun s' t' h' => ?_
  exact (bconvCycles_converging h' hq a d _).mono fun _ _ h => h.sameInputs

/-- R338: phases 2 to 4 of an invocation depend on the configuration and EXT alone. -/
theorem kernel_same (h : SameInputs s t) (hv : s.cfg.Valid) (i : Instr) :
    Alike SameInputs (kernel i s) (kernel i t) := by
  cases i with
  | init => exact rfl
  | add => exact addSub_same h ..
  | sub => exact addSub_same h ..
  | mul => exact mulLimbs_same h ..
  | ntt => exact transformLimbs_same h ..
  | intt => exact transformLimbs_same h ..
  | bconv => exact baseConvert_same h hv ..
  | auto => exact autoLimbs_same h ..
  | ilvR => exact interleaveLimbs_same h ..
  | ilvL => exact interleaveLimbs_same h ..

/-- R332: results that end alike are reported alike. -/
theorem finish_sameEnd (h : SameInputs s t) {x y : Res State} (hxy : Alike SameInputs x y) :
    SameEnd (finish s x) (finish t y) := by
  cases x <;> cases y
  case ok.ok => exact ⟨rfl, hxy.ext.symm⟩
  case error.error e e' =>
    obtain rfl : e = e' := hxy
    cases e with
    | raise code => exact ⟨rfl, h.ext.symm⟩
    | refuse reason => exact rfl
    | fault reason => exact rfl
  all_goals exact hxy.elim

theorem exec_sameEnd (h : SameInputs s t) (hv : s.cfg.Valid) (i : Instr) : SameEnd (exec i s) (exec i t) := by
  rw [exec_eq_finish, exec_eq_finish]
  exact finish_sameEnd h (kernel_same h hv i)

/-- R338: the core's turn depends on the configuration, EXT and what the snapshot decodes to. -/
theorem runSnapshot_sameEnd (h : SameInputs s t) (hv : s.cfg.Valid)
    (hd : decode s.cfg.extPermOps s.snap = decode s.cfg.extPermOps t.snap) :
    SameEnd (runSnapshot s) (runSnapshot t) := by
  cases hs : decode s.cfg.extPermOps s.snap with
  | instr i =>
    rw [runSnapshot_instr hs, runSnapshot_instr (by rw [h.cfg, ← hd, hs])]
    exact exec_sameEnd h hv i
  | reject code =>
    rw [runSnapshot_reject hs, runSnapshot_reject (by rw [h.cfg, ← hd, hs])]
    exact ⟨rfl, h.ext.symm⟩

/-- Settles O4: the decoder reads the used fields alone, and two invocations of one instruction over one EXT end
alike. -/
theorem unusedFieldsIgnored : Obligations.UnusedFieldsIgnored := by
  refine ⟨fun extOps d e => decode_congr extOps, fun s t hs ht hcs hct hcfg hext ho hr hu => ?_⟩
  rw [step_core hs hcs, step_core ht hct]
  exact runSnapshot_sameEnd ⟨hcfg, hext⟩ hs.1 (decode_congr _ ho hr hu)

end Sys2Proof.Machine
end

section
/-! PROOFS. The ModularArithmeticUnit (R140 to R149): each function computes its operation modulo `q`. -/

namespace Sys2Proof.Machine

/-! One conditional subtraction, which AddMod, NegMod and the Barrett multiplier share. -/

theorem correctOnce_eq_mod {q r : Nat} (h : r < 2 * q) : correctOnce q r = r % q := by
  unfold correctOnce
  split_ifs with hr
  · rw [Nat.mod_eq_sub_mod hr, Nat.mod_eq_of_lt (by omega)]
  · rw [Nat.mod_eq_of_lt (by omega)]

/-- R145: two correction stages reduce a number below `3q`. -/
theorem correctOnce_twice {q r : Nat} (h : r < 3 * q) : correctOnce q (correctOnce q r) = r % q := by
  by_cases hr : q ≤ r
  · have hstage : correctOnce q r = r - q := if_pos hr
    rw [hstage, correctOnce_eq_mod (by omega), ← Nat.mod_eq_sub_mod hr]
  · have hstage : correctOnce q r = r := if_neg hr
    rw [hstage, correctOnce_eq_mod (by omega)]

/-! AddMod (R141, R142) and NegMod (R149). -/

theorem addMod_true (a b q : Nat) : addMod a b q true = correctOnce q (a + b) := rfl

/-- R141. -/
theorem addMod_add {a b q : Nat} (ha : a < q) (hb : b < q) : addMod a b q true = (a + b) % q := by
  rw [addMod_true, correctOnce_eq_mod (by omega)]

/-- R142. -/
theorem addMod_sub {a b q : Nat} (ha : a < q) (hb : b < q) : addMod a b q false = (a + q - b) % q := by
  by_cases h : b ≤ a
  · have hr : addMod a b q false = a - b := if_pos h
    rw [hr, Nat.sub_add_comm h, Nat.add_mod_right, Nat.mod_eq_of_lt (by omega)]
  · have hr : addMod a b q false = a + q - b := if_neg h
    rw [hr, Nat.mod_eq_of_lt (by omega)]

@[simp] theorem negMod_zero (q : Nat) : negMod 0 q = 0 := rfl

/-- R149. -/
theorem negMod_eq_mod {x q : Nat} (hx : x < q) : negMod x q = (q - x) % q := by
  by_cases h : x = 0
  · rw [h, negMod_zero, Nat.sub_zero, Nat.mod_self]
  · have hr : negMod x q = q - x := if_neg h
    rw [hr, Nat.mod_eq_of_lt (by omega)]

/-- Settles O24: one subtraction of `q` reduces the sum, which is below `2q`. -/
theorem addModAddsModulo : Obligations.AddModAddsModulo :=
  fun _ _ _ _ _ ha hb => ⟨addMod_add ha hb, by omega⟩

/-- Settles O25: `q` is added just when the difference would be negative. -/
theorem addModSubtractsModulo : Obligations.AddModSubtractsModulo :=
  fun _ _ _ _ _ ha hb => addMod_sub ha hb

/-- Settles O29: `q - x` is below `q` but for `x = 0`, which is kept. -/
theorem negModNegatesModulo : Obligations.NegModNegatesModulo :=
  fun x q hx => ⟨negMod_eq_mod hx, negMod_eq_mod hx ▸ Nat.mod_lt _ (by omega), negMod_zero q⟩

/-! Karatsuba (R148). -/

/-- R148: the middle coefficient from the one further product. -/
theorem karatsuba_middle (a0 a1 b0 b1 : Nat) :
    (a0 + a1) * (b0 + b1) - a0 * b0 - a1 * b1 = a0 * b1 + a1 * b0 := by
  rw [Nat.sub_sub]
  exact Nat.sub_eq_of_eq_add (by ring)

/-- Settles O28: the three products are the coefficients of the product of the halves, which fits 128 bits. -/
theorem karatsubaIsExact : Obligations.KaratsubaIsExact := by
  intro a b
  have hfits : a.toNat * b.toNat < 2 ^ 128 := by
    simpa [← pow_add] using Nat.mul_lt_mul'' a.isLt b.isLt
  have hvalue : karatsuba a b = BitVec.ofNat 128 (a.toNat * b.toNat) := by
    simp only [karatsuba, karatsuba_middle]
    conv_rhs => rw [← Nat.mod_add_div a.toNat (2 ^ 32), ← Nat.mod_add_div b.toNat (2 ^ 32)]
    congr 1
    ring
  rw [hvalue, BitVec.toNat_ofNat, Nat.mod_eq_of_lt hfits]

/-! The Barrett constants (R144). -/

theorem barrettShift_of_pos {q : Nat} (h : 1 ≤ q) : barrettShift q = Nat.log2 q + 1 := if_neg (by omega)

theorem barrettRecip_eq (q : Nat) : barrettRecip q = 2 ^ (2 * barrettShift q) / q := rfl

theorem lt_two_pow_barrettShift {q : Nat} (h : 1 ≤ q) : q < 2 ^ barrettShift q := by
  rw [barrettShift_of_pos h]
  exact Nat.lt_log2_self

theorem two_pow_barrettShift_pred_le {q : Nat} (h : 1 ≤ q) : 2 ^ (barrettShift q - 1) ≤ q := by
  rw [barrettShift_of_pos h]
  exact Nat.log2_self_le (by omega)

theorem barrettShift_le {q n : Nat} (h : 1 ≤ q) (hq : q < 2 ^ n) : barrettShift q ≤ n := by
  rw [barrettShift_of_pos h]
  exact (Nat.log2_lt (by omega)).2 hq

/-- `(2^KH + 1) * q ≤ 4^KH - 1`, as `q` is at most `2^KH - 1`. -/
theorem two_pow_barrettShift_lt_recip {q : Nat} (h : 1 ≤ q) : 2 ^ barrettShift q < barrettRecip q := by
  have hq := lt_two_pow_barrettShift h
  rw [barrettRecip_eq, two_mul, pow_add, ← Nat.succ_le_iff, Nat.le_div_iff_mul_le h]
  nlinarith

theorem barrettRecip_mul_le (q : Nat) : barrettRecip q * q ≤ 2 ^ (2 * barrettShift q) := Nat.div_mul_le_self _ _

theorem barrettRecip_le {q : Nat} (h : 1 ≤ q) : barrettRecip q ≤ 2 ^ (barrettShift q + 1) := by
  have hk := barrettShift_of_pos h
  calc barrettRecip q ≤ 2 ^ (2 * barrettShift q) / 2 ^ (barrettShift q - 1) :=
        Nat.div_le_div_left (two_pow_barrettShift_pred_le h) (by positivity)
    _ = 2 ^ (barrettShift q + 1) := by
        rw [Nat.pow_div (by omega) (by omega)]
        congr 1
        omega

/-- R144: the reciprocal fills 64 bits for `q = 2^61` alone. -/
theorem barrettRecip_eq_iff {q : Nat} (h : 1 ≤ q) (hq : q < 2 ^ 62) : barrettRecip q = 2 ^ 63 ↔ q = 2 ^ 61 := by
  constructor
  · intro hmu
    have hle := barrettRecip_le h
    rw [hmu] at hle
    have hk : barrettShift q = 62 := by
      have := (Nat.pow_le_pow_iff_right (by decide)).1 hle
      have := barrettShift_le h hq
      omega
    have hlow := two_pow_barrettShift_pred_le h
    have hprod := barrettRecip_mul_le q
    rw [hk] at hlow hprod
    rw [hmu] at hprod
    omega
  · rintro rfl
    rw [barrettRecip_eq, barrettShift_of_pos h, Nat.log2_two_pow]
    rfl

/-- Settles O26: `2^(KH-1) ≤ q < 2^KH` bounds the reciprocal on both sides. -/
theorem barrettConstantBounds : Obligations.BarrettConstantBounds := by
  intro q h hq
  have hk := barrettShift_le h hq
  have hmu := barrettRecip_le h
  have hpow : 2 ^ (barrettShift q + 1) ≤ 2 ^ 63 := Nat.pow_le_pow_right (by decide) (by omega)
  exact ⟨barrettShift_of_pos h ▸ Nat.le_add_left 1 _, hk, two_pow_barrettShift_pred_le h, lt_two_pow_barrettShift h, rfl,
    two_pow_barrettShift_lt_recip h, hmu, hmu.trans hpow, barrettRecip_eq_iff h hq⟩

/-! The Barrett multiplier (R145, R146), with `A` for `2^(KH-1)`. -/

/-- R146: the quotient estimate is never above the quotient, for each of its divisions rounds down. -/
theorem barrett_estimate_le (n A : Nat) {q : Nat} (hA : 0 < A) (h : 1 ≤ q) :
    n / A * (4 * A * A / q) / (4 * A) ≤ n / q := by
  have hu : n / A * A ≤ n := Nat.div_mul_le_self n A
  have hmu : 4 * A * A / q * q ≤ 4 * A * A := Nat.div_mul_le_self _ q
  generalize n / A = u at *
  generalize 4 * A * A / q = mu at *
  have hest : u * mu / (4 * A) * (4 * A) ≤ u * mu := Nat.div_mul_le_self _ _
  generalize u * mu / (4 * A) = est at *
  rw [Nat.le_div_iff_mul_le h]
  refine Nat.le_of_mul_le_mul_right (c := 4 * A * A) ?_ (by positivity)
  calc est * q * (4 * A * A) = est * (4 * A) * (A * q) := by ring
    _ ≤ u * mu * (A * q) := Nat.mul_le_mul_right _ hest
    _ = u * A * (mu * q) := by ring
    _ ≤ n * (4 * A * A) := Nat.mul_le_mul hu hmu

/-- R146: each of `n / A`, `4A² / q` and the division by `4A` costs the estimate at most one quotient. -/
theorem lt_barrett_estimate_add_three {n A q : Nat} (hA : A ≤ q) (hq : q < 2 * A) (hn : n < q * q) :
    n < (n / A * (4 * A * A / q) / (4 * A) + 3) * q := by
  have hApos : 0 < A := by omega
  have hu : n < (n / A + 1) * A := Nat.lt_mul_of_div_lt (Nat.lt_succ_self _) hApos
  have hmu : 4 * A * A < (4 * A * A / q + 1) * q := Nat.lt_mul_of_div_lt (Nat.lt_succ_self _) (by omega)
  have hule : n / A ≤ 4 * A := Nat.div_le_of_le_mul (by nlinarith)
  have hmule : 4 * A * A / q ≤ 4 * A := Nat.div_le_of_le_mul (mul_comm q _ ▸ Nat.mul_le_mul_left _ hA)
  generalize n / A = u at *
  generalize 4 * A * A / q = mu at *
  have hest : u * mu < (u * mu / (4 * A) + 1) * (4 * A) := Nat.lt_mul_of_div_lt (Nat.lt_succ_self _) (by omega)
  generalize u * mu / (4 * A) = est at *
  refine Nat.lt_of_mul_lt_mul_right (a := 4 * A * A) ?_
  calc n * (4 * A * A) < (u + 1) * A * ((mu + 1) * q) := Nat.mul_lt_mul'' hu hmu
    _ = (u * mu + 1 + u + mu) * (A * q) := by ring
    _ ≤ ((est + 1) * (4 * A) + 4 * A + 4 * A) * (A * q) := Nat.mul_le_mul_right _ (by omega)
    _ = (est + 3) * q * (4 * A * A) := by ring

/-- R145: the estimate in terms of `2^(KH-1)`. -/
theorem barrettQuotient_eq (a b : Nat) {q : Nat} (h : 1 ≤ q) :
    let A := 2 ^ (barrettShift q - 1)
    barrettQuotient a b (barrettShift q) (barrettRecip q) = a * b / A * (4 * A * A / q) / (4 * A) := by
  obtain ⟨k, hk⟩ : ∃ k, barrettShift q = k + 1 := ⟨_, barrettShift_of_pos h⟩
  have hrecip : 2 ^ (2 * (k + 1)) = 4 * 2 ^ k * 2 ^ k := by ring
  have hdivisor : 2 ^ (k + 1 + 1) = 4 * 2 ^ k := by ring
  rw [barrettQuotient, barrettRecip_eq, hk, hrecip, hdivisor, Nat.add_sub_cancel]

/-- R146: the quotient estimate is at most the quotient, and less than three below it. -/
theorem barrettQuotient_bounds {a b q : Nat} (ha : a < q) (hb : b < q) :
    barrettQuotient a b (barrettShift q) (barrettRecip q) ≤ a * b / q ∧
      a * b < (barrettQuotient a b (barrettShift q) (barrettRecip q) + 3) * q := by
  have h : 1 ≤ q := by omega
  have hlow := two_pow_barrettShift_pred_le h
  have hhigh : q < 2 * 2 ^ (barrettShift q - 1) := by
    rw [← pow_succ', barrettShift_of_pos h, Nat.add_sub_cancel]
    exact Nat.lt_log2_self
  rw [barrettQuotient_eq a b h]
  exact ⟨barrett_estimate_le _ _ (by positivity) h, lt_barrett_estimate_add_three hlow hhigh (Nat.mul_lt_mul'' ha hb)⟩

/-- R12, R145: the difference of two numbers less than `2^64` apart is that of their low 64 bits. -/
theorem wrap_sub_wrap {x y : Nat} (hle : y ≤ x) (hlt : x - y < 2 ^ 64) :
    wrap 64 (wrap 64 x + 2 ^ 64 - wrap 64 y) = x - y := by
  unfold wrap
  omega

/-- R146: the Barrett multiplier is exact. -/
theorem multMod_eq_mod {a b q : Nat} (hq : q < 2 ^ 62) (ha : a < q) (hb : b < q) :
    multMod a b q (barrettShift q) (barrettRecip q) = a * b % q := by
  obtain ⟨hle, hlt⟩ := barrettQuotient_bounds ha hb
  rw [Nat.le_div_iff_mul_le (by omega)] at hle
  have hrest : a * b - barrettQuotient a b (barrettShift q) (barrettRecip q) * q < 3 * q := by
    rw [Nat.add_mul] at hlt
    omega
  rw [multMod, wrap_sub_wrap hle (by omega), correctOnce_twice hrest, mul_comm _ q, Nat.sub_mul_mod (mul_comm _ q ▸ hle)]

/-- Settles O27: the remainder left by the estimate is below `3q`, which two correction stages reduce. -/
theorem multModIsExact : Obligations.MultModIsExact := by
  intro a b q hq ha hb
  obtain ⟨hle, hlt⟩ := barrettQuotient_bounds ha hb
  exact ⟨multMod_eq_mod hq ha hb, hle, Nat.le_of_lt_succ (Nat.div_lt_of_lt_mul (mul_comm _ q ▸ hlt))⟩

end Sys2Proof.Machine
end

section
/-! PROOFS. The refusal checks of the MODULAR kernels (R334): how a kernel ends once its boundary checks pass. -/

namespace Sys2Proof.Machine

/-- R143, R334: the operand check of a kernel, over its input buffers in order. -/
def checkOperands (s : State) (n : Nat) (qs : List Nat) : List Nat → Res Unit
  | [] => .ok ()
  | src :: bufs => do
      operandsBelow s src n qs
      checkOperands s n qs bufs

theorem checkOperands_single_bind {α : Type} (s : State) (n : Nat) (qs : List Nat) (a : Nat) (f : Unit → Res α) :
    (checkOperands s n qs [a] >>= f) = (operandsBelow s a n qs >>= f) := by
  simp only [checkOperands]
  cases operandsBelow s a n qs <;> rfl

theorem checkOperands_pair_bind {α : Type} (s : State) (n : Nat) (qs : List Nat) (a b : Nat) (f : Unit → Res α) :
    (checkOperands s n qs [a, b] >>= f) = (operandsBelow s a n qs >>= fun _ => operandsBelow s b n qs >>= f) := by
  rw [checkOperands]
  cases operandsBelow s a n qs with
  | ok u => exact checkOperands_single_bind s n qs b f
  | error e => rfl

/-- R143: the input buffers pass the operand check, or a value out of range fails it. -/
theorem checkOperands_cases {s : State} {n base : Nat} {qs bufs : List Nat}
    (hin : ∀ src ∈ bufs, ∀ l < n, ∀ x < s.cfg.ringDim, tiledAddr s.cfg src l x < s.cfg.extWords)
    (hq : ∀ l < n, qs.getD l 0 = wordAt s (base + l)) :
    (∀ src ∈ bufs, OperandsOk s src n base) ∧ checkOperands s n qs bufs = .ok () ∨
      ¬ (∀ src ∈ bufs, OperandsOk s src n base) ∧ checkOperands s n qs bufs = .error (.refuse .operandRange) := by
  induction bufs with
  | nil => exact .inl ⟨fun _ h => absurd h List.not_mem_nil, rfl⟩
  | cons src bufs ih =>
    obtain ⟨hsrc, hbufs⟩ := List.forall_mem_cons.1 hin
    rw [List.forall_mem_cons, checkOperands]
    rcases operandsBelow_cases hsrc hq with ⟨hok, hgo⟩ | ⟨hbad, hstop⟩
    · rw [hgo, ok_bind, and_iff_right hok]
      exact ih hbufs
    · rw [hstop, error_bind]
      exact .inr ⟨fun h => hbad h.1, rfl⟩

/-- R334: past its boundary checks a kernel that fails its operand check ends so. -/
theorem kernel_operand_error {i : Instr} {s : State} {n off m : Nat} {qs : List Nat} {e : Stop}
    (hi : i.modular = some (n, off, m)) (hb : modularBoundary s i n off m = .ok qs)
    (hodd : ∀ n off st a d m, i = .auto n off st a d m → galoisElement s.cfg st % 2 = 1) (hw : InputsWritten s i)
    (he : checkOperands s n qs i.operandBuffers = .error e) : kernel i s = .error e := by
  have hwritten := checkWritten_eq_ok (u := ()).2 hw
  cases i <;> simp only [Instr.modular, Option.some.injEq, Prod.mk.injEq, reduceCtorEq] at hi <;>
    obtain ⟨rfl, rfl, rfl⟩ := hi <;> rw [Instr.operandBuffers] at he
  case add | sub => rw [kernel, addSub, hb, ok_bind, ← checkOperands_pair_bind, he, error_bind]
  case mul => rw [kernel, mulLimbs, hb, ok_bind, ← checkOperands_pair_bind, he, error_bind]
  case ntt | intt =>
    rw [kernel, transformLimbs, hb, ok_bind, hwritten, ok_bind, ← checkOperands_single_bind, he, error_bind]
  case auto =>
    simp only [kernel, autoLimbs, hb, ok_bind, check_of_pos (hodd _ _ _ _ _ _ rfl)]
    rw [← checkOperands_single_bind, he, error_bind]

/-- R334: past its operand check a kernel that fails its check of the Barrett tables ends so. -/
theorem kernel_barrett_error {i : Instr} {s : State} {n off m kh mu : Nat} {qs : List Nat} {e : Stop}
    (hi : i.modular = some (n, off, m)) (ht : i.barrettTables = some (kh, mu))
    (hb : modularBoundary s i n off m = .ok qs) (hw : InputsWritten s i)
    (ho : checkOperands s n qs i.operandBuffers = .ok ()) (he : readBarrett s kh mu off n qs = .error e) :
    kernel i s = .error e := by
  have hwritten := checkWritten_eq_ok (u := ()).2 hw
  cases i <;> simp only [Instr.barrettTables, Option.some.injEq, Prod.mk.injEq, reduceCtorEq] at ht <;>
    obtain ⟨rfl, rfl⟩ := ht <;> simp only [Instr.modular, Option.some.injEq, Prod.mk.injEq] at hi <;>
    obtain ⟨rfl, rfl, rfl⟩ := hi <;> rw [Instr.operandBuffers] at ho
  case mul => rw [kernel, mulLimbs, hb, ok_bind, ← checkOperands_pair_bind, ho, ok_bind, he, error_bind]
  case ntt | intt =>
    rw [kernel, transformLimbs, hb, ok_bind, hwritten, ok_bind, ← checkOperands_single_bind, ho, ok_bind, he, error_bind]

/-- Settles O33: a word out of range fails the operand check, the first check after those that pass. -/
theorem outOfRangeOperandRefused : Obligations.OutOfRangeOperandRefused := by
  intro i s n off m src l x hi hb hm hodd hw hsrc hl hx hrange
  have ⟨_, _, hin⟩ := hb
  obtain ⟨hmod, hops, -⟩ := modular_inside hi hin
  rcases checkOperands_cases hops (fun _ => getD_tab_of_lt _ 0) with ⟨hok, -⟩ | ⟨-, hstop⟩
  · exact absurd (hok src hsrc l hl x hx) (not_lt.2 hrange)
  · rw [exec_eq_finish, kernel_operand_error hi (modularBoundary_ok hb hmod hm) hodd hw hstop, finish_refuse]

/-- Settles O34: the operands pass their check, and wrong constants fail the next one. -/
theorem wrongBarrettConstantsRefused : Obligations.WrongBarrettConstantsRefused := by
  intro i s n off m kh mu l hi ht hb hm hop hw hl hwrong
  have ⟨_, _, hin⟩ := hb
  obtain ⟨hmod, hops, htab⟩ := modular_inside hi hin
  obtain ⟨hkh, hmu⟩ := htab kh mu ht
  rcases checkOperands_cases hops (fun _ => getD_tab_of_lt _ 0) with ⟨-, hpass⟩ | ⟨hbad, -⟩
  · rcases readBarrett_cases hkh hmu (fun _ => getD_tab_of_lt _ 0) with hok | hstop
    · exact absurd (hok l hl) (not_and_or.2 hwrong)
    · rw [exec_eq_finish, kernel_barrett_error hi ht (modularBoundary_ok hb hmod hm) hw hpass hstop, finish_refuse]
  · exact absurd hop hbad

end Sys2Proof.Machine
end

section
/-! PROOFS. The elementwise kernels (R170 to R174): past their checks ADD, SUB and MUL complete, and what they leave. -/

namespace Sys2Proof.Machine

/-- R363, R334: the checks that every MODULAR kernel makes pass: the boundary checks, which answer the moduli, and the
operand check of each input buffer. -/
theorem modular_checks_ok {i : Instr} {s : State} {n off m : Nat} (hi : i.modular = some (n, off, m))
    (hb : BoundaryOk s i n off) (hm : ModuliOk s (m + off) n)
    (ho : ∀ src ∈ i.operandBuffers, OperandsOk s src n (m + off)) :
    ∃ qs, modularBoundary s i n off m = .ok qs ∧ (∀ l < n, qs.getD l 0 = wordAt s (m + off + l)) ∧
      ∀ src ∈ i.operandBuffers, operandsBelow s src n qs = .ok () := by
  obtain ⟨hmod, hops, -⟩ := modular_inside hi hb.2.2
  have hq := modularBoundary_ok hb hmod hm
  obtain ⟨-, -, -, hval⟩ := modularBoundary_eq_ok hq
  exact ⟨_, hq, hval, fun src hsrc => operandsBelow_ok (hops src hsrc) hval (ho src hsrc)⟩

/-- R170, R334: an invocation of ADD, SUB or MUL whose boundary and operand checks pass, by its named operands. -/
structure ElementwiseReady (s : State) (i : Instr) (n off a b d m : Nat) : Prop where
  fields : i.modular = some (n, off, m)
  buffers : i.operandBuffers = [a, b]
  writes : writeSpan s.cfg i = tiledSpan s.cfg d n
  valid : s.cfg.Valid
  boundary : BoundaryOk s i n off
  moduli : ModuliOk s (m + off) n
  left : OperandsOk s a n (m + off)
  right : OperandsOk s b n (m + off)

/-- R170, R79: the invocation completes, changes no EXT word outside its output limbs, and leaves in each of their words
`f x y q`, for the input words `x` and `y` at the same coefficient and the modulus `q` of the limb. -/
def LeavesElementwise (s : State) (i : Instr) (n a b d base : Nat) (f : Nat → Nat → Nat → Nat) : Prop :=
  ∃ t, exec i s = .next t ∧ t.status = 0x2 ∧ SameControl s t ∧ SameOutside s t (tiledSpan s.cfg d n) ∧
    ∀ l < n, ∀ r < s.cfg.sqrt, ∀ j < s.cfg.sqrt,
      Holds t d l r j (f (wordAt s (a + l * s.cfg.ringDim + r * s.cfg.sqrt + j))
        (wordAt s (b + l * s.cfg.ringDim + r * s.cfg.sqrt + j)) (wordAt s (base + l)))

/-- R76, R271: the address of row `r`, column `j` of a limb. -/
theorem tiledAddr_row (c : Cfg) (base l r j : Nat) :
    tiledAddr c base l (r * c.sqrt + j) = base + l * c.ringDim + r * c.sqrt + j := (Nat.add_assoc ..).symm

section
variable {s : State} {i : Instr} {n off a b d m : Nat}

/-- R363, R334: the moduli an elementwise kernel reads, and its operand checks, which pass. -/
theorem ElementwiseReady.checks_ok (h : ElementwiseReady s i n off a b d m) :
    ∃ qs, modularBoundary s i n off m = .ok qs ∧ (∀ l < n, qs.getD l 0 = wordAt s (m + off + l)) ∧
      operandsBelow s a n qs = .ok () ∧ operandsBelow s b n qs = .ok () := by
  have hbufs : ∀ src ∈ i.operandBuffers, OperandsOk s src n (m + off) := by
    rw [h.buffers, List.forall_mem_cons, List.forall_mem_singleton]
    exact ⟨h.left, h.right⟩
  obtain ⟨qs, hq, hval, hops⟩ := modular_checks_ok h.fields h.boundary h.moduli hbufs
  rw [h.buffers, List.forall_mem_cons, List.forall_mem_singleton] at hops
  exact ⟨qs, hq, hval, hops⟩

/-- R170: a kernel that reaches phase 4 with `op` leaves `f`, if `op` computes `f` on words below the modulus. -/
theorem ElementwiseReady.leaves (h : ElementwiseReady s i n off a b d m) {op : Nat → Nat → Nat → Nat}
    {f : Nat → Nat → Nat → Nat} (hk : kernel i s = runElementwise op n a b d (beginKernel s))
    (hop : ∀ l < n, ∀ x < wordAt s (m + off + l), ∀ y < wordAt s (m + off + l),
      op l x y = f x y (wordAt s (m + off + l))) :
    LeavesElementwise s i n a b d (m + off) f := by
  obtain ⟨-, -, hin⟩ := h.boundary
  obtain ⟨-, hops, -⟩ := modular_inside h.fields hin
  rw [h.buffers, List.forall_mem_cons, List.forall_mem_singleton] at hops
  have hN := ringDim_pos h.valid
  obtain ⟨ta, tb, hrun⟩ := runElementwise_ok (op := op) (s := beginKernel s) hN hops.1 hops.2 (h.writes ▸ hin.2)
  have hwords := limbWords_congr (n := n) hN fun l hl x hx =>
    congrArg (BitVec.ofNat 64) (hop l hl _ (h.left l hl x hx) _ (h.right l hl x hx))
  simpa only [LeavesElementwise, tiledAddr_row] using tiled_result h.valid (hk.trans hrun) h.writes
    (congrArg (Memory.writeWords s.ext d) hwords)

/-- R171, R172: what ADD and SUB leave, if AddMod computes `f` on words below the modulus. -/
theorem ElementwiseReady.addSub_leaves (h : ElementwiseReady s i n off a b d m) {plus : Bool}
    {f : Nat → Nat → Nat → Nat} (hk : kernel i s = addSub plus i n off a b d m s)
    (hf : ∀ q, ∀ x < q, ∀ y < q, addMod x y q plus = f x y q) : LeavesElementwise s i n a b d (m + off) f := by
  obtain ⟨qs, hq, hval, ha, hb⟩ := h.checks_ok
  rw [addSub, hq, ok_bind, ha, ok_bind, hb, ok_bind] at hk
  refine h.leaves hk fun l hl x hx y hy => ?_
  rw [hval l hl]
  exact hf _ x hx y hy

/-- R173: what MUL leaves. Its check of the Barrett tables passes the constants of R144 alone, and with them the Barrett
multiplier is exact (R146), as a legal modulus is below `2^62`. -/
theorem ElementwiseReady.mul_leaves (h : ElementwiseReady s i n off a b d m) {kh mu : Nat}
    (ht : i.barrettTables = some (kh, mu)) (hbar : BarrettOk s (m + off) (kh + off) (mu + off) n)
    (hk : kernel i s = mulLimbs i n off a b d m kh mu s) :
    LeavesElementwise s i n a b d (m + off) fun x y q => x * y % q := by
  obtain ⟨qs, hq, hval, ha, hb⟩ := h.checks_ok
  obtain ⟨-, -, hin⟩ := h.boundary
  obtain ⟨-, -, htab⟩ := modular_inside h.fields hin
  obtain ⟨hkh, hmu⟩ := htab kh mu ht
  have hread := readBarrett_ok hkh hmu hval hbar
  obtain ⟨-, hconst⟩ := readBarrett_eq_ok hread
  rw [mulLimbs, hq, ok_bind, ha, ok_bind, hb, ok_bind, hread, ok_bind] at hk
  refine h.leaves hk fun l hl x hx y hy => ?_
  rw [hconst l hl, hval l hl]
  exact multMod_eq_mod (h.moduli l hl).2 hx hy

end

/-- Settles O30: on words below the modulus AddMod adds modulo it (R141). -/
theorem addResult : Obligations.AddResult := by
  intro s n off a b d m hv hbound hmod ha hb
  have hready : ElementwiseReady s (.add n off a b d m) n off a b d m := ⟨rfl, rfl, rfl, hv, hbound, hmod, ha, hb⟩
  exact hready.addSub_leaves (f := fun x y q => (x + y) % q) rfl fun _ _ hx _ hy => addMod_add hx hy

/-- Settles O31: on words below the modulus AddMod subtracts modulo it (R142). -/
theorem subResult : Obligations.SubResult := by
  intro s n off a b d m hv hbound hmod ha hb
  have hready : ElementwiseReady s (.sub n off a b d m) n off a b d m := ⟨rfl, rfl, rfl, hv, hbound, hmod, ha, hb⟩
  exact hready.addSub_leaves (f := fun x y q => (x + q - y) % q) rfl fun _ _ hx _ hy => addMod_sub hx hy

/-- Settles O32: MUL passes its checks and leaves the products that the Barrett multiplier computes. -/
theorem mulResult : Obligations.MulResult := by
  intro s n off a b d m kh mu hv hbound hmod ha hb hbar
  have hready : ElementwiseReady s (.mul n off a b d m kh mu) n off a b d m :=
    ⟨rfl, rfl, rfl, hv, hbound, hmod, ha, hb⟩
  exact hready.mul_leaves rfl hbar rfl

end Sys2Proof.Machine
end

section
/-! PROOFS. Where the PermutationNetwork moves a coefficient (R191, R192, R194): Interleave and, for an odd Galois element,
Auto permute the coefficients of a tile (R193, R196). -/

namespace Sys2Proof.Machine

/-- R190: `dest` permutes the coefficients of a tile. -/
abbrev Permutes (c : Cfg) (dest : Nat → Nat) : Prop := Set.BijOn dest (Set.Iio c.ringDim) (Set.Iio c.ringDim)

/-! Interleave (R191 to R193). -/

/-- R191, R192: the column that Interleave moves column `j` of row `i` to. -/
def rotateColumn (side : Nat) (right : Bool) (i j : Nat) : Nat :=
  if right then (j + i) % side else (j + side - i) % side

theorem rotateColumn_lt {side : Nat} (hs : 0 < side) (right : Bool) (i j : Nat) : rotateColumn side right i j < side := by
  unfold rotateColumn
  split_ifs <;> exact Nat.mod_lt _ hs

/-- R193: a row rotated one way and then the other is as before. -/
theorem rotateColumn_not_rotateColumn {side i j : Nat} (hi : i < side) (hj : j < side) (right : Bool) :
    rotateColumn side (!right) i (rotateColumn side right i j) = j := by
  cases right with
  | true =>
    change ((j + i) % side + side - i) % side = j
    by_cases hwrap : j + i < side
    · rw [Nat.mod_eq_of_lt hwrap, show j + i + side - i = j + side by omega, Nat.add_mod_right, Nat.mod_eq_of_lt hj]
    · have hrotated : (j + i) % side = j + i - side := by
        rw [Nat.mod_eq_sub_mod (by omega), Nat.mod_eq_of_lt (by omega)]
      rw [hrotated, show j + i - side + side - i = j by omega, Nat.mod_eq_of_lt hj]
  | false =>
    change ((j + side - i) % side + i) % side = j
    rw [Nat.mod_add_mod, show j + side - i + i = j + side by omega, Nat.add_mod_right, Nat.mod_eq_of_lt hj]

/-- R191, R192: Interleave rotates each row within itself. -/
theorem interleaveDest_row {side j : Nat} (hj : j < side) (right : Bool) (i : Nat) :
    interleaveDest side right (i * side + j) = i * side + rotateColumn side right i j := by
  have hrow : (i * side + j) / side = i := by
    rw [Nat.mul_comm, Nat.mul_add_div (by omega), Nat.div_eq_of_lt hj, Nat.add_zero]
  have hcol : (i * side + j) % side = j := by rw [Nat.mul_add_mod', Nat.mod_eq_of_lt hj]
  simp only [interleaveDest, hrow, hcol, rotateColumn]

/-- R14: a coefficient of the tile is that of a row and a column. -/
theorem exists_row_column {c : Cfg} (h : c.Valid) {x : Nat} (hx : x < c.ringDim) :
    ∃ i < c.sqrt, ∃ j < c.sqrt, x = i * c.sqrt + j :=
  ⟨x / c.sqrt, Nat.div_lt_of_lt_mul (h.2.1 ▸ hx), x % c.sqrt, Nat.mod_lt _ h.1.1, (Nat.div_add_mod' x c.sqrt).symm⟩

/-- R193: the destinations of the two Interleaves undo each other. -/
theorem interleaveDest_not_interleaveDest {c : Cfg} (h : c.Valid) (right : Bool) {x : Nat} (hx : x < c.ringDim) :
    interleaveDest c.sqrt (!right) (interleaveDest c.sqrt right x) = x := by
  obtain ⟨i, hi, j, hj, rfl⟩ := exists_row_column h hx
  rw [interleaveDest_row hj, interleaveDest_row (rotateColumn_lt h.1.1 right i j), rotateColumn_not_rotateColumn hi hj]

theorem interleaveDest_permutes {c : Cfg} (h : c.Valid) (right : Bool) : Permutes c (interleaveDest c.sqrt right) := by
  have hback : Set.LeftInvOn (interleaveDest c.sqrt right) (interleaveDest c.sqrt !right) (Set.Iio c.ringDim) :=
    fun _ hx => by simpa using interleaveDest_not_interleaveDest h (!right) hx
  exact Set.InvOn.bijOn ⟨fun _ hx => interleaveDest_not_interleaveDest h right hx, hback⟩
    (fun _ hx => interleaveDest_lt h right hx) (fun _ hx => interleaveDest_lt h (!right) hx)

/-! Auto (R194 to R196). -/

/-- R196: the closed form of the destination. -/
theorem autoDest_eq_mod (c : Cfg) (k x : Nat) : autoDest c k x = x * k % c.ringDim := by
  rw [autoDest_eq, autoRaw, Nat.mod_mul_left_mod]

/-- R8: `N` is a power of two, so an odd number has no factor in common with it. -/
theorem ringDim_coprime_of_odd {c : Cfg} (h : c.Valid) {k : Nat} (hk : k % 2 = 1) : Nat.Coprime c.ringDim k := by
  have hside : Nat.Coprime c.sqrt k := by
    rw [← h.1.2]
    exact ((Nat.odd_iff.2 hk).coprime_two_left).pow_left _
  rw [h.2.1]
  exact hside.mul_left hside

/-- R196: as `k` is coprime to `N`, it can be cancelled modulo `N`. -/
theorem autoDest_permutes {c : Cfg} (h : c.Valid) {k : Nat} (hk : k % 2 = 1) : Permutes c (autoDest c k) := by
  refine (Set.Finite.injOn_iff_bijOn_of_mapsTo (Set.finite_Iio _) fun x _ => autoDest_lt h k x).1
    fun x hx y hy heq => ?_
  rw [autoDest_eq_mod, autoDest_eq_mod] at heq
  exact (Nat.ModEq.cancel_right_of_coprime (ringDim_coprime_of_odd h hk) heq).eq_of_lt_of_lt hx hy

/-- Settles O39: an odd `k` is coprime to `N`, so its multiplication permutes the residues modulo `N`. -/
theorem autoIsAPermutation : Obligations.AutoIsAPermutation := by
  intro c k hv hk
  obtain ⟨hmaps, hinj, hsurj⟩ := autoDest_permutes hv hk
  exact ⟨fun x hx => ⟨autoDest_eq_mod c k x, hmaps hx⟩, fun x hx y hy heq => hinj hx hy heq, fun d hd => hsurj hd⟩

end Sys2Proof.Machine
end

section
/-! PROOFS. The PermutationNetwork on one tile (R190 to R193): a permutation of a full tile is a full tile. -/

namespace Sys2Proof.Machine

/-- R42: nothing has been written outside the tile. -/
theorem Memory.read_eq_none_of_below {bound : Nat} {m : Memory} (h : m.Below bound) {a : Nat} (ha : bound ≤ a) :
    m.read a = none := by
  induction m with
  | nil => rfl
  | cons cell m ih =>
    obtain ⟨hcell, hm⟩ := List.forall_mem_cons.1 h
    rw [read_cons, if_neg (by omega), ih hm]

theorem FullTile.read_eq {c : Cfg} {t : Tile} (h : FullTile c t) {x : Nat} (hx : x < c.ringDim) :
    t.read x = some ((t.read x).getD 0) := by
  obtain ⟨w, hw⟩ := Option.isSome_iff_exists.1 (h.full x hx)
  rw [hw, Option.getD_some]

/-- Full tiles with the same word at each coefficient are the same tile. -/
theorem FullTile.ext {c : Cfg} {t u : Tile} (ht : FullTile c t) (hu : FullTile c u)
    (h : ∀ x < c.ringDim, t.read x = u.read x) : t = u := by
  refine Memory.eq_of_read_eq ht.canonical hu.canonical fun a => ?_
  by_cases ha : a < c.ringDim
  · exact h a ha
  · rw [Memory.read_eq_none_of_below ht.inTile (by omega), Memory.read_eq_none_of_below hu.inTile (by omega)]

/-- R190: a permutation of a full tile goes on and fills its output, word by word. -/
theorem permuteTile_full {c : Cfg} {dest : Nat → Nat} (hdest : Permutes c dest) (val : Nat → Nat → Nat) {t : Tile}
    (ht : FullTile c t) :
    ∃ u, permuteTile c dest val t = .ok u ∧ FullTile c u ∧
      ∀ x < c.ringDim, u.read (dest x) = some (BitVec.ofNat 64 (val x ((t.read x).getD 0).toNat)) := by
  obtain ⟨hmaps, hinj, hsurj⟩ := hdest
  have hok := permuteTile_ok (dest := dest) (val := val) (tileValues_ok fun x hx => ht.read_eq hx)
  obtain ⟨hwf, hbelow⟩ := permuteTile_eq_ok hok fun x hx => hmaps hx
  refine ⟨_, hok, ⟨hwf, hbelow, fun y hy => ?_⟩, fun x hx => ?_⟩
  · obtain ⟨x, hx, rfl⟩ := hsurj hy
    rw [Memory.read_scatter (fun _ hx _ hy heq => hinj hx hy heq) hx, Option.isSome_some]
  · rw [Memory.read_scatter (fun _ hx _ hy heq => hinj hx hy heq) hx, getD_tab_of_lt _ _ hx]

/-- R191, R192: Interleave moves the words of a full tile unchanged. -/
theorem interleave_full {c : Cfg} (h : c.Valid) (right : Bool) {t : Tile} (ht : FullTile c t) :
    ∃ u, interleave c right t = .ok u ∧ FullTile c u ∧
      ∀ x < c.ringDim, u.read (interleaveDest c.sqrt right x) = t.read x := by
  obtain ⟨u, hok, hu, hread⟩ := permuteTile_full (interleaveDest_permutes h right) (fun _ v => v) ht
  refine ⟨u, hok, hu, fun x hx => ?_⟩
  rw [hread x hx, BitVec.ofNat_toNat, BitVec.setWidth_eq, ← ht.read_eq hx]

/-- Settles O37: each word comes back to its coefficient, in both orders. -/
theorem interleaveInverse : Obligations.InterleaveInverse := by
  intro c right t hv ht
  obtain ⟨u, hu, hufull, huread⟩ := interleave_full hv right ht
  obtain ⟨w, hw, hwfull, hwread⟩ := interleave_full hv (!right) hufull
  have hback : w = t := hwfull.ext ht fun x hx =>
    calc w.read x = w.read (interleaveDest c.sqrt (!right) (interleaveDest c.sqrt right x)) := by
          rw [interleaveDest_not_interleaveDest hv right hx]
      _ = u.read (interleaveDest c.sqrt right x) := hwread _ (interleaveDest_lt hv right hx)
      _ = t.read x := huread x hx
  exact ⟨u, hu, hback ▸ hw⟩

end Sys2Proof.Machine
end

section
/-! PROOFS. The kernels of the PermutationNetwork (R200 to R202): past their checks AUTO, ILV_R and ILV_L complete, and
what they leave; and an even Galois element (R195). -/

namespace Sys2Proof.Machine

/-- R79: the invocation completes, changes no EXT word outside its `n` output limbs at `d`, and leaves what `result` says. -/
def Leaves (s : State) (i : Instr) (n d : Nat) (result : State → Prop) : Prop :=
  ∃ t, exec i s = .next t ∧ t.status = 0x2 ∧ SameControl s t ∧ SameOutside s t (tiledSpan s.cfg d n) ∧ result t

theorem Leaves.imp {s : State} {i : Instr} {n d : Nat} {result result' : State → Prop} (h : Leaves s i n d result)
    (himp : ∀ t, result t → result' t) : Leaves s i n d result' := by
  obtain ⟨t, hx, hstatus, hctl, houtside, hresult⟩ := h
  exact ⟨t, hx, hstatus, hctl, houtside, himp t hresult⟩

/-- R200 to R202: a kernel that reaches phase 4 with a permutation leaves each word at its destination. -/
theorem permutation_leaves {i : Instr} {s : State} {n a d : Nat} {dest : Nat → Nat} {val : Nat → Nat → Nat → Nat}
    (hv : s.cfg.Valid) (hr : InRange s i) (ha : tiledSpan s.cfg a n ∈ readSpans s.cfg i)
    (hw : writeSpan s.cfg i = tiledSpan s.cfg d n) (hdest : Permutes s.cfg dest)
    (hk : kernel i s = runPermutation (fun l t => permuteTile s.cfg dest (val l) t) n a d (beginKernel s)) :
    Leaves s i n d fun t => ∀ l < n, ∀ x < s.cfg.ringDim, ∀ r < s.cfg.sqrt, ∀ j < s.cfg.sqrt,
      dest x = r * s.cfg.sqrt + j → Holds t d l r j (val l x (wordAt s (tiledAddr s.cfg a l x))) := by
  obtain ⟨hin, hout⟩ := hr
  have hinj := hdest.injOn
  have hsurj := hdest.surjOn
  obtain ⟨ta, tc, hrun⟩ := runPermutation_ok (dest := dest)
    (back := Function.invFunOn dest (Set.Iio s.cfg.ringDim)) (val := val) (s := beginKernel s) (ringDim_pos hv)
    (limbsInside_of (hin _ ha)) (hw ▸ hout)
    (fun x hx => ⟨hsurj.mapsTo_invFunOn hx, hsurj.rightInvOn_invFunOn hx⟩) (fun x hx y hy heq => hinj hx hy heq)
  refine Leaves.imp (tiled_result hv (hk.trans hrun) hw rfl) fun t hholds l hl x hx r hr j hj heq => ?_
  have h := hholds l hl r hr j hj
  rwa [← heq, hinj.leftInvOn_invFunOn hx] at h

/-! ILV_R and ILV_L (R201, R202). -/

/-- R201, R202, R334: a direction of Interleave that passes its two checks rotates each row, whatever the words are. -/
theorem interleaveLimbs_leaves {right : Bool} {i : Instr} {s : State} {n a d : Nat} (hv : s.cfg.Valid)
    (hn : n ≤ s.cfg.maxLimbs) (hr : InRange s i) (ha : tiledSpan s.cfg a n ∈ readSpans s.cfg i)
    (hw : writeSpan s.cfg i = tiledSpan s.cfg d n) (hk : kernel i s = interleaveLimbs right i n a d s) :
    Leaves s i n d fun t => ∀ l < n, ∀ r < s.cfg.sqrt, ∀ j < s.cfg.sqrt,
      Holds t d l r (rotateColumn s.cfg.sqrt right r j) (wordAt s (a + l * s.cfg.ringDim + r * s.cfg.sqrt + j)) := by
  rw [interleaveLimbs, checkLimbs, check_of_pos hn, ok_bind, checkRange, check_of_pos hr, ok_bind] at hk
  refine (permutation_leaves hv hr ha hw (interleaveDest_permutes hv right) (val := fun _ _ v => v) hk).imp
    fun t hholds l hl r hr j hj => ?_
  rw [← tiledAddr_row]
  exact hholds l hl _ (coeff_lt hv hr hj) r hr _ (rotateColumn_lt hv.1.1 right r j) (interleaveDest_row hj right r)

/-- Settles O35: Interleave to the right adds the row to the column. -/
theorem interleaveRightResult : Obligations.InterleaveRightResult :=
  fun _ _ _ _ hv hn hr => interleaveLimbs_leaves hv hn hr List.mem_cons_self rfl rfl

/-- Settles O36: Interleave to the left subtracts the row from the column. -/
theorem interleaveLeftResult : Obligations.InterleaveLeftResult :=
  fun _ _ _ _ hv hn hr => interleaveLimbs_leaves hv hn hr List.mem_cons_self rfl rfl

/-! AUTO (R200). -/

/-- R194: the value Auto gives to coefficient `x` that holds `v`, modulo `q`. -/
def autoValue (c : Cfg) (k q x v : Nat) : Nat := if c.ringDim ≤ autoRaw c k x then negMod v q else v

theorem autoTile_eq_permuteTile (c : Cfg) (k q : Nat) (t : Tile) :
    autoTile c k q t = permuteTile c (autoDest c k) (autoValue c k q) t := rfl

/-- Settles O38: AUTO passes its checks, and Auto moves and negates below the modulus. -/
theorem autoResult : Obligations.AutoResult := by
  intro s n off st a d m hv hb hm hk hops
  have hbufs : ∀ src ∈ (Instr.auto n off st a d m).operandBuffers, OperandsOk s src n (m + off) := by
    rwa [Instr.operandBuffers, List.forall_mem_singleton]
  obtain ⟨qs, hq, hval, hpass⟩ := modular_checks_ok rfl hb hm hbufs
  have hkernel : kernel (.auto n off st a d m) s = runPermutation (fun l t => permuteTile s.cfg
      (autoDest s.cfg (galoisElement s.cfg st)) (autoValue s.cfg (galoisElement s.cfg st) (qs.getD l 0)) t) n a d
      (beginKernel s) := by
    simp only [kernel, autoLimbs, hq, ok_bind, check_of_pos hk, hpass a List.mem_cons_self, autoTile_eq_permuteTile]
  have ⟨_, _, hr⟩ := hb
  refine (permutation_leaves hv hr List.mem_cons_self rfl (autoDest_permutes hv hk) hkernel).imp
    fun t hholds l hl x hx => ?_
  have hlt : autoRaw s.cfg (galoisElement s.cfg st) x % s.cfg.ringDim < s.cfg.sqrt * s.cfg.sqrt :=
    hv.2.1 ▸ Nat.mod_lt _ (ringDim_pos hv)
  have h := hholds l hl x hx _ (Nat.div_lt_of_lt_mul hlt) _ (Nat.mod_lt _ hv.1.1) rfl
  rwa [autoValue, hval l hl, negMod_eq_mod (hops l hl x hx)] at h

/-- Settles O21: the parity check comes next after the boundary checks, and its stop changes STATUS alone. -/
theorem evenGaloisElementRaises : Obligations.EvenGaloisElementRaises := by
  intro s n off st a d m hb hm heven
  have ⟨_, _, hr⟩ := hb
  obtain ⟨hmod, -, -⟩ := modular_inside (i := .auto n off st a d m) rfl hr
  have hfail : ¬ galoisElement s.cfg st % 2 = 1 := by omega
  have hkernel : kernel (.auto n off st a d m) s = .error (.raise .autoStep) := by
    simp only [kernel, autoLimbs, modularBoundary_ok hb hmod hm, ok_bind, check_of_neg hfail, error_bind]
  rw [exec_eq_finish, hkernel, finish_raise]
  rfl

end Sys2Proof.Machine
end

section
/-! PROOFS. The discrete Fourier transform over a commutative ring, as NTT_REF and INTT_REF use it (R224 to R229):
the sum a pass computes stage by stage, the four-step factorisation, and the inversion. The modulus need not be prime,
so the arguments use `psi^N = -1` and no division. -/

namespace Sys2Proof.Machine

variable {R : Type} [CommRing R]

/-- R224, R228: output `y` of the transform of length `n` with root `w`. -/
def dft (n : Nat) (w : R) (g : Nat → R) (y : Nat) : R := ∑ x ∈ Finset.range n, g x * w ^ (x * y)

theorem dft_congr {n : Nat} {g g' : Nat → R} (h : ∀ x < n, g x = g' x) (w : R) (y : Nat) : dft n w g y = dft n w g' y :=
  Finset.sum_congr rfl fun x hx => by rw [h x (Finset.mem_range.1 hx)]

/-- A scalar comes out of the transform. -/
theorem dft_const_mul (n : Nat) (w a : R) (g : Nat → R) (y : Nat) : dft n w (fun x => a * g x) y = a * dft n w g y := by
  simp only [dft, Finset.mul_sum, mul_assoc]

/-- A sum over the coefficients of a tile, row by row. -/
theorem sum_range_mul (f : Nat → R) (m n : Nat) :
    ∑ x ∈ Finset.range (m * n), f x = ∑ i ∈ Finset.range m, ∑ j ∈ Finset.range n, f (i * n + j) := by
  induction m with
  | zero => simp
  | succ m ih => rw [Nat.succ_mul, Finset.sum_range_add, ih, Finset.sum_range_succ]

/-- Decimation in time: the entries of even and of odd index. -/
theorem dft_double (n : Nat) (w : R) (g : Nat → R) (y : Nat) :
    dft (n * 2) w g y = dft n (w ^ 2) (fun t => g (t * 2)) y + dft n (w ^ 2) (fun t => g (t * 2 + 1)) y * w ^ y := by
  rw [dft, sum_range_mul, dft, dft, Finset.sum_mul, ← Finset.sum_add_distrib]
  refine Finset.sum_congr rfl fun t _ => ?_
  rw [Finset.sum_range_succ, Finset.sum_range_one, Nat.add_zero]
  ring

/-! One stage of a pass (R224), by decimation in time. -/

/-- R224: after stage `k` of a pass of `l + k` stages, position `b * 2^k + r` holds the transform of length `2^k` of the
entries `brev l b + 2^l * t`. -/
def blockSum (w : R) (g : Nat → R) (l k b r : Nat) : R := dft (2 ^ k) (w ^ 2 ^ l) (fun t => g (brev l b + 2 ^ l * t)) r

/-- Before the first stage the positions hold the entries in bit-reversed order. -/
theorem blockSum_zero (w : R) (g : Nat → R) (l b r : Nat) : blockSum w g l 0 b r = g (brev l b) := by
  simp [blockSum, dft]

/-- After the last stage there is one block, and it holds the transform. -/
theorem blockSum_last (w : R) (g : Nat → R) (k r : Nat) : blockSum w g 0 k 0 r = dft (2 ^ k) w g r := by
  simp [blockSum, brev]

/-- A block is made of the two blocks of the stage before, its entries of even and of odd index. -/
theorem blockSum_succ (w : R) (g : Nat → R) (l k b r : Nat) :
    blockSum w g l (k + 1) b r =
      blockSum w g (l + 1) k (2 * b) r + blockSum w g (l + 1) k (2 * b + 1) r * w ^ (2 ^ l * r) := by
  have heven : ∀ t, brev (l + 1) (2 * b) + 2 ^ (l + 1) * t = brev l b + 2 ^ l * (t * 2) := fun t => by
    rw [brev, Nat.mul_mod_right, Nat.mul_div_cancel_left _ (by decide)]
    ring
  have hodd : ∀ t, brev (l + 1) (2 * b + 1) + 2 ^ (l + 1) * t = brev l b + 2 ^ l * (t * 2 + 1) := fun t => by
    rw [brev, Nat.mul_add_mod, Nat.mul_add_div (by decide)]
    simp only [Nat.reduceMod, Nat.reduceDiv, Nat.add_zero]
    ring
  simp only [blockSum, heven, hodd]
  rw [pow_succ 2 k, dft_double, pow_succ 2 l, pow_mul w, pow_mul w]

/-- The outputs of a block repeat after its length. -/
theorem blockSum_add_period {w : R} {l k : Nat} (hw : w ^ 2 ^ (l + k) = 1) (g : Nat → R) (b r : Nat) :
    blockSum w g l k b (r + 2 ^ k) = blockSum w g l k b r := by
  have hone : (w ^ 2 ^ l) ^ 2 ^ k = 1 := by rw [← pow_mul, ← pow_add, hw]
  rw [blockSum, blockSum, dft, dft]
  refine Finset.sum_congr rfl fun t _ => ?_
  rw [Nat.mul_add, pow_add, Nat.mul_comm t (2 ^ k), pow_mul _ (2 ^ k) t, hone, one_pow, mul_one]

/-- R222, R224: the second output of the butterfly. -/
theorem blockSum_succ_high {w : R} {l k : Nat} (hw : w ^ 2 ^ (l + k) = -1) (g : Nat → R) (b r : Nat) :
    blockSum w g l (k + 1) b (r + 2 ^ k) =
      blockSum w g (l + 1) k (2 * b) r - blockSum w g (l + 1) k (2 * b + 1) r * w ^ (2 ^ l * r) := by
  have hone : w ^ 2 ^ (l + 1 + k) = 1 := by
    rw [show l + 1 + k = (l + k) + 1 by omega, pow_succ, pow_mul, hw]
    norm_num
  rw [blockSum_succ, blockSum_add_period hone, blockSum_add_period hone, Nat.mul_add, ← pow_add, pow_add, hw]
  ring

/-! The four steps (R226). -/

/-- R226: a transform of length `n * n` is one of the columns, a twiddle, and one of the rows. Coefficient `i * n + j`
is row `i` of column `j`; the transpose brings output `k` of the columns and `m` of the rows to `m * n + k`. -/
theorem dft_four_step {n : Nat} {w : R} (hw : w ^ (n * n) = 1) (g : Nat → R) (m k : Nat) :
    dft (n * n) w g (m * n + k) =
      dft n (w ^ n) (fun j => dft n (w ^ n) (fun i => g (i * n + j)) k * w ^ (k * j)) m := by
  have hexp : ∀ i j, w ^ ((i * n + j) * (m * n + k)) = (w ^ n) ^ (i * k) * w ^ (k * j) * (w ^ n) ^ (j * m) := by
    intro i j
    have hsplit : (i * n + j) * (m * n + k) = n * n * (i * m) + (n * (i * k) + k * j + n * (j * m)) := by ring
    rw [hsplit, pow_add, pow_mul, hw, one_pow, one_mul, pow_add, pow_add, pow_mul w n (i * k), pow_mul w n (j * m)]
  simp only [dft, sum_range_mul, Finset.sum_mul, hexp]
  rw [Finset.sum_comm]
  simp only [mul_assoc]

/-! Inversion (R229). -/

/-- R229: the powers of a root that is not 1 sum to 0. Halving `d` squares the root; an odd `d` pairs each power with
its negative. -/
theorem sum_pow_eq_zero {K : Nat} : ∀ {psi : R} {d : Nat}, psi ^ 2 ^ K = -1 → 0 < d → d < 2 ^ K →
    ∑ j ∈ Finset.range (2 ^ K), (psi ^ (2 * d)) ^ j = 0 := by
  induction K with
  | zero => intro psi d _ h0 h1; omega
  | succ K ih =>
    intro psi d hpsi h0 h1
    have hhalf : (psi ^ (2 * d)) ^ 2 ^ K = (-1) ^ d := by
      rw [← hpsi, ← pow_mul, ← pow_mul]
      congr 1
      ring
    have hsum : ∑ j ∈ Finset.range (2 ^ (K + 1)), (psi ^ (2 * d)) ^ j =
        (1 + (-1) ^ d) * ∑ j ∈ Finset.range (2 ^ K), (psi ^ (2 * d)) ^ j := by
      rw [pow_succ 2 K, Nat.mul_two, Finset.sum_range_add, add_mul, one_mul, Finset.mul_sum]
      simp only [pow_add, hhalf]
    rcases Nat.even_or_odd' d with ⟨e, rfl | rfl⟩
    · rw [hsum, pow_mul psi 2 (2 * e), ih (by rw [← pow_mul, ← pow_succ', hpsi]) (by omega) (by omega), mul_zero]
    · rw [hsum, Odd.neg_one_pow ⟨e, rfl⟩]
      ring

/-- R229: the orthogonality of the powers of `psi^2`. -/
theorem sum_pow_mul_pow {K : Nat} {psi psiInv : R} (hpsi : psi ^ 2 ^ K = -1) (hpsiInv : psiInv ^ 2 ^ K = -1)
    (hinv : psi * psiInv = 1) {x y : Nat} (hx : x < 2 ^ K) (hy : y < 2 ^ K) :
    ∑ j ∈ Finset.range (2 ^ K), (psi ^ 2) ^ (x * j) * (psiInv ^ 2) ^ (j * y) =
      if x = y then ((2 ^ K : Nat) : R) else 0 := by
  have hterm : ∀ j, (psi ^ 2) ^ (x * j) * (psiInv ^ 2) ^ (j * y) = (psi ^ (2 * x) * psiInv ^ (2 * y)) ^ j := by
    intro j
    rw [mul_pow, ← pow_mul, ← pow_mul, ← pow_mul, ← pow_mul]
    congr 2 <;> ring
  have hcancel : ∀ e, psi ^ e * psiInv ^ e = 1 := fun e => by rw [← mul_pow, hinv, one_pow]
  simp only [hterm]
  rcases lt_trichotomy x y with h | rfl | h
  · have hroot : psi ^ (2 * x) * psiInv ^ (2 * y) = psiInv ^ (2 * (y - x)) := by
      rw [show 2 * y = 2 * x + 2 * (y - x) by omega, pow_add, ← mul_assoc, hcancel, one_mul]
    rw [if_neg h.ne, hroot, sum_pow_eq_zero hpsiInv (by omega) (by omega)]
  · simp [hcancel]
  · have hroot : psi ^ (2 * x) * psiInv ^ (2 * y) = psi ^ (2 * (x - y)) := by
      rw [show 2 * x = 2 * (x - y) + 2 * y by omega, pow_add, mul_assoc, hcancel, mul_one]
    rw [if_neg h.ne', hroot, sum_pow_eq_zero hpsi (by omega) (by omega)]

/-- R229: the transform with the inverse root undoes the transform, up to the factor `N`. -/
theorem dft_dft {K : Nat} {psi psiInv : R} (hpsi : psi ^ 2 ^ K = -1) (hpsiInv : psiInv ^ 2 ^ K = -1)
    (hinv : psi * psiInv = 1) (g : Nat → R) {y : Nat} (hy : y < 2 ^ K) :
    dft (2 ^ K) (psiInv ^ 2) (dft (2 ^ K) (psi ^ 2) g) y = (2 ^ K : Nat) * g y := by
  calc dft (2 ^ K) (psiInv ^ 2) (dft (2 ^ K) (psi ^ 2) g) y
      = ∑ x ∈ Finset.range (2 ^ K),
          g x * ∑ j ∈ Finset.range (2 ^ K), (psi ^ 2) ^ (x * j) * (psiInv ^ 2) ^ (j * y) := by
        simp only [dft, Finset.sum_mul, Finset.mul_sum, mul_assoc]
        exact Finset.sum_comm
    _ = ∑ x ∈ Finset.range (2 ^ K), g x * if x = y then ((2 ^ K : Nat) : R) else 0 :=
        Finset.sum_congr rfl fun x hx => by rw [sum_pow_mul_pow hpsi hpsiInv hinv (Finset.mem_range.1 hx) hy]
    _ = (2 ^ K : Nat) * g y := by simp [hy, mul_comm]

end Sys2Proof.Machine
end

section
/-! PROOFS. The butterfly and the pass (R222 to R224), in residues modulo `q`. -/

namespace Sys2Proof.Machine

/-! Rows and columns of the tile (R10, R14). -/

theorem sqrt_pos {c : Cfg} (h : c.Valid) : 0 < c.sqrt := h.1.1

theorem two_pow_logs {c : Cfg} (h : c.Valid) : 2 ^ c.logs = c.sqrt := h.1.2

theorem ringDim_eq_mul {c : Cfg} (h : c.Valid) : c.ringDim = c.sqrt * c.sqrt := h.2.1

theorem ringDim_eq_two_pow {c : Cfg} (h : c.Valid) : c.ringDim = 2 ^ (c.logs + c.logs) := by
  rw [pow_add, two_pow_logs h, ringDim_eq_mul h]

theorem row_lt {c : Cfg} (h : c.Valid) {x : Nat} (hx : x < c.ringDim) : x / c.sqrt < c.sqrt :=
  Nat.div_lt_of_lt_mul (ringDim_eq_mul h ▸ hx)

theorem column_lt {c : Cfg} (h : c.Valid) (x : Nat) : x % c.sqrt < c.sqrt := Nat.mod_lt _ (sqrt_pos h)

theorem mul_add_div_mod {d r : Nat} (hr : r < d) (b : Nat) : (b * d + r) / d = b ∧ (b * d + r) % d = r :=
  (Nat.div_mod_unique (by omega)).2 ⟨by rw [Nat.mul_comm d, Nat.add_comm], hr⟩

/-! Words as residues. -/

/-- R12: the word `a` is the reduced representative of the residue `z`. -/
structure Residue (q a : Nat) (z : ZMod q) : Prop where
  lt : a < q
  cast : (a : ZMod q) = z

/-- The first `n` entries of `v` are the residues `g 0, ..., g (n-1)`. -/
def Residues (q n : Nat) (v : List Nat) (g : Nat → ZMod q) : Prop := ∀ x < n, Residue q (v.getD x 0) (g x)

/-- R147: the modulus is legal, and the constants of the limb are those of R144. -/
structure LimbMod.Exact (p : LimbMod) : Prop where
  range : p.q < 2 ^ 62
  shift : p.kh = barrettShift p.q
  recip : p.mu = barrettRecip p.q

theorem Residue.pos {q a : Nat} {z : ZMod q} (h : Residue q a z) : 0 < q := Nat.zero_lt_of_lt h.lt

theorem residue_self {q a : Nat} (h : a < q) : Residue q a (a : ZMod q) := ⟨h, rfl⟩

theorem residue_mod {q : Nat} (h : 0 < q) (a : Nat) : Residue q (a % q) (a : ZMod q) :=
  ⟨Nat.mod_lt _ h, ZMod.natCast_mod a q⟩

theorem Residue.eq_mod {q a b : Nat} (h : Residue q a (b : ZMod q)) : a = b % q := by
  rw [← (ZMod.natCast_eq_natCast_iff' a b q).1 h.cast, Nat.mod_eq_of_lt h.lt]

theorem Residue.unique {q a b : Nat} {z : ZMod q} (ha : Residue q a z) (hb : Residue q b z) : a = b := by
  rw [← hb.cast] at ha
  rw [ha.eq_mod, Nat.mod_eq_of_lt hb.lt]

theorem residues_tab {q n : Nat} {f : Nat → Nat} {g : Nat → ZMod q} (h : ∀ x < n, Residue q (f x) (g x)) :
    Residues q n (tab n f) g := fun x hx => by
  rw [getD_tab_of_lt _ _ hx]
  exact h x hx

theorem Residues.congr {q n : Nat} {v : List Nat} {g g' : Nat → ZMod q} (h : Residues q n v g)
    (hg : ∀ x < n, g x = g' x) : Residues q n v g' := fun x hx => hg x hx ▸ h x hx

theorem residues_of_forall_lt {q n : Nat} {xs : List Nat} (hl : xs.length = n) (h : ∀ x ∈ xs, x < q) :
    Residues q n xs fun x => (xs.getD x 0 : ZMod q) := fun _ hx => residue_self (h _ (getD_mem (hl ▸ hx) 0))

theorem Residues.unique {q n : Nat} {v v' : List Nat} {g : Nat → ZMod q} (hv : v.length = n) (hv' : v'.length = n)
    (h : Residues q n v g) (h' : Residues q n v' g) : v = v' := by
  rw [eq_tab_getD hv 0, eq_tab_getD hv' 0]
  exact tab_congr fun x hx => (h x hx).unique (h' x hx)

/-! The butterfly (R222). -/

section
variable {p : LimbMod} (hp : p.Exact)
include hp

/-- R146, R147: the Barrett multiplier of a limb is exact. -/
theorem LimbMod.mul_eq_mod {a b : Nat} (ha : a < p.q) (hb : b < p.q) : p.mul a b = a * b % p.q := by
  rw [LimbMod.mul, hp.shift, hp.recip, multMod_eq_mod hp.range ha hb]

theorem butterfly_eq {a b w : Nat} (ha : a < p.q) (hb : b < p.q) (hw : w < p.q) :
    butterfly p a b w = ((a + b * w) % p.q, (a + p.q - b * w % p.q) % p.q) := by
  have ht : b * w % p.q < p.q := Nat.mod_lt _ (by omega)
  rw [butterfly, LimbMod.mul_eq_mod hp hb hw, addMod_add ha ht, addMod_sub ha ht, Nat.add_mod_mod]

theorem Residue.mul {a b : Nat} {x y : ZMod p.q} (ha : Residue p.q a x) (hb : Residue p.q b y) :
    Residue p.q (p.mul a b) (x * y) := by
  rw [LimbMod.mul_eq_mod hp ha.lt hb.lt, ← ha.cast, ← hb.cast, ← Nat.cast_mul]
  exact residue_mod ha.pos _

theorem butterfly_residues {a b w : Nat} {x y z : ZMod p.q} (ha : Residue p.q a x) (hb : Residue p.q b y)
    (hw : Residue p.q w z) :
    Residue p.q (butterfly p a b w).1 (x + y * z) ∧ Residue p.q (butterfly p a b w).2 (x - y * z) := by
  rw [butterfly_eq hp ha.lt hb.lt hw.lt]
  obtain ⟨hlt, rfl⟩ := ha
  obtain ⟨-, rfl⟩ := hb
  obtain ⟨-, rfl⟩ := hw
  have hpos := Nat.zero_lt_of_lt hlt
  constructor
  · simpa using residue_mod hpos (a + b * w)
  · have hle : b * w % p.q ≤ a + p.q := (Nat.mod_lt _ hpos).le.trans (Nat.le_add_left ..)
    simpa [Nat.cast_sub hle] using residue_mod hpos (a + p.q - b * w % p.q)

end

/-- Settles O41: the product is exact, and AddMod adds it and subtracts it. -/
theorem butterflyIsExact : Obligations.ButterflyIsExact :=
  fun _ _ _ _ hq hkh hmu => butterfly_eq ⟨hq, hkh, hmu⟩

/-! The pass (R224). -/

theorem brev_lt (l x : Nat) : brev l x < 2 ^ l := by
  induction l generalizing x with
  | zero => exact Nat.one_pos
  | succ l ih =>
    have hbit : x % 2 * 2 ^ l ≤ 1 * 2 ^ l := Nat.mul_le_mul_right _ (by omega)
    have hrest := ih (x / 2)
    rw [brev, pow_succ]
    omega

/-- R223, R230, R231: under `REF` the second half of a twiddle table holds the powers of `psi^2`, where `psi^N = -1`. -/
structure TwiddlePowers (c : Cfg) (q : Nat) (tw : Nat → Nat) (psi : ZMod q) : Prop where
  root : psi ^ c.ringDim = -1
  word : ∀ e < c.ringDim, Residue q (tw (c.ringDim + e)) ((psi ^ 2) ^ e)

section
variable {c : Cfg} {p : LimbMod} {tw : Nat → Nat} {psi : ZMod p.q} (hv : c.Valid) (hp : p.Exact)
  (ht : TwiddlePowers c p.q tw psi)

include hv ht in
/-- R224: the root of a pass, in the stage that follows stage `k` of `l + k + 1`. -/
theorem TwiddlePowers.stage_root {l k : Nat} (hlk : l + k + 1 = c.logs) : ((psi ^ 2) ^ c.sqrt) ^ 2 ^ (l + k) = -1 := by
  rw [← ht.root, ringDim_eq_mul hv, ← pow_mul, ← pow_mul]
  congr 1
  nth_rw 3 [← two_pow_logs hv]
  rw [← hlk, pow_succ]
  ring

include hv ht in
/-- R224: the twiddles of that stage. -/
theorem TwiddlePowers.stage_word {l k r : Nat} (hlk : l + k + 1 = c.logs) (hr : r < 2 ^ k) :
    Residue p.q (tw (c.ringDim + r * (c.ringDim / 2 ^ (k + 1)))) (((psi ^ 2) ^ c.sqrt) ^ (2 ^ l * r)) := by
  have hside : c.sqrt = 2 ^ (k + 1) * 2 ^ l := by rw [← two_pow_logs hv, ← hlk, ← pow_add]; congr 1; omega
  have hstep : c.ringDim / 2 ^ (k + 1) = c.sqrt * 2 ^ l := by
    rw [ringDim_eq_mul hv]
    nth_rw 2 [hside]
    rw [Nat.mul_left_comm, Nat.mul_div_cancel_left _ (by positivity)]
  have hlt : r * (c.sqrt * 2 ^ l) < c.ringDim := by
    have hmul : r * 2 ^ l < c.sqrt := by
      rw [hside]
      exact Nat.mul_lt_mul_of_pos_right (hr.trans (Nat.pow_lt_pow_right (by decide) (by omega))) (by positivity)
    rw [ringDim_eq_mul hv, Nat.mul_left_comm]
    exact Nat.mul_lt_mul_of_pos_left hmul (sqrt_pos hv)
  rw [hstep, ← pow_mul, show c.sqrt * (2 ^ l * r) = r * (c.sqrt * 2 ^ l) by ring]
  exact ht.word _ hlt

/-- R224: a position of a stage is in the upper or in the lower half of a block. -/
theorem exists_stage_pair {l k x : Nat} (hx : x < 2 ^ (k + 1) * 2 ^ l) :
    ∃ b < 2 ^ l, ∃ r < 2 ^ k, x = b * 2 ^ (k + 1) + r ∨ x = b * 2 ^ (k + 1) + (r + 2 ^ k) := by
  have hb := Nat.div_lt_of_lt_mul hx
  have hdecomp := Nat.div_add_mod' x (2 ^ (k + 1))
  have hr : x % 2 ^ (k + 1) < 2 ^ k * 2 := Nat.mod_lt _ (by positivity)
  rcases Nat.lt_or_ge (x % 2 ^ (k + 1)) (2 ^ k) with hlow | hhigh
  · exact ⟨_, hb, _, hlow, .inl hdecomp.symm⟩
  · exact ⟨_, hb, x % 2 ^ (k + 1) - 2 ^ k, by omega, .inr (by omega)⟩

include hv hp ht in
/-- R224: a stage makes each block of two blocks of the stage before it. -/
theorem passStage_residues {l k : Nat} (hlk : l + k + 1 = c.logs) {g : Nat → ZMod p.q} {v : List Nat}
    (h : Residues p.q c.sqrt v fun x => blockSum ((psi ^ 2) ^ c.sqrt) g (l + 1) k (x / 2 ^ k) (x % 2 ^ k)) :
    Residues p.q c.sqrt (passStage c p tw (k + 1) v) fun x =>
      blockSum ((psi ^ 2) ^ c.sqrt) g l (k + 1) (x / 2 ^ (k + 1)) (x % 2 ^ (k + 1)) := by
  have hside : c.sqrt = 2 ^ l * 2 * 2 ^ k := by rw [← two_pow_logs hv, ← hlk]; ring
  have hblock : ∀ b < 2 ^ l * 2, ∀ r < 2 ^ k,
      Residue p.q (v.getD (b * 2 ^ k + r) 0) (blockSum ((psi ^ 2) ^ c.sqrt) g (l + 1) k b r) := by
    intro b hb r hr
    obtain ⟨hdiv, hmod⟩ := mul_add_div_mod hr b
    simpa only [hdiv, hmod] using h (b * 2 ^ k + r) (hside ▸ limb_offset_lt hb hr)
  have hdouble : 2 * 2 ^ k = 2 ^ (k + 1) := (pow_succ' 2 k).symm
  refine residues_tab fun x hx => ?_
  obtain ⟨b, hb, r, hr, hx⟩ := exists_stage_pair (l := l) (k := k) (x := x) (by rw [← hdouble]; linarith)
  have hupper := hblock (2 * b) (by omega) r hr
  have hlower := hblock (2 * b + 1) (by omega) r hr
  rw [show 2 * b * 2 ^ k + r = b * 2 ^ (k + 1) + r by ring] at hupper
  rw [show (2 * b + 1) * 2 ^ k + r = b * 2 ^ (k + 1) + (r + 2 ^ k) by ring] at hlower
  obtain ⟨hfst, hsnd⟩ := butterfly_residues hp hupper hlower (ht.stage_word hv hlk hr)
  rw [Nat.add_sub_cancel, hdouble]
  rcases hx with rfl | rfl
  · obtain ⟨hdiv, hmod⟩ := mul_add_div_mod (show r < 2 ^ (k + 1) by omega) b
    rw [hdiv, hmod, if_pos hr, blockSum_succ, Nat.add_assoc]
    exact hfst
  · obtain ⟨hdiv, hmod⟩ := mul_add_div_mod (show r + 2 ^ k < 2 ^ (k + 1) by omega) b
    rw [hdiv, hmod, if_neg (by omega), blockSum_succ_high (ht.stage_root hv hlk), ← Nat.add_assoc, Nat.add_sub_cancel,
      Nat.add_sub_cancel, Nat.add_assoc]
    exact hsnd

include hv hp ht in
theorem passStages_residues {g : Nat → ZMod p.q} {v : List Nat}
    (h : Residues p.q c.sqrt v fun x => g (brev c.logs x)) (k : Nat) : ∀ l, l + k = c.logs →
      Residues p.q c.sqrt (passStages c p tw v k) fun x =>
        blockSum ((psi ^ 2) ^ c.sqrt) g l k (x / 2 ^ k) (x % 2 ^ k) := by
  induction k with
  | zero =>
    rintro l rfl
    simpa only [passStages, blockSum_zero, pow_zero, Nat.div_one] using h
  | succ k ih => exact fun l hlk => passStage_residues hv hp ht hlk (ih (l + 1) (by omega))

include hv hp ht in
/-- R224: the pass computes the transform of length `S` with the root `psi^(2S)`, in natural order. -/
theorem pass_residues {g : Nat → ZMod p.q} {v : List Nat} (h : Residues p.q c.sqrt v g) :
    Residues p.q c.sqrt (pass c p tw v) (dft c.sqrt ((psi ^ 2) ^ c.sqrt) g) := by
  have hrev : Residues p.q c.sqrt (tab c.sqrt fun x => v.getD (brev c.logs x) 0) fun x => g (brev c.logs x) :=
    residues_tab fun x _ => h _ (two_pow_logs hv ▸ brev_lt c.logs x)
  refine (passStages_residues hv hp ht hrev c.logs 0 (Nat.zero_add _)).congr fun x hx => ?_
  rw [two_pow_logs hv, Nat.div_eq_of_lt hx, Nat.mod_eq_of_lt hx, blockSum_last, two_pow_logs hv]

end

end Sys2Proof.Machine
end

section
/-! PROOFS. NTT_REF and INTT_REF (R226 to R231): with the expected tables they are the negacyclic transform and its
inverse. -/

namespace Sys2Proof.Machine

/-! The steps of the four-step transform (R226). -/

section
variable {c : Cfg} {q : Nat} {xs : List Nat} {g : Nat → ZMod q} (hv : c.Valid) (h : Residues q c.ringDim xs g)
include hv h

/-- R226, step A. -/
theorem onColumns_residues {f : List Nat → List Nat} {F : (Nat → ZMod q) → Nat → ZMod q}
    (hf : ∀ v u, Residues q c.sqrt v u → Residues q c.sqrt (f v) (F u)) :
    Residues q c.ringDim (onColumns c f xs) fun x => F (fun i => g (i * c.sqrt + x % c.sqrt)) (x / c.sqrt) := by
  refine residues_tab fun x hx => ?_
  rw [getD_tab_of_lt _ _ (column_lt hv _)]
  exact hf _ _ (residues_tab fun i hi => h _ (coeff_lt hv hi (column_lt hv _))) _
    (row_lt hv hx)

/-- R226, step D. -/
theorem onRows_residues {f : List Nat → List Nat} {F : (Nat → ZMod q) → Nat → ZMod q}
    (hf : ∀ v u, Residues q c.sqrt v u → Residues q c.sqrt (f v) (F u)) :
    Residues q c.ringDim (onRows c f xs) fun x => F (fun j => g (x / c.sqrt * c.sqrt + j)) (x % c.sqrt) := by
  refine residues_tab fun x hx => ?_
  have hrow := row_lt hv hx
  rw [getD_tab_of_lt _ _ hrow]
  exact hf _ _ (residues_tab fun j hj => h _ (coeff_lt hv hrow hj)) _ (column_lt hv _)

/-- R226, step E. -/
theorem transpose_residues :
    Residues q c.ringDim (transpose c xs) fun x => g (x % c.sqrt * c.sqrt + x / c.sqrt) :=
  residues_tab fun _ hx => h _ (coeff_lt hv (column_lt hv _) (row_lt hv hx))

end

section
variable {c : Cfg} {p : LimbMod} {tw : Nat → Nat} {psi : ZMod p.q} {xs : List Nat} {g : Nat → ZMod p.q}

/-- R226, step A0, and R227, step F. -/
theorem twist_residues (hp : p.Exact) {u : Nat → ZMod p.q} (htw : ∀ e < c.ringDim, Residue p.q (tw e) (u e))
    (h : Residues p.q c.ringDim xs g) : Residues p.q c.ringDim (twist c p tw xs) fun x => g x * u x :=
  residues_tab fun x hx => (h x hx).mul hp (htw x hx)

variable (hv : c.Valid) (hp : p.Exact) (ht : TwiddlePowers c p.q tw psi) (h : Residues p.q c.ringDim xs g)
include hv hp ht h

/-- R226, step B: the twiddles are words of the table, for `i * j` is below `N`. -/
theorem twiddle_residues : Residues p.q c.ringDim (twiddle c p tw xs) fun x =>
    g x * (psi ^ 2) ^ (x / c.sqrt * (x % c.sqrt)) := by
  refine residues_tab fun x hx => (h x hx).mul hp (ht.word _ ?_)
  have hrow := row_lt hv hx
  rw [ringDim_eq_mul hv]
  exact Nat.mul_lt_mul'' hrow (column_lt hv _)

/-- R226: steps A, B, D and E compute the transform of length `N` with the root `psi^2`, in natural order. -/
theorem fourStep_residues : Residues p.q c.ringDim (fourStep c p tw xs) (dft c.ringDim (psi ^ 2) g) := by
  have hpass := fun v u => pass_residues (v := v) (g := u) hv hp ht
  have hrows := onRows_residues hv (twiddle_residues hv hp ht (onColumns_residues hv h hpass)) hpass
  have hroot : (psi ^ 2) ^ (c.sqrt * c.sqrt) = 1 := by
    rw [← ringDim_eq_mul hv, ← pow_mul, mul_comm, pow_mul, ht.root]
    norm_num
  refine (transpose_residues hv hrows).congr fun y hy => ?_
  obtain ⟨m, hm, k, hk, rfl⟩ := exists_row_column hv hy
  obtain ⟨hdiv, hmod⟩ := mul_add_div_mod hk m
  obtain ⟨hdiv', hmod'⟩ := mul_add_div_mod hm k
  rw [hdiv, hmod, hdiv', hmod', ringDim_eq_mul hv, dft_four_step hroot]
  refine dft_congr (fun j hj => ?_) _ _
  obtain ⟨hdivj, hmodj⟩ := mul_add_div_mod hj k
  rw [hdivj, hmodj]

end

/-! The tables of a primitive root (R228, R230, R231). -/

/-- R228: output `y` of the negacyclic transform of the residues `g`. The factor `psi^x` is the twist of step A0. -/
def negacyclic {R : Type} [CommRing R] (n : Nat) (psi : R) (g : Nat → R) (y : Nat) : R :=
  dft n (psi ^ 2) (fun x => g x * psi ^ x) y

/-- R228: output `y` of the inverse sum. -/
def negacyclicInv {R : Type} [CommRing R] (n : Nat) (psiInv nInv : R) (g : Nat → R) (y : Nat) : R :=
  dft n (psiInv ^ 2) g y * (nInv * psiInv ^ y)

/-- R228: the first sum of the spec. -/
theorem natCast_sumTo_negacyclic (q n psi y : Nat) (xs : List Nat) :
    ((sumTo n fun m => xs.getD m 0 * psi ^ (m * (2 * y + 1)) : Nat) : ZMod q) =
      negacyclic n (psi : ZMod q) (fun x => (xs.getD x 0 : ZMod q)) y := by
  rw [sumTo_eq_sum, negacyclic, dft, Nat.cast_sum]
  refine Finset.sum_congr rfl fun m _ => ?_
  push_cast
  ring

/-- R228: the second sum of the spec. -/
theorem natCast_sumTo_negacyclicInv (q n psiInv nInv y : Nat) (xs : List Nat) :
    ((nInv * psiInv ^ y * sumTo n fun j => xs.getD j 0 * psiInv ^ (2 * y * j) : Nat) : ZMod q) =
      negacyclicInv n (psiInv : ZMod q) nInv (fun x => (xs.getD x 0 : ZMod q)) y := by
  rw [sumTo_eq_sum, negacyclicInv, dft, Nat.cast_mul, Nat.cast_sum, mul_comm, Nat.cast_mul, Nat.cast_pow]
  congr 1
  refine Finset.sum_congr rfl fun j _ => ?_
  push_cast
  ring

section
variable {c : Cfg} {q psi psiInv nInv : Nat} {table xs : List Nat} {g : Nat → ZMod q}
  (hv : c.Valid) (hr : RootOf c.ringDim q psi psiInv nInv)
include hr

/-- R228: what is asked of the root, in residues. -/
theorem rootOf_cast :
    (psi : ZMod q) ^ c.ringDim = -1 ∧ (psi : ZMod q) * psiInv = 1 ∧ (c.ringDim : ZMod q) * nInv = 1 := by
  obtain ⟨h1, -, hpsi, hinv, hn⟩ := hr
  have hone : ∀ a : Nat, a % q = 1 → (a : ZMod q) = 1 := fun a ha => by rw [← ZMod.natCast_mod, ha, Nat.cast_one]
  refine ⟨?_, by rw [← Nat.cast_mul, hone _ hinv], by rw [← Nat.cast_mul, hone _ hn]⟩
  rw [← Nat.cast_pow, ← ZMod.natCast_mod, hpsi, Nat.cast_sub h1.le, ZMod.natCast_self, Nat.cast_one, zero_sub]

/-- R228: the inverse of `psi` is a root as `psi` is. -/
theorem inverse_root : (psiInv : ZMod q) ^ c.ringDim = -1 := by
  obtain ⟨hpsi, hinv, -⟩ := rootOf_cast hr
  have hprod : (psi : ZMod q) ^ c.ringDim * psiInv ^ c.ringDim = 1 := by rw [← mul_pow, hinv, one_pow]
  rwa [hpsi, neg_one_mul, neg_eq_iff_eq_neg] at hprod

/-- R230, R231: a table word that is given modulo `q`. -/
theorem residue_of_eq_mod {a b : Nat} {z : ZMod q} (h : a = b % q) (hz : (b : ZMod q) = z) : Residue q a z := by
  obtain ⟨h1, -⟩ := hr
  rw [h, ← hz]
  exact residue_mod (by omega) b

/-- R144: the constants of a limb with that modulus. -/
theorem exact_barrett : LimbMod.Exact ⟨q, barrettShift q, barrettRecip q⟩ := by
  obtain ⟨-, hq, -⟩ := hr
  exact ⟨hq, rfl, rfl⟩

include hv

/-- R226, R230: the residues NTT_REF leaves. -/
theorem nttRef_residues (ht : ForwardTable c.ringDim q psi table) (h : Residues q c.ringDim xs g) :
    Residues q c.ringDim (nttRef c ⟨q, barrettShift q, barrettRecip q⟩ (fun f => table.getD f 0) xs)
      (negacyclic c.ringDim (psi : ZMod q) g) := by
  have hp := exact_barrett hr
  have hpow : TwiddlePowers c q (fun f => table.getD f 0) (psi : ZMod q) :=
    ⟨(rootOf_cast hr).1, fun e he => residue_of_eq_mod hr (ht e he).2 (by rw [Nat.cast_pow, pow_mul])⟩
  have htwist := twist_residues hp (fun e he => residue_of_eq_mod hr (ht e he).1 (Nat.cast_pow _ _)) h
  exact fourStep_residues hv hp hpow htwist

/-- R227, R231: the residues INTT_REF leaves. -/
theorem inttRef_residues (ht : InverseTable c.ringDim q psiInv nInv table) (h : Residues q c.ringDim xs g) :
    Residues q c.ringDim (inttRef c ⟨q, barrettShift q, barrettRecip q⟩ (fun f => table.getD f 0) xs)
      (negacyclicInv c.ringDim (psiInv : ZMod q) nInv g) := by
  have hp := exact_barrett hr
  have hpow : TwiddlePowers c q (fun f => table.getD f 0) (psiInv : ZMod q) :=
    ⟨inverse_root hr, fun e he => residue_of_eq_mod hr (ht e he).2 (by rw [Nat.cast_pow, pow_mul])⟩
  exact twist_residues hp (fun e he => residue_of_eq_mod hr (ht e he).1 (by rw [Nat.cast_mul, Nat.cast_pow]))
    (fourStep_residues hv hp hpow h)

/-- R229: the inverse sum of the negacyclic transform. -/
theorem negacyclicInv_negacyclic {y : Nat} (hy : y < c.ringDim) :
    negacyclicInv c.ringDim (psiInv : ZMod q) nInv (negacyclic c.ringDim (psi : ZMod q) g) y = g y := by
  have hinvRoot := inverse_root hr
  obtain ⟨hroot, hinv, hn⟩ := rootOf_cast hr
  have hcancel : (psi : ZMod q) ^ y * psiInv ^ y = 1 := by rw [← mul_pow, hinv, one_pow]
  have hN := ringDim_eq_two_pow hv
  rw [hN] at hroot hinvRoot hn hy ⊢
  have hdft := dft_dft hroot hinvRoot hinv (fun x => g x * (psi : ZMod q) ^ x) hy
  rw [negacyclicInv, show negacyclic _ (psi : ZMod q) g = dft _ _ _ from rfl, hdft]
  linear_combination g y * psi ^ y * psiInv ^ y * hn + g y * hcancel

/-- R229: the negacyclic transform of the inverse sum. -/
theorem negacyclic_negacyclicInv {y : Nat} (hy : y < c.ringDim) :
    negacyclic c.ringDim (psi : ZMod q) (negacyclicInv c.ringDim (psiInv : ZMod q) nInv g) y = g y := by
  have hinvRoot := inverse_root hr
  obtain ⟨hroot, hinv, hn⟩ := rootOf_cast hr
  have htwist : ∀ x, negacyclicInv c.ringDim (psiInv : ZMod q) nInv g x * (psi : ZMod q) ^ x =
      nInv * dft c.ringDim ((psiInv : ZMod q) ^ 2) g x := fun x => by
    have hcancel : (psi : ZMod q) ^ x * psiInv ^ x = 1 := by rw [← mul_pow, hinv, one_pow]
    rw [negacyclicInv]
    linear_combination dft c.ringDim ((psiInv : ZMod q) ^ 2) g x * nInv * hcancel
  simp only [negacyclic, htwist, dft_const_mul]
  have hN := ringDim_eq_two_pow hv
  rw [hN] at hroot hinvRoot hn hy ⊢
  rw [dft_dft hinvRoot hroot (by rw [mul_comm, hinv]) g hy]
  linear_combination g y * hn

end

/-- Settles O46: the residues of both transforms are those of the sums, and the words are reduced. -/
theorem refComputesTheNegacyclicTransform : Obligations.RefComputesTheNegacyclicTransform := by
  intro c q psi psiInv nInv fwd inv xs hv hr hf hi hl hx
  have h := residues_of_forall_lt hl hx
  refine ⟨fun j hj => Residue.eq_mod ?_, fun m hm => Residue.eq_mod ?_⟩
  · rw [natCast_sumTo_negacyclic]
    exact nttRef_residues hv hr hf h j hj
  · rw [natCast_sumTo_negacyclicInv]
    exact inttRef_residues hv hr hi h m hm

@[simp] theorem length_nttRef (c : Cfg) (p : LimbMod) (tw : Nat → Nat) (xs : List Nat) :
    (nttRef c p tw xs).length = c.ringDim := length_fourStep ..

@[simp] theorem length_inttRef (c : Cfg) (p : LimbMod) (tw : Nat → Nat) (xs : List Nat) :
    (inttRef c p tw xs).length = c.ringDim := length_tab ..

/-- Settles O47: either composition leaves the residues of the tile, and a reduced word is determined by its residue. -/
theorem refRoundTrip : Obligations.RefRoundTrip := by
  intro c q psi psiInv nInv fwd inv xs hv hr hf hi hl hx
  have h := residues_of_forall_lt hl hx
  constructor
  · have hback := inttRef_residues hv hr hi (nttRef_residues hv hr hf h)
    exact Residues.unique (length_inttRef ..) hl (hback.congr fun y hy => negacyclicInv_negacyclic hv hr hy) h
  · have hback := nttRef_residues hv hr hf (inttRef_residues hv hr hi h)
    exact Residues.unique (length_nttRef ..) hl (hback.congr fun y hy => negacyclic_negacyclicInv hv hr hy) h

end Sys2Proof.Machine
end

section
/-! PROOFS. The last refusal checks of NTT and INTT (R225, R334): the twiddle tables and, of an NTT under `REF`, the
words that must have been written. -/

namespace Sys2Proof.Machine

/-- R225: the tables of an active limb under `REF` lie in the blocks of the access set (R109), for `BU_NUM` is at
least 2. -/
theorem twiddle_inside {s : State} (hv : s.cfg.Valid) (href : s.cfg.nttConvention = .ref) {twb off n l f : Nat}
    (hin : (twiddleSpan s.cfg twb off n).inside s.cfg.extWords) (hl : l < n) (hf : f < 2 * s.cfg.ringDim) :
    twb + (off + l) * s.cfg.twn + f < s.cfg.extWords := by
  obtain ⟨-, -, -, hrows, -⟩ := hv
  have htwn : 2 * s.cfg.ringDim ≤ s.cfg.twn := Nat.mul_le_mul_right _ (hrows href)
  have := Span.lt_of_inside hin (limb_offset_lt hl (hf.trans_le htwn))
  simp only [twiddleSpan] at this
  rw [Nat.add_mul]
  omega

/-- R225, R334: a table that is read has every word `REF` reads below the modulus. -/
theorem readTable_eq_ok {s : State} {base q : Nat} {table : List Nat} (h : readTable s base q = .ok table) :
    TableOk s base q := by
  intro href f hf hread
  rw [readTable, href] at h
  have hword := (gather_eq_ok h).2 f hf 0
  rw [if_pos hread] at hword
  obtain ⟨w, hr, hword⟩ := bind_eq_ok.1 hword
  obtain ⟨_, hc, -⟩ := bind_eq_ok.1 hword
  rw [wordAt_of_coreRead hr]
  exact check_eq_ok.1 hc

/-- R225, R334: a table inside EXT that is not read is refused. -/
theorem readTable_eq_error {s : State} {base q : Nat} {e : Stop} (href : s.cfg.nttConvention = .ref)
    (hin : ∀ f < 2 * s.cfg.ringDim, base + f < s.cfg.extWords) (h : readTable s base q = .error e) :
    e = .refuse .operandRange := by
  rw [readTable, href] at h
  obtain ⟨f, hf, hword⟩ := gather_eq_error h
  by_cases hread : refReads s.cfg f = true
  · obtain ⟨w, hr, -⟩ := coreRead_wordAt (hin f hf)
    rw [if_pos hread, hr, ok_bind] at hword
    rcases bind_eq_error.1 hword with hc | ⟨_, -, hc⟩
    · exact (check_eq_error.1 hc).2.symm
    · cases hc
  · rw [if_neg hread] at hword
    cases hword

/-- R240, R241: NTT when `forward`, else INTT. -/
abbrev transformInstr (forward : Bool) (n off a d m kh mu tw : Nat) : Instr :=
  if forward then .ntt n off a d m kh mu tw else .intt n off a d m kh mu tw

/-- R109, R240, R241: the operands of NTT and INTT, by the names the checks use. -/
theorem transformInstr_operands (forward : Bool) (n off a d m kh mu tw : Nat) (c : Cfg) :
    (transformInstr forward n off a d m kh mu tw).modular = some (n, off, m) ∧
      (transformInstr forward n off a d m kh mu tw).operandBuffers = [a] ∧
      (transformInstr forward n off a d m kh mu tw).barrettTables = some (kh, mu) ∧
      twiddleSpan c tw off n ∈ readSpans c (transformInstr forward n off a d m kh mu tw) := by
  cases forward <;> exact ⟨rfl, rfl, rfl, by simp [transformInstr, readSpans]⟩

/-- R240, R241: the kernel of either. -/
theorem kernel_transformInstr (forward : Bool) (n off a d m kh mu tw : Nat) (s : State) :
    kernel (transformInstr forward n off a d m kh mu tw) s =
      transformLimbs forward (transformInstr forward n off a d m kh mu tw) n off a d m kh mu tw s := by
  cases forward <;> rfl

section
variable {s : State} {forward : Bool} {n off a d m kh mu tw : Nat}

/-- R225, R334: past its checks of operands and Barrett constants a transform that fails to read a table ends so. -/
theorem kernel_table_error {e : Stop} (hb : BoundaryOk s (transformInstr forward n off a d m kh mu tw) n off)
    (hm : ModuliOk s (m + off) n) (ho : OperandsOk s a n (m + off))
    (hbar : BarrettOk s (m + off) (kh + off) (mu + off) n)
    (hw : InputsWritten s (transformInstr forward n off a d m kh mu tw))
    (he : ∀ qs : List Nat, (∀ l < n, qs.getD l 0 = wordAt s (m + off + l)) →
      (gather n fun l => readTable s (tw + (off + l) * s.cfg.twn) (qs.getD l 0)) = .error e) :
    kernel (transformInstr forward n off a d m kh mu tw) s = .error e := by
  obtain ⟨hfields, hbufs, htables, -⟩ := transformInstr_operands forward n off a d m kh mu tw s.cfg
  have ⟨_, _, hin⟩ := hb
  obtain ⟨qs, hq, hval, hpass⟩ := modular_checks_ok hfields hb hm (by rwa [hbufs, List.forall_mem_singleton])
  obtain ⟨-, -, htab⟩ := modular_inside hfields hin
  obtain ⟨hkh, hmu⟩ := htab kh mu htables
  rw [hbufs, List.forall_mem_singleton] at hpass
  rw [kernel_transformInstr, transformLimbs, hq, ok_bind, checkWritten_eq_ok (u := ()).2 hw, ok_bind, hpass, ok_bind,
    readBarrett_ok hkh hmu hval hbar, ok_bind, he qs hval, error_bind]

/-- R225, R334: a table with a word out of range stops the reading of the tables. -/
theorem readTables_refused {l : Nat} {qs : List Nat} (hv : s.cfg.Valid) (href : s.cfg.nttConvention = .ref)
    (hin : (twiddleSpan s.cfg tw off n).inside s.cfg.extWords) (hl : l < n)
    (hbad : ¬ TableOk s (tw + (off + l) * s.cfg.twn) (qs.getD l 0)) :
    (gather n fun l => readTable s (tw + (off + l) * s.cfg.twn) (qs.getD l 0)) = .error (.refuse .operandRange) := by
  cases h : gather n fun l => readTable s (tw + (off + l) * s.cfg.twn) (qs.getD l 0) with
  | ok tables => exact absurd (readTable_eq_ok ((gather_eq_ok h).2 l hl [])) hbad
  | error e =>
    obtain ⟨l', hl', h'⟩ := gather_eq_error h
    rw [readTable_eq_error href (fun f hf => twiddle_inside hv href hin hl' hf) h']

/-- Case 11 of 95_test_vectors.md section 8.2: past its boundary checks an NTT that reads a word nothing has written is
refused. -/
theorem kernel_ntt_unwritten (hb : BoundaryOk s (.ntt n off a d m kh mu tw) n off) (hm : ModuliOk s (m + off) n)
    (hw : ¬ InputsWritten s (.ntt n off a d m kh mu tw)) :
    kernel (.ntt n off a d m kh mu tw) s = .error (.refuse .unwrittenRead) := by
  have ⟨_, _, hin⟩ := hb
  obtain ⟨hmod, -, -⟩ := modular_inside (i := .ntt n off a d m kh mu tw) rfl hin
  rw [kernel, transformLimbs, modularBoundary_ok hb hmod hm, ok_bind, checkWritten, check_of_neg hw, error_bind]

end

/-- Settles O49: the twiddle tables are the last words checked, and the words an NTT must find written the first after
its boundary checks. -/
theorem outOfRangeOrUnwrittenWordRefused : Obligations.OutOfRangeOrUnwrittenWordRefused := by
  constructor
  · intro s forward n off a d m kh mu tw l f hv href i hb hm ho hbar hw hl hf hread hrange
    obtain ⟨-, -, -, hspan⟩ := transformInstr_operands forward n off a d m kh mu tw s.cfg
    have ⟨_, _, hin, _⟩ := hb
    have hkernel : kernel i s = .error (.refuse .operandRange) := kernel_table_error hb hm ho hbar hw fun qs hval => by
      refine readTables_refused hv href (hin _ hspan) hl fun hok => ?_
      rw [hval l hl] at hok
      exact absurd (hok href f hf hread) (not_lt.2 hrange)
    rw [exec_eq_finish, hkernel, finish_refuse]
  · intro s n off a d m kh mu tw l x href hb hm hl hx hread
    have hw : ¬ InputsWritten s (.ntt n off a d m kh mu tw) := fun h => by
      simpa [Written, hread] using h x (mem_mustBeWritten_ntt.2 ⟨href, l, hl, hx⟩)
    rw [exec_eq_finish, kernel_ntt_unwritten hb hm hw, finish_refuse]

end Sys2Proof.Machine
end

section
/-! PROOFS. The DMA (R272 to R274, R276): Load and Store in terms of the words of a tiled buffer, in address order. -/

namespace Sys2Proof.Machine

/-- R272, R274: a Load of a buffer inside EXT goes on: word `y` of the buffer is coefficient `y mod N` of tile
`y div N` (R271), and the tiles of inactive limbs are untouched. -/
theorem load_buffer {s : State} {base n : Nat} (bank : List Tile) (hN : 0 < s.cfg.ringDim)
    (hin : (tiledSpan s.cfg base n).inside s.cfg.extWords) :
    ∃ bank', load s base bank n = .ok bank' ∧ (∀ l, n ≤ l → slot bank' l = slot bank l) ∧
      ∀ y < n * s.cfg.ringDim, (slot bank' (y / s.cfg.ringDim)).read (y % s.cfg.ringDim) =
        some (extWord s.ext (base + y)) := by
  obtain ⟨bank', hload, hrest, -⟩ := load_inside bank (limbsInside_of hin)
  obtain ⟨tiles, hlen, rfl, htiles⟩ := load_eq_ok hload
  refine ⟨_, hload, hrest, fun y hy => ?_⟩
  have hl : y / s.cfg.ringDim < n := Nat.div_lt_of_lt_mul (by rwa [Nat.mul_comm])
  obtain ⟨-, -, hwords⟩ := htiles _ hl
  have haddr : tiledAddr s.cfg base (y / s.cfg.ringDim) (y % s.cfg.ringDim) = base + y := by
    rw [tiledAddr, Nat.add_assoc, Nat.div_add_mod']
  rw [slot_putTiles_of_lt (hlen ▸ hl), (hwords _ (Nat.mod_lt _ hN)).2, haddr]

/-- R273, R274: a Store of written tiles to a buffer inside EXT goes on: it writes their words there in address order,
and no other word of EXT. -/
theorem store_buffer {s : State} {base n : Nat} {bank : List Tile} {g : Nat → Word}
    (hin : (tiledSpan s.cfg base n).inside s.cfg.extWords)
    (h : ∀ y < n * s.cfg.ringDim, (slot bank (y / s.cfg.ringDim)).read (y % s.cfg.ringDim) = some (g y)) :
    ∃ t, store s base bank n = .ok t ∧ (∀ y < n * s.cfg.ringDim, t.ext.read (base + y) = some (g y)) ∧
      SameOutside s t (tiledSpan s.cfg base n) := by
  refine ⟨_, store_ok hin h, fun y hy => ?_, fun a ha => ?_⟩
  · rw [Memory.read_writeWords, length_tab, if_pos (by omega), getElem?_tab, Nat.add_sub_cancel_left, if_pos hy]
  · rw [Memory.read_writeWords, length_tab]
    exact if_neg ha

/-- Settles O50: Store writes back the words that Load took from EXT. -/
theorem storeOfLoadCopies : Obligations.StoreOfLoadCopies := by
  intro s src dst n bank hv hsrc hdst
  obtain ⟨bank', hload, hrest, hwords⟩ := load_buffer bank (ringDim_pos hv) hsrc
  obtain ⟨t, hstore, hcopied, houtside⟩ := store_buffer hdst hwords
  exact ⟨bank', t, hload, hstore, hrest, hcopied, houtside⟩

end Sys2Proof.Machine
end

section
/-! PROOFS. BCONV up to its last refusal check: the overflow check is a check on all the exact sums (R297, R334). -/

namespace Sys2Proof.Machine

/-- R17: a loop of checks that end alike is one check, that all of them pass. -/
theorem each_eq_check {n : Nat} {f : Nat → Res Unit} {p : Nat → Prop} [DecidablePred p]
    [Decidable (∀ x < n, p x)] {e : Stop} (h : ∀ x < n, f x = check (p x) e) :
    each n f = check (∀ x < n, p x) e := by
  by_cases hall : ∀ x < n, p x
  · rw [check_of_pos hall]
    exact each_ok fun x hx => (h x hx).trans (check_of_pos (hall x hx) e)
  · rw [check_of_neg hall]
    obtain ⟨l, hl, hfail⟩ : ∃ l < n, ¬ p l := by simpa using hall
    refine each_error hl (fun x hx => ?_) ((h l hl).trans (check_of_neg hfail e))
    rw [h x hx]
    by_cases hp : p x
    · exact .inl (check_of_pos hp e)
    · exact .inr (check_of_neg hp e)

/-- R77, R291: the words of a row-major buffer of `n` rows and `w` columns inside EXT are words of EXT. -/
theorem Span.matrix_word_lt {words base n w x y : Nat} (h : Span.inside words ⟨base, n * w⟩) (hx : x < n) (hy : y < w) :
    base + x * w + y < words := by
  rw [Nat.add_assoc]
  exact Span.lt_of_inside h (limb_offset_lt hx hy)

/-- R291: the word of row `x` and column `y` of a row-major buffer is in its range. -/
theorem Span.has_matrix_word {n w x y : Nat} (base : Nat) (hx : x < n) (hy : y < w) :
    Span.Has ⟨base, n * w⟩ (base + x * w + y) :=
  ⟨by simp only; omega, by have := limb_offset_lt hx hy; simp only; omega⟩

/-- R290: the first `n` terms of the exact sum of output `(r, c)`. -/
def partialSum (s : State) (a b n r c : Nat) : Nat :=
  sumTo n fun k => wordAt s (a + r * s.cfg.sizeQ + k) * wordAt s (b + k * s.cfg.sizeP + c)

theorem partialSum_succ (s : State) (a b n r c : Nat) : partialSum s a b (n + 1) r c = partialSum s a b n r c +
    wordAt s (a + r * s.cfg.sizeQ + n) * wordAt s (b + n * s.cfg.sizeP + c) := rfl

/-- R297: no exact sum is beyond the accumulator. -/
abbrev SumsFit (s : State) (a b : Nat) : Prop :=
  ∀ r < s.cfg.ringDim, ∀ c < s.cfg.sizeP, partialSum s a b s.cfg.sizeQ r c < 2 ^ s.cfg.accWidth

section
variable {s : State} {a b d m : Nat}

/-- R109: the words BCONV reads and writes, by row and column of their buffers, are words of EXT. -/
theorem bconv_words_inside (h : InRange s (.bconv a b d m)) :
    (∀ r < s.cfg.ringDim, ∀ k < s.cfg.sizeQ, a + r * s.cfg.sizeQ + k < s.cfg.extWords) ∧
    (∀ k < s.cfg.sizeQ, ∀ c < s.cfg.sizeP, b + k * s.cfg.sizeP + c < s.cfg.extWords) ∧
    ∀ r < s.cfg.ringDim, ∀ c < s.cfg.sizeP, d + r * s.cfg.sizeP + c < s.cfg.extWords := by
  obtain ⟨hread, hwrite⟩ := h
  have hx : Span.inside s.cfg.extWords ⟨a, s.cfg.ringDim * s.cfg.sizeQ⟩ := hread _ (by simp [readSpans])
  have hw : Span.inside s.cfg.extWords ⟨b, s.cfg.sizeQ * s.cfg.sizeP⟩ := hread _ (by simp [readSpans])
  exact ⟨fun _ hr _ hk => Span.matrix_word_lt hx hr hk, fun _ hk _ hc => Span.matrix_word_lt hw hk hc,
    fun _ hr _ hc => Span.matrix_word_lt hwrite hr hc⟩

/-- R290: the exact sum the refusal check computes. -/
theorem exactSum_ok (h : InRange s (.bconv a b d m)) {r c : Nat} (hr : r < s.cfg.ringDim) (hc : c < s.cfg.sizeP) :
    exactSum s a b r c = .ok (partialSum s a b s.cfg.sizeQ r c) := by
  obtain ⟨hx, hw, -⟩ := bconv_words_inside h
  rw [exactSum, gather_ok (g := fun k => wordAt s (a + r * s.cfg.sizeQ + k) * wordAt s (b + k * s.cfg.sizeP + c))
    fun k hk => by rw [coreRead_ok (hx r hr k hk), coreRead_ok (hw k hk c hc)]; rfl, ok_bind, sum_tab]
  rfl

/-- R305, R334: past the boundary checks and the alias check, BCONV checks the exact sums, and then it runs. -/
theorem kernel_bconv (hr : InRange s (.bconv a b d m)) (hm : ModuliOk s m s.cfg.sizeP)
    (ho : ∀ r ∈ readSpans s.cfg (.bconv a b d m), ¬ (writeSpan s.cfg (.bconv a b d m)).overlaps r) :
    kernel (.bconv a b d m) s = (do
      check (SumsFit s a b) (.refuse .bconvOverflow)
      let s' ← configure b m (beginKernel s)
      bconvCycles a d (runLength s.cfg) 0 s') := by
  rw [kernel, baseConvert, checkRange, check_of_pos hr, ok_bind, readModuli_ok (bconv_moduli_inside hr) hm, ok_bind,
    check_of_pos ho, ok_bind,
    each_eq_check fun r hr' => each_eq_check fun c hc => by rw [exactSum_ok hr hr' hc, ok_bind]]

end

/-- Settles O54: one exact sum beyond the accumulator fails the overflow check. -/
theorem bconvOverflowRefused : Obligations.BconvOverflowRefused := by
  intro s a b d m r c hin hm ho hr hc hsum
  have hfail : ¬ SumsFit s a b := fun hfit => absurd (hfit r hr c hc) (Nat.not_lt.2 hsum)
  rw [exec_eq_finish, kernel_bconv hin hm ho, check_of_neg hfail, error_bind, finish_refuse]

end Sys2Proof.Machine
end

section
/-! PROOFS. The run of BCONV (R293 to R303): what the latches and the collectors hold before each cycle, for all initial
latches. -/

namespace Sys2Proof.Machine

/-- A sequence goes on, to a result with `q`, if its first part goes on to one with `p` and its second part does from
there. -/
theorem bind_exists {α β : Type} {x : Res α} {f : α → Res β} {p : α → Prop} {q : β → Prop} (hx : ∃ v, x = .ok v ∧ p v)
    (hf : ∀ v, p v → ∃ w, f v = .ok w ∧ q w) : ∃ w, (x >>= f) = .ok w ∧ q w := by
  obtain ⟨v, rfl, hp⟩ := hx
  exact hf v hp

/-- R17: a loop whose iterations all go on goes on, and its values have what each iteration gives. -/
theorem gather_exists {α : Type} {n : Nat} {f : Nat → Res α} {p : Nat → α → Prop} (d : α)
    (h : ∀ x < n, ∃ v, f x = .ok v ∧ p x v) : ∃ vs, gather n f = .ok vs ∧ ∀ x < n, p x (vs.getD x d) := by
  cases hg : gather n f with
  | ok vs =>
    refine ⟨vs, rfl, fun x hx => ?_⟩
    obtain ⟨v, hv, hp⟩ := h x hx
    obtain rfl : v = vs.getD x d := Except.ok.inj (hv.symm.trans ((gather_eq_ok hg).2 x hx d))
    exact hp
  | error e =>
    obtain ⟨x, hx, he⟩ := gather_eq_error hg
    obtain ⟨v, hv, -⟩ := h x hx
    rw [hv] at he
    cases he

/-- Replacing an entry of a table. -/
theorem tab_set {α : Type} (n : Nat) (f : Nat → α) (x : Nat) (v : α) :
    (tab n f).set x v = tab n (Function.update f x v) := by
  refine List.ext_getElem (by simp) fun y _ _ => ?_
  rw [List.getElem_set, getElem_tab, getElem_tab, Function.update_apply]
  exact if_congr eq_comm rfl rfl

theorem tab_const {α : Type} (n : Nat) (v : α) : (tab n fun _ => v) = List.replicate n v := by simp [tab]

/-- R303: an invocation of BCONV whose checks pass. -/
structure BconvReady (s : State) (a b d m : Nat) : Prop where
  valid : s.cfg.Valid
  range : InRange s (.bconv a b d m)
  apart : ∀ r ∈ readSpans s.cfg (.bconv a b d m), ¬ (writeSpan s.cfg (.bconv a b d m)).overlaps r
  fit : SumsFit s a b

/-- R293: PE `(k, c)` holds its weight and its column's modulus, as `s` has them in EXT. -/
def Configured (s : State) (b m k c : Nat) (pe : Pe) : Prop :=
  pe.wt.toNat = wordAt s (b + k * s.cfg.sizeP + c) ∧ pe.md.toNat = wordAt s (m + c)

/-- R302: the array before cycle `t`, on the words of `X` and `W` that `s` holds. Word `(r, k)` of `X` enters row `k` in
cycle `r + k` and moves on by one column a cycle, and in each PE it meets the partial sum of its row of `X`. The latches
are named only where a row of `X` has reached them. -/
structure Flowing (s : State) (a b m t : Nat) (pea : List (List Pe)) : Prop where
  stationary : ∀ k < s.cfg.sizeQ, ∀ c < s.cfg.sizeP, Configured s b m k c (peAt pea k c)
  input : ∀ k < s.cfg.sizeQ, ∀ c < s.cfg.sizeP, ∀ r < s.cfg.ringDim, r + k + c + 1 = t →
    (peAt pea k c).xr.toNat = wordAt s (a + r * s.cfg.sizeQ + k)
  sum : ∀ k < s.cfg.sizeQ, ∀ c < s.cfg.sizeP, ∀ r < s.cfg.ringDim, r + k + c + 1 = t →
    (peAt pea k c).sr = partialSum s a b (k + 1) r c

/-- R298: what the collectors have done in `u` once column `c` has captured `rows c` rows: EXT holds those outputs and
is else as in `s`, and the rows are counted. -/
structure Collected (s : State) (a b d m : Nat) (rows : Nat → Nat) (u : State) : Prop where
  cfg : u.cfg = s.cfg
  outside : SameOutside s u (writeSpan s.cfg (.bconv a b d m))
  outputs : ∀ c < s.cfg.sizeP, ∀ r < rows c, u.ext.read (d + r * s.cfg.sizeP + c) =
    some (BitVec.ofNat 64 (partialSum s a b s.cfg.sizeQ r c % wordAt s (m + c)))
  counts : u.captured = tab s.cfg.sizeP rows

/-- R298: the rows the collector of column `c` captures before cycle `t`. -/
def rowsBefore (cfg : Cfg) (t c : Nat) : Nat := min cfg.ringDim (t - (cfg.sizeQ + c))

theorem rowsBefore_zero (cfg : Cfg) (c : Nat) : rowsBefore cfg 0 c = 0 := by simp [rowsBefore]

/-- R300: the run is long enough for every column. -/
theorem rowsBefore_runLength {cfg : Cfg} {c : Nat} (hc : c < cfg.sizeP) :
    rowsBefore cfg (runLength cfg) c = cfg.ringDim := Nat.min_eq_left (by unfold runLength; omega)

section
variable {s u : State} {a b d m t : Nat}

/-- R89: no write of BCONV lands on its input matrix. -/
theorem BconvReady.input_outside (h : BconvReady s a b d m) {r k : Nat} (hr : r < s.cfg.ringDim)
    (hk : k < s.cfg.sizeQ) : ¬ (writeSpan s.cfg (.bconv a b d m)).Has (a + r * s.cfg.sizeQ + k) :=
  fun hw => h.apart _ (by simp [readSpans]) (Span.overlaps_of_common hw (Span.has_matrix_word a hr hk))

/-- R297: the partial sums of a row fit the accumulator, as its full sum does. -/
theorem BconvReady.partialSum_lt (h : BconvReady s a b d m) {n r c : Nat} (hn : n ≤ s.cfg.sizeQ)
    (hr : r < s.cfg.ringDim) (hc : c < s.cfg.sizeP) : partialSum s a b n r c < 2 ^ s.cfg.accWidth :=
  (le_sumTo _ hn).trans_lt (h.fit r hr c hc)

/-! The collectors. -/

/-- The row counts of the columns of the array alone matter. -/
theorem Collected.congr {rows rows' : Nat → Nat} (hu : Collected s a b d m rows u)
    (h : ∀ c < s.cfg.sizeP, rows' c = rows c) : Collected s a b d m rows' u :=
  ⟨hu.cfg, hu.outside, fun c hc r hr => hu.outputs c hc r (h c hc ▸ hr), hu.counts.trans (tab_congr h).symm⟩

/-- R298: capturing the next row of a column writes its output, which no other capture writes, and counts it. -/
theorem Collected.capture {rows : Nat → Nat} (hu : Collected s a b d m rows u) {c : Nat} (hc : c < s.cfg.sizeP)
    (hrow : rows c < s.cfg.ringDim) :
    Collected s a b d m (Function.update rows c (rows c + 1)) { u with
      ext := u.ext.write (d + rows c * s.cfg.sizeP + c)
        (BitVec.ofNat 64 (partialSum s a b s.cfg.sizeQ (rows c) c % wordAt s (m + c)))
      captured := u.captured.set c (u.captured.getD c 0 + 1) } where
  cfg := hu.cfg
  outside x hx := by
    have hmine : (writeSpan s.cfg (.bconv a b d m)).Has (d + rows c * s.cfg.sizeP + c) := Span.has_matrix_word d hrow hc
    exact (Memory.read_write_other _ _ fun e => hx (by rwa [e])).trans (hu.outside x hx)
  outputs c' hc' r hr := by
    simp only [Memory.read_write]
    split_ifs with e
    · have hsame : r * s.cfg.sizeP + c' = rows c * s.cfg.sizeP + c := by omega
      obtain ⟨hdiv, hmod⟩ := hsame ▸ mul_add_div_mod hc' r
      obtain ⟨hdiv', hmod'⟩ := mul_add_div_mod hc (rows c)
      rw [← hdiv, ← hmod, hdiv', hmod']
    · refine hu.outputs c' hc' r ?_
      rw [Function.update_apply] at hr
      split_ifs at hr with hcc
      · subst hcc
        have hne : r ≠ rows c' := fun h => e (by rw [h])
        omega
      · exact hr
  counts := by simp only [hu.counts, tab_set, getD_tab_of_lt _ _ hc]

/-- R298: the collector of a column in cycle `t`. -/
theorem collectColumn_collected (h : BconvReady s a b d m) (hf : Flowing s a b m t u.pea) {rows : Nat → Nat}
    (hu : Collected s a b d m rows u) {c : Nat} (hc : c < s.cfg.sizeP) (hrows : rows c = rowsBefore s.cfg t c) :
    ∃ v, collectColumn d t c u = .ok v ∧ v.pea = u.pea ∧
      Collected s a b d m (Function.update rows c (rowsBefore s.cfg (t + 1) c)) v := by
  obtain ⟨-, -, hdst⟩ := bconv_words_inside h.range
  obtain ⟨-, -, -, -, hQ, -⟩ := h.valid
  simp only [collectColumn, hu.cfg]
  by_cases hrun : s.cfg.sizeQ + c ≤ t ∧ t - s.cfg.sizeQ - c < s.cfg.ringDim
  · obtain ⟨-, hmod⟩ := hf.stationary (s.cfg.sizeQ - 1) (by omega) c hc
    have hbefore : t - s.cfg.sizeQ - c = rows c := by rw [hrows, rowsBefore]; omega
    have hafter : rowsBefore s.cfg (t + 1) c = rows c + 1 := by rw [← hbefore, rowsBefore]; omega
    have hrow : rows c < s.cfg.ringDim := hbefore ▸ hrun.2
    have hsum := hf.sum (s.cfg.sizeQ - 1) (by omega) c hc (rows c) hrow (by omega)
    rw [Nat.sub_add_cancel hQ] at hsum
    rw [if_pos hrun, hbefore, hsum, hmod, hafter,
      coreWrite_eq_ok.2 ⟨hu.cfg ▸ hdst _ hrow c hc, rfl⟩, ok_bind]
    exact ⟨_, rfl, rfl, hu.capture hc hrow⟩
  · have hsame : rowsBefore s.cfg (t + 1) c = rows c := by rw [hrows, rowsBefore, rowsBefore]; omega
    rw [if_neg hrun, hsame, Function.update_eq_self]
    exact ⟨u, rfl, rfl, hu⟩

/-- R299: the collectors of the first `n` columns in cycle `t`. -/
theorem collect_collected (h : BconvReady s a b d m) (hf : Flowing s a b m t u.pea)
    (hu : Collected s a b d m (rowsBefore s.cfg t) u) {n : Nat} (hn : n ≤ s.cfg.sizeP) :
    ∃ v, collect d t n u = .ok v ∧ v.pea = u.pea ∧
      Collected s a b d m (fun c => rowsBefore s.cfg (if c < n then t + 1 else t) c) v := by
  induction n with
  | zero => exact ⟨u, rfl, rfl, by simpa using hu⟩
  | succ n ih =>
    refine bind_exists (ih (by omega)) fun v ⟨hpea, hcol⟩ => ?_
    obtain ⟨w, hw, hpea', hcol'⟩ := collectColumn_collected h (hpea ▸ hf) hcol hn (by simp)
    refine ⟨w, hw, hpea'.trans hpea, hcol'.congr fun c hc => ?_⟩
    by_cases hcn : c = n
    · subst hcn
      rw [Function.update_self, if_pos (Nat.lt_succ_self c)]
    · rw [Function.update_of_ne hcn]
      exact congrArg (rowsBefore s.cfg · c) (if_congr (by omega) rfl rfl)

/-! The cells. -/

/-- R295: what is fed to row `k` in cycle `t`. -/
theorem feed_flowing (h : BconvReady s a b d m) {rows : Nat → Nat} (hu : Collected s a b d m rows u) {k : Nat}
    (hk : k < s.cfg.sizeQ) (t : Nat) : ∃ w, feed a k t u = .ok w ∧
      ∀ r < s.cfg.ringDim, r + k = t → w.toNat = wordAt s (a + r * s.cfg.sizeQ + k) := by
  obtain ⟨hin, -, -⟩ := bconv_words_inside h.range
  rw [feed, hu.cfg]
  by_cases hrun : k ≤ t ∧ t - k < s.cfg.ringDim
  · rw [if_pos hrun, coreRead_ok (by rw [hu.cfg]; exact hin _ hrun.2 k hk)]
    refine ⟨_, rfl, fun r hr ht => ?_⟩
    obtain rfl : t - k = r := by omega
    rw [wordAt, extWord, extWord, hu.outside _ (h.input_outside hr hk)]
  · exact ⟨0, if_neg hrun, fun r hr ht => absurd ⟨by omega, by omega⟩ hrun⟩

/-- R294, R296, R304: one step of the cells moves every word and every partial sum on by one PE. -/
theorem stepCells_flowing (h : BconvReady s a b d m) (hcfg : u.cfg = s.cfg) (hf : Flowing s a b m t u.pea)
    {feeds : List Word} (hfeeds : ∀ k < s.cfg.sizeQ, ∀ r < s.cfg.ringDim, r + k = t →
      (feeds.getD k 0).toNat = wordAt s (a + r * s.cfg.sizeQ + k)) :
    Flowing s a b m (t + 1) (stepCells feeds u).pea := by
  obtain ⟨pea, hs, -, hp⟩ := stepCells_eq feeds u
  rw [hcfg] at hp
  rw [hs]
  have hx : ∀ k < s.cfg.sizeQ, ∀ c < s.cfg.sizeP, ∀ r < s.cfg.ringDim, r + k + c = t →
      (if c = 0 then feeds.getD k 0 else (peAt u.pea k (c - 1)).xr).toNat = wordAt s (a + r * s.cfg.sizeQ + k) := by
    intro k hk c hc r hr ht
    split_ifs with h0
    · exact hfeeds k hk r hr (by omega)
    · exact hf.input k hk (c - 1) (by omega) r hr (by omega)
  refine ⟨fun k hk c hc => ?_, fun k hk c hc r hr ht => ?_, fun k hk c hc r hr ht => ?_⟩
  · rw [hp k hk c hc]
    exact hf.stationary k hk c hc
  · rw [hp k hk c hc]
    exact hx k hk c hc r hr (by omega)
  · have habove : (if k = 0 then 0 else (peAt u.pea (k - 1) c).sr) = partialSum s a b k r c := by
      split_ifs with h0
      · rw [h0]; rfl
      · rw [hf.sum (k - 1) (by omega) c hc r hr (by omega), Nat.sub_add_cancel (by omega)]
    obtain ⟨hweight, -⟩ := hf.stationary k hk c hc
    rw [hp k hk c hc]
    simp only [habove, hx k hk c hc r hr (by omega), hweight, ← partialSum_succ]
    exact Nat.mod_eq_of_lt (h.partialSum_lt hk hr hc)

/-! The run. -/

/-- R302, R298: the machine before cycle `t` of a run of BCONV. -/
structure Converting (s : State) (a b d m t : Nat) (u : State) : Prop where
  flowing : Flowing s a b m t u.pea
  collected : Collected s a b d m (rowsBefore s.cfg t) u

/-- R305: one cycle goes on. -/
theorem bconvCycle_converting (h : BconvReady s a b d m) (hu : Converting s a b d m t u) :
    ∃ v, bconvCycle a d t u = .ok v ∧ Converting s a b d m (t + 1) v := by
  obtain ⟨hf, hstart⟩ := hu
  have hclock : Collected s a b d m (rowsBefore s.cfg t) { u with cyc := t } :=
    ⟨hstart.cfg, hstart.outside, hstart.outputs, hstart.counts⟩
  have hP : u.cfg.sizeP = s.cfg.sizeP := congrArg Cfg.sizeP hstart.cfg
  rw [bconvCycle, hP]
  refine bind_exists (collect_collected (u := { u with cyc := t }) h hf hclock le_rfl) fun v ⟨hpea, hcol⟩ => ?_
  rw [hcol.cfg]
  refine bind_exists (gather_exists 0 fun k hk => feed_flowing h hcol hk t) fun feeds hfeeds => ⟨_, rfl, ?_, ?_⟩
  · exact stepCells_flowing h hcol.cfg (hpea ▸ hf) hfeeds
  · have hnext := hcol.congr (rows' := rowsBefore s.cfg (t + 1)) fun c hc => by rw [if_pos hc]
    exact ⟨hnext.cfg, hnext.outside, hnext.outputs, hnext.counts⟩

/-- R300: the cycles from `t` on. -/
theorem bconvCycles_converting (h : BconvReady s a b d m) (hu : Converting s a b d m t u) (n : Nat) :
    ∃ v, bconvCycles a d n t u = .ok v ∧ Converting s a b d m (t + n) v := by
  induction n generalizing t u with
  | zero => exact ⟨u, rfl, hu⟩
  | succ n ih =>
    refine bind_exists (bconvCycle_converting h hu) fun v hv => ?_
    rw [← Nat.add_assoc, Nat.add_right_comm]
    exact ih hv

/-- R293: configuration puts the weights and the moduli in place; no row of `X` has come in, and none is captured. -/
theorem configure_converting (h : BconvReady s a b d m) :
    ∃ u, configure b m (beginKernel s) = .ok u ∧ Converting s a b d m 0 u := by
  obtain ⟨-, hw, -⟩ := bconv_words_inside h.range
  have hm := bconv_moduli_inside h.range
  refine bind_exists (gather_exists
    (p := fun k row => ∀ c < s.cfg.sizeP, Configured s b m k c (row.getD c ⟨0, 0, 0, 0⟩)) [] fun k hk => gather_exists _ fun c hc => ?_) fun pea hpea => ⟨_, rfl, ?_, ?_⟩
  · rw [beginKernel_cfg, coreRead_ok (s := beginKernel s) (hw k hk c hc), coreRead_ok (s := beginKernel s) (hm c hc)]
    exact ⟨_, rfl, rfl, rfl⟩
  · exact ⟨hpea, fun _ _ _ _ _ _ ht => absurd ht (by omega), fun _ _ _ _ _ _ ht => absurd ht (by omega)⟩
  · refine ⟨rfl, fun _ _ => rfl, fun c _ r hr => absurd hr (by simp [rowsBefore_zero]), ?_⟩
    exact ((tab_congr fun c _ => rowsBefore_zero s.cfg c).trans (tab_const _ _)).symm

/-- R300: `CYC` ends at the last cycle of the run. -/
theorem bconvCycles_cyc {src dst n : Nat} {v : State} (hv : bconvCycles src dst n t u = .ok v) (hn : n ≠ 0) :
    v.cyc = t + n - 1 := by
  obtain ⟨_, _, _, cyc, rfl, hcyc, -⟩ := bconvCycles_eq_ok hv
  exact hcyc.trans (if_neg hn)

/-- R303: the invocation goes on to its end, where every collector has captured all `N` rows. -/
theorem kernel_bconv_ok (h : BconvReady s a b d m) (hm : ModuliOk s m s.cfg.sizeP) :
    ∃ v, kernel (.bconv a b d m) s = .ok v ∧ Collected s a b d m (fun _ => s.cfg.ringDim) v ∧
      v.cyc = runLength s.cfg - 1 := by
  obtain ⟨u, hu, hstart⟩ := configure_converting h
  obtain ⟨v, hrun, -, hcol⟩ := bconvCycles_converting h hstart (runLength s.cfg)
  have hcyc := bconvCycles_cyc hrun (runLength_pos h.valid).ne'
  rw [Nat.zero_add] at hcol hcyc
  refine ⟨v, ?_, hcol.congr fun c hc => (rowsBefore_runLength hc).symm, hcyc⟩
  rw [kernel_bconv h.range hm h.apart, check_of_pos h.fit, ok_bind, hu, ok_bind, hrun]

end

/-- Settles O51: whatever the initial latches, the latches that the collectors read hold the exact sums, and the run is
long enough for every row of every column. -/
theorem bconvResult : Obligations.BconvResult := by
  intro s a b d m hv hin hm ho sum hfit
  obtain ⟨u, hk, hcol, hcyc⟩ := kernel_bconv_ok ⟨hv, hin, ho, hfit⟩ hm
  have hx : exec (.bconv a b d m) s = .next (complete u) := by rw [exec_eq_finish, hk, finish_ok]
  exact ⟨complete u, hx, rfl, exec_sameControl hx, hcol.outside, fun r hr c hc => hcol.outputs c hc r hr, hcyc,
    hcol.counts.trans (tab_const _ _)⟩

end Sys2Proof.Machine
end

section
/-! PROOFS. No active limb (R335): with `NLIMB = 0` the access set is empty, the loops over the limbs make no iteration, and
past the index check and the parity check a tiled kernel leaves what the start of phase 4 leaves. -/

namespace Sys2Proof.Machine

/-! The phases of an invocation with no active limb. -/

/-- R109, R335: an access set without limbs holds no word, wherever the buffers and tables are. -/
theorem inRange_no_limbs {i : Instr} {s : State} (h : i.limbs = some 0) : InRange s i := by
  have hspan (base : Nat) : (tiledSpan s.cfg base 0).inside s.cfg.extWords := .inl (Nat.zero_mul _)
  have hentry (base off : Nat) : (entrySpan base off 0).inside s.cfg.extWords := .inl rfl
  have htable (base off : Nat) : (twiddleSpan s.cfg base off 0).inside s.cfg.extWords := .inl (Nat.zero_mul _)
  cases i <;> simp only [Instr.limbs, Option.some.injEq, reduceCtorEq] at h <;> subst h <;>
    simp only [InRange, readSpans, writeSpan, List.forall_mem_cons, List.not_mem_nil, false_implies, implies_true,
      hspan, hentry, htable, and_self]

/-- R363, R335: no modulus is read. -/
theorem modularBoundary_no_limbs {i : Instr} {s : State} {off m : Nat} (hr : InRange s i) (h : off ≤ s.cfg.numModuli) :
    modularBoundary s i 0 off m = .ok [] :=
  modularBoundary_ok ⟨Nat.zero_le _, h, hr⟩ (fun _ hl => absurd hl (Nat.not_lt_zero _))
    fun _ hl => absurd hl (Nat.not_lt_zero _)

/-- R104: the second boundary check fails when the modulus indices go past the tables. -/
theorem modularBoundary_index_error {i : Instr} {s : State} {n off m : Nat} (hn : n ≤ s.cfg.maxLimbs)
    (h : ¬ off + n ≤ s.cfg.numModuli) : modularBoundary s i n off m = .error (.raise .modIndex) := by
  rw [modularBoundary, checkLimbs, check_of_pos hn, ok_bind, checkModIndex, check_of_neg h, error_bind]

theorem operandsBelow_no_limbs (s : State) (src : Nat) (qs : List Nat) : operandsBelow s src 0 qs = .ok () := rfl

theorem readBarrett_no_limbs (s : State) (kh mu off : Nat) (qs : List Nat) : readBarrett s kh mu off 0 qs = .ok [] := rfl

/-- Case 11 of 95_test_vectors.md section 8.2 asks for no written word. -/
theorem inputsWritten_no_limbs {i : Instr} {s : State} (h : i.limbs = some 0) : InputsWritten s i := by
  cases i with
  | ntt n =>
    obtain rfl : n = 0 := Option.some.inj h
    intro x hx
    obtain ⟨-, l, hl, -⟩ := mem_mustBeWritten_ntt.1 hx
    exact absurd hl (Nat.not_lt_zero l)
  | _ => exact fun _ hx => absurd hx List.not_mem_nil

/-- R272: a Load of no limb leaves the bank. -/
theorem load_no_limbs (s : State) (base : Nat) (bank : List Tile) : load s base bank 0 = .ok bank := rfl

/-- R273: a Store of no limb leaves the state. -/
theorem store_no_limbs (s : State) (base : Nat) (bank : List Tile) : store s base bank 0 = .ok s := by
  rw [store, Nat.zero_mul, gather, ok_bind, coreWriteWords]

theorem runElementwise_no_limbs (op : Nat → Nat → Nat → Nat) (a b d : Nat) (s : State) :
    runElementwise op 0 a b d s = .ok s := by
  rw [runElementwise, load_no_limbs, ok_bind, load_no_limbs, ok_bind, gather, ok_bind, store_no_limbs]
  rfl

theorem runPermutation_no_limbs (unit : Nat → Tile → Res Tile) (a d : Nat) (s : State) :
    runPermutation unit 0 a d s = .ok s := by
  rw [runPermutation, load_no_limbs, ok_bind, gather, ok_bind, store_no_limbs]
  rfl

theorem runTransform_no_limbs (forward : Bool) (ps : List LimbMod) (tables : List (List Nat)) (a d : Nat) (s : State) :
    runTransform forward ps tables 0 a d s = .ok s := by
  rw [runTransform, load_no_limbs, ok_bind, gather, ok_bind, store_no_limbs]
  rfl

/-! The kernels. -/

/-- R335: a tiled kernel with no active limb that passes its index check and, for AUTO, its parity check goes on, and
changes nothing after the start of phase 4. -/
theorem kernel_no_limbs {i : Instr} {s : State} (h : i.limbs = some 0)
    (hidx : ∀ n off m, i.modular = some (n, off, m) → off ≤ s.cfg.numModuli)
    (hodd : ∀ n off st a d m, i = .auto n off st a d m → galoisElement s.cfg st % 2 = 1) :
    kernel i s = .ok (beginKernel s) := by
  have hr : InRange s i := inRange_no_limbs h
  have hq (off m : Nat) (hm : i.modular = some (0, off, m)) : modularBoundary s i 0 off m = .ok [] :=
    modularBoundary_no_limbs hr (hidx 0 off m hm)
  have hwritten : checkWritten s i = .ok () := checkWritten_eq_ok.2 (inputsWritten_no_limbs h)
  cases i <;> simp only [Instr.limbs, Option.some.injEq, reduceCtorEq] at h <;> subst h
  case add | sub => simp only [kernel, addSub, hq _ _ rfl, ok_bind, operandsBelow_no_limbs, runElementwise_no_limbs]
  case mul =>
    simp only [kernel, mulLimbs, hq _ _ rfl, ok_bind, operandsBelow_no_limbs, readBarrett_no_limbs,
      runElementwise_no_limbs]
  case ntt | intt =>
    simp only [kernel, transformLimbs, hq _ _ rfl, ok_bind, hwritten, operandsBelow_no_limbs, readBarrett_no_limbs,
      gather, runTransform_no_limbs]
  case auto =>
    simp only [kernel, autoLimbs, hq _ _ rfl, ok_bind, check_of_pos (hodd _ _ _ _ _ _ rfl), operandsBelow_no_limbs,
      runPermutation_no_limbs]
  case ilvR | ilvL =>
    simp only [kernel, interleaveLimbs, checkLimbs, check_of_pos (Nat.zero_le _), checkRange, check_of_pos hr, ok_bind,
      runPermutation_no_limbs]

/-- Settles O22: the index check comes first and the parity check next, and past them nothing is read and nothing
stored. -/
theorem noActiveLimbs : Obligations.NoActiveLimbs := by
  intro i s hi indexOk oddStep
  refine ⟨fun hbad => ?_, fun hidx hbad => ?_, fun hidx hodd => ?_⟩
  · simp only [indexOk, not_forall] at hbad
    obtain ⟨n, off, m, hm, hoff⟩ := hbad
    obtain rfl : n = 0 := Option.some.inj ((modular_limbs hm).symm.trans hi)
    rw [exec_eq_finish, kernel_boundary_error hm (modularBoundary_index_error (Nat.zero_le _) hoff), finish_raise]
    rfl
  · simp only [oddStep, not_forall] at hbad
    obtain ⟨n, off, st, a, d, m, rfl, heven⟩ := hbad
    obtain rfl : n = 0 := Option.some.inj hi
    exact evenGaloisElementRaises s 0 off st a d m ⟨Nat.zero_le _, hidx 0 off m rfl, inRange_no_limbs hi⟩
      (fun _ hl => absurd hl (Nat.not_lt_zero _)) (by omega)
  · have hx : exec i s = .next (complete (beginKernel s)) := by
      rw [exec_eq_finish, kernel_no_limbs hi hidx hodd, finish_ok]
    exact ⟨_, hx, rfl, rfl, exec_sameControl hx⟩

end Sys2Proof.Machine
end

section
/-! PROOFS. INIT (R330). -/

namespace Sys2Proof.Machine

theorem exec_init (s : State) : exec .init s = .refused .initUndefined := rfl

/-- R110: INIT alone has opcode 0. -/
theorem eq_init_of_opcode {i : Instr} (h : i.opcode = 0) : i = .init := by
  cases i with
  | init => rfl
  | _ => cases h

/-- Settles O23: opcode 0 is not reserved, so the decoder rejects the snapshot for `RSV` or answers INIT (R114). -/
theorem initIsRefused : Obligations.InitIsRefused := by
  refine fun s => ⟨exec_init s, fun hg hc ho => ?_⟩
  obtain ⟨-, hrsv, hrun⟩ := reservedEncodingsRaise s hg hc
  have hfree : ¬ (10 ≤ s.snap.opc ∨ (7 ≤ s.snap.opc ∧ s.cfg.extPermOps = false)) := by omega
  refine ⟨fun hr => ?_, hrsv hfree⟩
  obtain ⟨i, -, hi, hstep⟩ := hrun hfree hr
  rw [hstep, eq_init_of_opcode (hi.trans ho), exec_init]

end Sys2Proof.Machine
end

section
/-! PROOFS. The encoder and the decoder (R101, R107, R114): each field of an encoded descriptor reads back. -/

namespace Sys2Proof.Machine

/-- R101: the fields `NLIMB`, `MOFF` and `STEP` that the encoder puts into the CMD word. -/
def cmdFields : Instr → Nat × Nat × Nat
  | .init => (0, 0, 0)
  | .add n off .. => (n, off, 0)
  | .sub n off .. => (n, off, 0)
  | .mul n off .. => (n, off, 0)
  | .ntt n off .. => (n, off, 0)
  | .intt n off .. => (n, off, 0)
  | .bconv .. => (0, 0, 0)
  | .auto n off st .. => (n, off, st)
  | .ilvR n .. => (n, 0, 0)
  | .ilvL n .. => (n, 0, 0)

theorem encode_cmd (i : Instr) :
    (encode i).cmd = cmdWord i.opcode (cmdFields i).1 (cmdFields i).2.1 (cmdFields i).2.2 := by
  cases i <;> rfl

/-- R101: the fields of a well-formed instruction fit their 16 bits. -/
theorem cmdFields_lt {i : Instr} (h : i.wellFormed = true) :
    (cmdFields i).1 < 2 ^ 16 ∧ (cmdFields i).2.1 < 2 ^ 16 ∧ (cmdFields i).2.2 < 2 ^ 16 := by
  cases i <;> simp only [Instr.wellFormed, Bool.and_eq_true, decide_eq_true_eq] at h <;>
    simp only [cmdFields] <;> omega

/-- R101: the CMD word of a well-formed instruction reads back, field by field. -/
theorem encode_cmd_fields {i : Instr} (h : i.wellFormed = true) :
    (encode i).opc = i.opcode ∧ (encode i).rsv = 0 ∧ (encode i).nlimb = (cmdFields i).1 ∧
      (encode i).moff = (cmdFields i).2.1 ∧ (encode i).step = (cmdFields i).2.2 := by
  obtain ⟨hn, hm, hs⟩ := cmdFields_lt h
  simp only [Desc.opc, Desc.rsv, Desc.nlimb, Desc.moff, Desc.step, encode_cmd]
  exact cmdWord_fields (opcode_lt i) hn hm hs

/-- R114: past the two checks of the opcode and of `RSV`, a well-formed instruction comes back, with its operands. -/
theorem decode_encode {extOps : Bool} {i : Instr} (h : i.wellFormed = true)
    (hext : ¬ (7 ≤ i.opcode ∧ extOps = false)) : decode extOps (encode i) = .instr i := by
  obtain ⟨hopc, hrsv, hn, hm, hs⟩ := encode_cmd_fields h
  rw [decode, hopc, hrsv, hn, hm, hs,
    if_neg (fun hres => hres.elim (Nat.not_le.2 (opcode_lt i)) hext), if_neg (not_not.2 rfl)]
  cases i <;> simp only [Instr.wellFormed, Bool.and_eq_true, decide_eq_true_eq] at h <;>
    simp only [Instr.opcode, cmdFields, encode, word_toNat, h]

/-- Settles O1: an extension opcode is reserved when `EXT_PERM_OPS` is off; every other opcode passes, and each field
reads back. -/
theorem decodeUndoesEncode : Obligations.DecodeUndoesEncode := by
  intro extOps i h
  split_ifs with hext
  · obtain ⟨hopc, -⟩ := encode_cmd_fields h
    exact decode_reserved (.inr (hopc ▸ hext))
  · exact decode_encode h hext

end Sys2Proof.Machine
end

section
/-! PROOFS. The codes of a rejected invocation (R332, R361, R362): every check and every access that stops a kernel
stops it with a code of 3 to 8, a refusal or a fault. -/

namespace Sys2Proof.Machine

/-- R363: the stops that come after decoding: any but the codes 1 and 2, which are the decoder's. -/
def Stop.late : Stop → Bool
  | .raise code => decide (3 ≤ errNumber code)
  | .refuse _ => true
  | .fault _ => true

/-- A result that, if it is a stop, is a late one. -/
structure EndsLate {α : Type} (x : Res α) : Prop where
  late : ∀ e, x = .error e → e.late = true

section
variable {α β : Type}

theorem endsLate_ok (a : α) : EndsLate (.ok a : Res α) := ⟨fun _ h => nomatch h⟩

theorem endsLate_check {p : Prop} [Decidable p] {e : Stop} (he : e.late = true) : EndsLate (check p e) :=
  ⟨fun _ h => (check_eq_error.1 h).2 ▸ he⟩

theorem EndsLate.bind {x : Res α} {f : α → Res β} (hx : EndsLate x) (hf : ∀ a, EndsLate (f a)) : EndsLate (x >>= f) :=
  ⟨fun e h => (bind_eq_error.1 h).elim (hx.late e) fun ⟨a, _, ha⟩ => (hf a).late e ha⟩

theorem endsLate_gather {n : Nat} {f : Nat → Res α} (hf : ∀ x, EndsLate (f x)) : EndsLate (gather n f) := ⟨fun e h =>
  have ⟨x, _, hx⟩ := gather_eq_error h
  (hf x).late e hx⟩

theorem endsLate_each {n : Nat} {f : Nat → Res Unit} (hf : ∀ x, EndsLate (f x)) : EndsLate (each n f) := ⟨fun e h =>
  have ⟨x, _, hx⟩ := each_eq_error h
  (hf x).late e hx⟩

end

/-! Words, Load and Store. -/

theorem coreRead_endsLate (s : State) (a : Nat) : EndsLate (coreRead s a) :=
  ⟨fun _ h => (coreRead_eq_error h).1 ▸ rfl⟩

theorem coreWrite_endsLate (s : State) (a : Nat) (v : Word) : EndsLate (coreWrite s a v) :=
  ⟨fun _ h => coreWrite_eq_error h ▸ rfl⟩

theorem tileValues_endsLate (c : Cfg) (t : Tile) : EndsLate (tileValues c t) :=
  ⟨fun _ h => tileValues_eq_error h ▸ rfl⟩

theorem load_endsLate (s : State) (base : Nat) (bank : List Tile) (n : Nat) : EndsLate (load s base bank n) :=
  ⟨fun _ h => (load_eq_error h).elim fun _ ha => ha ▸ rfl⟩

theorem store_endsLate (s : State) (base : Nat) (bank : List Tile) (n : Nat) : EndsLate (store s base bank n) :=
  ⟨fun _ h => (store_eq_error h).elim (fun hr => hr ▸ rfl) fun ⟨_, ha⟩ => ha ▸ rfl⟩

/-! The checks (R363, R334). -/

theorem validModulus_endsLate (w : Word) : EndsLate (validModulus w) :=
  (endsLate_check rfl).bind fun _ => (endsLate_check rfl).bind fun _ => endsLate_ok _

theorem readModuli_endsLate (s : State) (base n : Nat) : EndsLate (readModuli s base n) :=
  endsLate_gather fun _ => (coreRead_endsLate ..).bind validModulus_endsLate

theorem checkLimbs_endsLate (s : State) (n : Nat) : EndsLate (checkLimbs s n) := endsLate_check rfl

theorem checkModIndex_endsLate (s : State) (n off : Nat) : EndsLate (checkModIndex s n off) := endsLate_check rfl

theorem checkRange_endsLate (s : State) (i : Instr) : EndsLate (checkRange s i) := endsLate_check rfl

theorem modularBoundary_endsLate (s : State) (i : Instr) (n off m : Nat) : EndsLate (modularBoundary s i n off m) :=
  (checkLimbs_endsLate ..).bind fun _ => (checkModIndex_endsLate ..).bind fun _ =>
    (checkRange_endsLate ..).bind fun _ => readModuli_endsLate ..

theorem operandsBelow_endsLate (s : State) (base n : Nat) (qs : List Nat) : EndsLate (operandsBelow s base n qs) :=
  endsLate_each fun _ => endsLate_each fun _ => (coreRead_endsLate ..).bind fun _ => endsLate_check rfl

theorem readBarrett_endsLate (s : State) (kh mu off n : Nat) (qs : List Nat) :
    EndsLate (readBarrett s kh mu off n qs) :=
  endsLate_gather fun _ => (coreRead_endsLate ..).bind fun _ => (coreRead_endsLate ..).bind fun _ =>
    (endsLate_check rfl).bind fun _ => endsLate_ok _

theorem checkWritten_endsLate (s : State) (i : Instr) : EndsLate (checkWritten s i) := endsLate_check rfl

theorem readTable_endsLate (s : State) (base q : Nat) : EndsLate (readTable s base q) := by
  unfold readTable
  cases s.cfg.nttConvention with
  | ref =>
    refine endsLate_gather fun f => ?_
    split_ifs
    · exact (coreRead_endsLate ..).bind fun _ => (endsLate_check rfl).bind fun _ => endsLate_ok _
    · exact endsLate_ok _
  | opq => exact endsLate_gather fun _ => (coreRead_endsLate ..).bind fun _ => endsLate_ok _

/-! Phase 4 of the tiled kernels. -/

theorem runElementwise_endsLate (op : Nat → Nat → Nat → Nat) (n a b d : Nat) (s : State) :
    EndsLate (runElementwise op n a b d s) :=
  (load_endsLate ..).bind fun _ => (load_endsLate ..).bind fun _ =>
    (endsLate_gather fun _ => (tileValues_endsLate ..).bind fun _ => (tileValues_endsLate ..).bind fun _ =>
      endsLate_ok _).bind fun _ => store_endsLate ..

theorem runTransform_endsLate (forward : Bool) (ps : List LimbMod) (tables : List (List Nat)) (n a d : Nat)
    (s : State) : EndsLate (runTransform forward ps tables n a d s) :=
  (load_endsLate ..).bind fun _ =>
    (endsLate_gather fun _ => (tileValues_endsLate ..).bind fun _ => endsLate_ok _).bind fun _ => store_endsLate ..

theorem permuteTile_endsLate (c : Cfg) (dest : Nat → Nat) (val : Nat → Nat → Nat) (t : Tile) :
    EndsLate (permuteTile c dest val t) :=
  (tileValues_endsLate ..).bind fun _ => endsLate_ok _

theorem runPermutation_endsLate {unit : Nat → Tile → Res Tile} (hu : ∀ l t, EndsLate (unit l t)) (n a d : Nat)
    (s : State) : EndsLate (runPermutation unit n a d s) :=
  (load_endsLate ..).bind fun _ => (endsLate_gather fun _ => hu _ _).bind fun _ => store_endsLate ..

/-! The run of BCONV. -/

theorem configure_endsLate (b m : Nat) (s : State) : EndsLate (configure b m s) :=
  (endsLate_gather fun _ => endsLate_gather fun _ => (coreRead_endsLate ..).bind fun _ =>
    (coreRead_endsLate ..).bind fun _ => endsLate_ok _).bind fun _ => endsLate_ok _

theorem exactSum_endsLate (s : State) (a b r c : Nat) : EndsLate (exactSum s a b r c) :=
  (endsLate_gather fun _ => (coreRead_endsLate ..).bind fun _ => (coreRead_endsLate ..).bind fun _ =>
    endsLate_ok _).bind fun _ => endsLate_ok _

theorem feed_endsLate (a k t : Nat) (s : State) : EndsLate (feed a k t s) := by
  unfold feed
  split_ifs
  · exact coreRead_endsLate ..
  · exact endsLate_ok _

theorem collectColumn_endsLate (d t c : Nat) (s : State) : EndsLate (collectColumn d t c s) := by
  unfold collectColumn
  split_ifs
  · exact (coreWrite_endsLate ..).bind fun _ => endsLate_ok _
  · exact endsLate_ok _

theorem collect_endsLate (d t n : Nat) (s : State) : EndsLate (collect d t n s) := by
  induction n with
  | zero => exact endsLate_ok _
  | succ n ih => exact ih.bind fun _ => collectColumn_endsLate ..

theorem bconvCycle_endsLate (a d t : Nat) (s : State) : EndsLate (bconvCycle a d t s) :=
  (collect_endsLate ..).bind fun _ => (endsLate_gather fun _ => feed_endsLate ..).bind fun _ => endsLate_ok _

theorem bconvCycles_endsLate (a d n t : Nat) (s : State) : EndsLate (bconvCycles a d n t s) := by
  induction n generalizing t s with
  | zero => exact endsLate_ok _
  | succ n ih => exact (bconvCycle_endsLate ..).bind fun _ => ih ..

/-! The kernels. -/

theorem addSub_endsLate (plus : Bool) (i : Instr) (n off a b d m : Nat) (s : State) :
    EndsLate (addSub plus i n off a b d m s) :=
  (modularBoundary_endsLate ..).bind fun _ => (operandsBelow_endsLate ..).bind fun _ =>
    (operandsBelow_endsLate ..).bind fun _ => runElementwise_endsLate ..

theorem mulLimbs_endsLate (i : Instr) (n off a b d m kh mu : Nat) (s : State) :
    EndsLate (mulLimbs i n off a b d m kh mu s) :=
  (modularBoundary_endsLate ..).bind fun _ => (operandsBelow_endsLate ..).bind fun _ =>
    (operandsBelow_endsLate ..).bind fun _ => (readBarrett_endsLate ..).bind fun _ => runElementwise_endsLate ..

theorem transformLimbs_endsLate (forward : Bool) (i : Instr) (n off a d m kh mu tw : Nat) (s : State) :
    EndsLate (transformLimbs forward i n off a d m kh mu tw s) :=
  (modularBoundary_endsLate ..).bind fun _ => (checkWritten_endsLate ..).bind fun _ =>
    (operandsBelow_endsLate ..).bind fun _ => (readBarrett_endsLate ..).bind fun _ =>
    (endsLate_gather fun _ => readTable_endsLate ..).bind fun _ => runTransform_endsLate ..

theorem baseConvert_endsLate (i : Instr) (a b d m : Nat) (s : State) : EndsLate (baseConvert i a b d m s) :=
  (checkRange_endsLate ..).bind fun _ => (readModuli_endsLate ..).bind fun _ => (endsLate_check rfl).bind fun _ =>
    (endsLate_each fun _ => endsLate_each fun _ => (exactSum_endsLate ..).bind fun _ =>
      endsLate_check rfl).bind fun _ =>
    (configure_endsLate ..).bind fun _ => bconvCycles_endsLate ..

theorem autoLimbs_endsLate (i : Instr) (n off st a d m : Nat) (s : State) :
    EndsLate (autoLimbs i n off st a d m s) :=
  (modularBoundary_endsLate ..).bind fun _ => (endsLate_check rfl).bind fun _ =>
    (operandsBelow_endsLate ..).bind fun _ => runPermutation_endsLate (fun _ _ => permuteTile_endsLate ..) ..

theorem interleaveLimbs_endsLate (right : Bool) (i : Instr) (n a d : Nat) (s : State) :
    EndsLate (interleaveLimbs right i n a d s) :=
  (checkLimbs_endsLate ..).bind fun _ => (checkRange_endsLate ..).bind fun _ =>
    runPermutation_endsLate (fun _ _ => permuteTile_endsLate ..) ..

/-- R362: an invocation that the decoder passed is not rejected with a code of the decoder. -/
theorem kernel_endsLate (i : Instr) (s : State) : EndsLate (kernel i s) := by
  cases i with
  | init => exact ⟨fun _ h => by cases h; rfl⟩
  | add | sub => exact addSub_endsLate ..
  | mul => exact mulLimbs_endsLate ..
  | ntt | intt => exact transformLimbs_endsLate ..
  | bconv => exact baseConvert_endsLate ..
  | auto => exact autoLimbs_endsLate ..
  | ilvR | ilvL => exact interleaveLimbs_endsLate ..

theorem errNumber_le (code : ErrCode) : errNumber code ≤ 8 := by cases code <;> decide

/-- Settles O16: an invocation that answers a next state completed, or was stopped by a code, which is a late one. -/
theorem execCompletesOrOnlySetsStatus : Obligations.ExecCompletesOrOnlySetsStatus := by
  intro i s t h
  rcases exec_next h with ⟨u, -, -, rfl⟩ | ⟨code, hk, rfl⟩
  · exact .inl rfl
  · exact .inr ⟨errNumber code, of_decide_eq_true ((kernel_endsLate i s).late _ hk), errNumber_le code, rfl⟩

end Sys2Proof.Machine
end

section
/-! PROOFS. The frames of the kernels (R79, R109, R305): what each leaves alone, read off the footprint. -/

namespace Sys2Proof.Machine

/-- Settles O55: a completed kernel leaves its footprint, and a rejected one changes STATUS alone. -/
theorem tiledFrame : Obligations.TiledFrame := by
  intro i s t n hi h
  refine ⟨exec_sameControl h, ?_⟩
  rcases exec_next h with ⟨u, -, hf, rfl⟩ | ⟨code, -, rfl⟩
  · obtain ⟨hpea, hcap, hdraws, hcyc⟩ := hf.array (by rw [hi]; exact Option.some_ne_none n)
    exact ⟨hf.outside, hpea, hcap, hdraws, fun _ => hcyc, fun hne => absurd rfl hne, hf.idleB.imp_right .inr,
      hf.idleC.imp_right .inr⟩
  · exact ⟨fun _ _ => rfl, rfl, rfl, rfl, fun hdone => absurd hdone (statusError_ne_done code),
      fun _ => ⟨rfl, rfl, rfl⟩, .inr (.inl rfl), .inr (.inl rfl)⟩

/-- Settles O56: a completed BCONV leaves its footprint, and a rejected one changes STATUS alone. -/
theorem bconvFrame : Obligations.BconvFrame := by
  intro s t a b d m h
  refine ⟨exec_sameControl h, ?_⟩
  rcases exec_next h with ⟨u, -, hf, rfl⟩ | ⟨code, -, rfl⟩
  · obtain ⟨hta, htb, htc⟩ := hf.idleA rfl
    exact ⟨hf.outside, .inr hta, .inr htb, .inr htc, fun hne => absurd rfl hne⟩
  · exact ⟨fun _ _ => rfl, .inl rfl, .inl rfl, .inl rfl, fun _ => rfl⟩

end Sys2Proof.Machine
end

section
/-! PROOFS. The invariant of the machine (R8, R36, R41, R43, R70, R371): it holds at reset, and every step keeps it, the
configuration with it. -/

namespace Sys2Proof.Machine

/-! Reset (R48). -/

theorem peaOk_reset (c : Cfg) : PeaOk c (resetPea c) where
  rows := List.length_replicate
  columns row hrow := by rw [List.eq_of_mem_replicate hrow, List.length_replicate]
  sumWidth row hrow pe hpe := by
    rw [List.eq_of_mem_replicate hrow] at hpe
    rw [List.eq_of_mem_replicate hpe]
    exact Nat.two_pow_pos _

theorem inv_resetOf {c : Cfg} (h : c.Valid) : Inv (State.resetOf c) where
  config := h
  status := .inl rfl
  extCanonical := List.Pairwise.nil
  extInside _ hc := absurd hc List.not_mem_nil
  bankA := bankOk_unwritten c
  bankB := bankOk_unwritten c
  bankC := bankOk_unwritten c
  array := peaOk_reset c
  counts := List.length_replicate
  cycles := runLength_pos h
  going := rfl

/-- Settles O58: reset leaves every field at a value the invariant allows. -/
theorem resetMeetsInvariant : Obligations.ResetMeetsInvariant :=
  ⟨fun _ => inv_resetOf, inv_resetOf (by decide)⟩

/-! What the invariant does not look at, and the changes it allows. -/

section
variable {s : State} (h : Inv s)
include h

/-- The invariant asks of STATUS and of EXT what it names, and nothing of the descriptor registers, the snapshot and the
model's own fields. -/
theorem Inv.update {status : Word} {ext : Memory} {desc : Desc (Option Word)} {snap : Desc Word}
    {host : List HostAction} {turns : List Agent} {replies : List Word} {draws : Nat}
    (hstatus : LegalStatus status) (hwf : ext.wf)
    (hin : ext.Below s.cfg.extWords) : Inv { s with
      status := status, ext := ext, desc := desc, snap := snap, host := host, turns := turns, replies := replies,
      draws := draws } :=
  ⟨h.config, hstatus, hwf, hin, h.bankA, h.bankB, h.bankC, h.array, h.counts, h.cycles, h.going⟩

theorem Inv.with_control {desc : Desc (Option Word)} {host : List HostAction} {turns : List Agent}
    {replies : List Word} : Inv { s with desc := desc, host := host, turns := turns, replies := replies } :=
  h.update h.status h.extCanonical h.extInside

theorem Inv.raiseConfigError (code : ErrCode) : Inv (raiseConfigError code s) :=
  h.update (.inr (.inr (.inr ⟨code, rfl⟩))) h.extCanonical h.extInside

theorem Inv.acceptGo (d : Desc Word) : Inv (acceptGo d s) := h.update (.inr (.inl rfl)) h.extCanonical h.extInside

/-- R70: a write inside EXT. -/
theorem Inv.write {x : Nat} (hx : x < s.cfg.extWords) (v : Word) : Inv { s with ext := s.ext.write x v } :=
  h.update h.status (Memory.write_wf h.extCanonical x v) (Memory.write_below h.extInside hx v)

/-- R391: the words that a reset spoils lie inside EXT. -/
theorem Inv.resetEvent : Inv (resetEvent s) := by
  have hin : ∀ x < (pendingWrites s).len, (pendingWrites s).base + x < s.cfg.extWords :=
    fun _ => Span.lt_of_inside (pendingWrites_inside s)
  exact (inv_resetOf h.config).update (.inl rfl) (Memory.scatter_wf h.extCanonical _ _ _)
    (Memory.scatter_below h.extInside hin)

/-- R332: a completed invocation. -/
theorem Inv.complete {i : Instr} {u : State} (hf : Footprint i s u) : Inv (complete u) := by
  have hcfg : u.cfg = s.cfg := hf.control.cfg
  obtain ⟨ha, hb, hc⟩ := hf.banks h.config
  exact
    { config := hcfg ▸ h.config
      status := .inr (.inr (.inl rfl))
      extCanonical := hf.canonical h.extCanonical
      extInside := hcfg ▸ hf.inside h.extInside
      bankA := hcfg ▸ ha
      bankB := hcfg ▸ hb
      bankC := hcfg ▸ hc
      array := hcfg ▸ hf.grid h.array
      counts := hcfg ▸ hf.counts h.counts
      cycles := hcfg ▸ hf.cycles h.config
      going := hf.control.refused.trans h.going }

theorem Inv.exec {i : Instr} {t : State} (he : exec i s = .next t) : Inv t := by
  rcases exec_next he with ⟨u, -, hf, rfl⟩ | ⟨code, -, rfl⟩
  · exact h.complete hf
  · exact h.raiseConfigError code

theorem Inv.runSnapshot {t : State} (hr : runSnapshot s = .next t) : Inv t := by
  rcases runSnapshot_eq_next hr with ⟨i, -, he⟩ | ⟨code, rfl⟩
  · exact h.exec he
  · exact h.raiseConfigError code

/-- R340, R331, R390: the accesses the core accepts. -/
theorem Inv.hostMove {a : HostAction} {t : State} (hm : HostMove s a t) : Inv t := by
  cases hm with
  | readReg | readCtrl | readStatus | readWord | writeReg => exact h.with_control
  | writeClear => exact h
  | go => exact h.acceptGo _
  | writeWord _ hx => exact h.write hx _
  | reset => exact h.resetEvent

end

/-- Settles O57: the invariant ignores the queues that a step shortens, and the agent that moves keeps it. -/
theorem stepKeepsInvariant : Obligations.StepKeepsInvariant := by
  intro s t h hstep
  rcases step_next_cases hstep with ⟨-, hr⟩ | ⟨ts, -, ⟨-, rfl⟩ | ⟨a, rest, -, hm⟩⟩
  · exact Inv.runSnapshot h.with_control hr
  · exact h.with_control
  · exact Inv.hostMove h.with_control hm

theorem HostMove.cfg_eq {s t : State} {a : HostAction} (h : HostMove s a t) : t.cfg = s.cfg := by cases h <;> rfl

/-- Settles O59: neither the core's turn nor a host access changes the configuration. -/
theorem stepKeepsConfiguration : Obligations.StepKeepsConfiguration := by
  intro s t hstep
  rcases step_next_cases hstep with ⟨-, hr⟩ | ⟨ts, -, ⟨-, rfl⟩ | ⟨a, rest, -, hm⟩⟩
  · exact (runSnapshot_sameControl hr).cfg
  · rfl
  · exact hm.cfg_eq

end Sys2Proof.Machine
end

section
/-! PROOFS. The control block at the host port (R34 to R36, R331, R340) and the step of the core (R333, R339). -/

namespace Sys2Proof.Machine

/-- Settles O5: the core's turn runs what the decoder answers, and after a GO the core moves next. -/
theorem stepRunsDecodedInstruction : Obligations.StepRunsDecodedInstruction := by
  refine ⟨fun s i => step_core_instr, fun s nbits w i hg hd => ?_⟩
  have hg' : Going (s.withFetchWord nbits w) := hg
  have hc : CoreNext (s.withFetchWord nbits w) := ⟨busy_acceptGo _ _, .inl rfl⟩
  exact step_core_instr hg' hc hd

/-- Settles O8: a read of STATUS is a reply, and a host with nothing to do passes its turn. -/
theorem statusReadReturnsStatus : Obligations.StatusReadReturnsStatus :=
  fun _ _ _ hg hn => ⟨fun hs => (step_host_cons hg hn hs).trans (ctlRead_status _), step_host_nil hg hn⟩

/-! Writes to the control block while idle. -/

section
variable {s : State} (hg : Going s) (hb : s.busy = false) {rest : List HostAction} {v : Word}
include hg hb

/-- R35, R331: a write to `CTRL`. -/
theorem step_writeCtrl (hs : s.host = .ctlWrite 9 v :: rest) : step s = goWrite v { s with host := rest } :=
  (step_host_cons hg (.inl ⟨hb, rfl⟩) hs).trans (ctlWrite_ctrl (s := { s with host := rest }) hb v)

/-- R34: a write to a descriptor register. -/
theorem step_writeReg {r : Nat} (hr : r ≤ 8) (hs : s.host = .ctlWrite r v :: rest) :
    step s = .next { s with host := rest, desc := setDescReg s.desc r v } :=
  (step_host_cons hg (.inl ⟨hb, rfl⟩) hs).trans (ctlWrite_desc (s := { s with host := rest }) hb hr v)

end

/-- Settles O6: what each access to `CTRL` does is the host port's own rule, and the state a GO leaves is one the core
moves in. -/
theorem goStartsAnInvocation : Obligations.GoStartsAnInvocation := by
  intro s v rest ts hg hn
  refine ⟨fun hs => (step_host_cons hg hn hs).trans (ctlRead_ctrl _), fun hs => ⟨fun hb => ?_, fun hb hv => ?_,
    fun hb hv hd => ?_, fun hb hv d hd => ⟨?_, fun i hc hi => ?_⟩⟩⟩
  · exact (step_host_cons hg hn hs).trans (ctlWrite_busy (s := { s with host := rest, turns := ts }) hb 9 v)
  · exact (step_writeCtrl hg hb hs).trans (goWrite_clear hv _)
  · exact (step_writeCtrl hg hb hs).trans (goWrite_unwritten hv hd)
  · exact (step_writeCtrl hg hb hs).trans (goWrite_accepted hv hd)
  · exact step_core_instr hg hc hi

/-! Reads of descriptor registers. -/

section
variable {s : State} {ts : List Agent} (hg : Going s) (hn : HostNext s ts) {q : Nat} (hq : q ≤ 8)
  {rest : List HostAction} (hs : s.host = .ctlRead q :: rest)
include hg hn hq hs

/-- R340: a read of a written register. -/
theorem step_readReg {w : Word} (hw : descReg s.desc q = some (some w)) :
    step s = .next { s with host := rest, turns := ts, replies := w :: s.replies } :=
  (step_host_cons hg hn hs).trans (ctlRead_desc (s := { s with host := rest, turns := ts }) hq hw)

/-- R34: a read of an unwritten one. -/
theorem step_readReg_unwritten (hw : descReg s.desc q = some none) : step s = .refused .unwrittenRead :=
  (step_host_cons hg hn hs).trans (ctlRead_unwritten (s := { s with host := rest, turns := ts }) hq hw)

end

/-- Settles O7: a write sets one register of the file, and a read returns what the file holds. -/
theorem descriptorRegistersKeepWrites : Obligations.DescriptorRegistersKeepWrites := by
  constructor
  · intro s r q v rest hg hb hr hq hs t
    let mid : State := { t with host := .ctlRead q :: rest }
    have hwrite : step s = .next mid := step_writeReg hg hb hr hs
    have hn : HostNext mid mid.turns := .inl ⟨hb, rfl⟩
    have hreg := descReg_setDescReg s.desc hr hq v
    refine ⟨fun e => ?_, fun e w hw => ?_, fun e hw => ?_⟩
    · rw [if_pos e] at hreg
      exact run_two hwrite (step_readReg (s := mid) hg hn hq rfl hreg)
    · rw [if_neg e, hw] at hreg
      exact run_two hwrite (step_readReg (s := mid) hg hn hq rfl hreg)
    · rw [if_neg e, hw] at hreg
      exact run_two_refused hwrite (step_readReg_unwritten (s := mid) hg hn hq rfl hreg)
  · intro s q rest ts hg hn hq hs
    exact ⟨fun w => step_readReg hg hn hq hs, step_readReg_unwritten hg hn hq hs⟩

/-! The end of an invocation (R339). -/

/-- R332: the core's turn ends the invocation. -/
theorem runSnapshot_not_busy {s t : State} (h : runSnapshot s = .next t) : t.busy = false := by
  rcases runSnapshot_eq_next h with ⟨i, -, he⟩ | ⟨code, rfl⟩
  · exact exec_not_busy he
  · exact busy_raiseConfigError code s

/-- R339: a machine whose core moves next is idle after one step that goes on. -/
theorem run_one_not_busy {s t : State} (hg : Going s) (hc : CoreNext s) (h : core.run 1 s = .next t) :
    t.busy = false := by
  have hstep := run_one h
  rw [step_core hg hc] at hstep
  exact runSnapshot_not_busy hstep

/-- R339: a busy machine whose host moves next, with nothing to do but reads of STATUS. -/
theorem step_poll {s : State} {ts : List Agent} (hg : Going s) (hn : HostNext s ts)
    (hpoll : ∀ a ∈ s.host, a = .ctlRead 10) :
    ∃ host replies, step s = .next { s with host := host, turns := ts, replies := replies } ∧
      ∀ a ∈ host, a = .ctlRead 10 := by
  cases hs : s.host with
  | nil => exact ⟨s.host, s.replies, step_host_nil hg hn hs, hpoll⟩
  | cons a rest =>
    rw [hs, List.forall_mem_cons] at hpoll
    obtain ⟨rfl, hrest⟩ := hpoll
    exact ⟨rest, _, (step_host_cons hg hn hs).trans (ctlRead_status _), hrest⟩

/-- Settles O15: each poll uses up one entry of the schedule, and after them the core moves. -/
theorem pollingSeesTheEnd : Obligations.PollingSeesTheEnd := by
  intro s hg hb hpoll
  induction hts : s.turns generalizing s with
  | nil => exact ⟨1, le_rfl, fun t => run_one_not_busy hg ⟨hb, .inl hts⟩⟩
  | cons a ts ih =>
    cases a with
    | core => exact ⟨1, Nat.le_add_left .., fun t => run_one_not_busy hg ⟨hb, .inr (by rw [hts]; rfl)⟩⟩
    | host =>
      obtain ⟨host, replies, hstep, hpoll'⟩ := step_poll hg (.inr ⟨hb, hts⟩) hpoll
      obtain ⟨k, hk, hend⟩ := ih { s with host := host, turns := ts, replies := replies } hg hb hpoll' rfl
      refine ⟨k + 1, Nat.succ_le_succ hk, fun t ht => hend t ?_⟩
      rwa [run_succ k hstep] at ht

end Sys2Proof.Machine
end

section
/-! PROOFS. The reset event (R390, R391, R48), while idle and while busy. -/

namespace Sys2Proof.Machine

/-- R48: after a reset no descriptor register is written. -/
theorem descReg_resetOf (c : Cfg) {r : Nat} (hr : r ≤ 8) : descReg (State.resetOf c).desc r = some none := by
  interval_cases r <;> rfl

/-- R42, R48: no word of an unwritten bank is written. -/
theorem read_unwrittenBank (c : Cfg) (l x : Nat) : (slot (unwrittenBank c) l).read x = none := by
  have hslot : slot (unwrittenBank c) l = [] := by
    rw [slot, unwrittenBank, List.getD_eq_getElem?_getD, List.getElem?_replicate]
    split_ifs <;> rfl
  rw [hslot, Memory.read_nil]

theorem resetEvent_ext (s : State) :
    (resetEvent s).ext = spoil s.draws (pendingWrites s).base (pendingWrites s).len s.ext := rfl

/-- R390: a reset with no writes pending keeps EXT. -/
theorem resetEvent_ext_of_none {s : State} (h : pendingWrites s = ⟨0, 0⟩) : (resetEvent s).ext = s.ext := by
  rw [resetEvent_ext, h]
  rfl

/-- R391: a spoilt range holds some value in each of its words, and the words outside it are kept. -/
theorem read_spoil_outside {draw : Nat} {r : Span} {m : Memory} {a : Nat} (h : ¬ r.Has a) :
    (spoil draw r.base r.len m).read a = m.read a :=
  Memory.read_scatter_other fun x hx e => h (by constructor <;> omega)

theorem read_spoil_inside {draw : Nat} {r : Span} {m : Memory} {a : Nat} (h : r.Has a) :
    ((spoil draw r.base r.len m).read a).isSome = true := by
  obtain ⟨x, rfl⟩ := Nat.exists_eq_add_of_le h.1
  rw [spoil, Memory.read_scatter (fun _ _ _ _ e => by simpa using e) (by have := h.2; omega), Option.isSome_some]

/-- R390: an idle machine has no writes pending. -/
theorem pendingWrites_idle {s : State} (h : s.busy = false) : pendingWrites s = ⟨0, 0⟩ := by
  rw [pendingWrites, if_neg (by simp [h])]

/-- R391: the writes of an invocation that would complete are pending. -/
theorem pendingWrites_completing {s u : State} {i : Instr} (hb : s.busy = true)
    (hd : decode s.cfg.extPermOps s.snap = .instr i) (he : exec i s = .next u) (hu : u.done = true) :
    pendingWrites s = writeSpan s.cfg i := by
  simp only [pendingWrites, hb, hd, he, hu, if_true]

/-- R391: no other writes are (log 18). -/
theorem pendingWrites_cases (s : State) : pendingWrites s = ⟨0, 0⟩ ∨
    ∃ i u, decode s.cfg.extPermOps s.snap = .instr i ∧ exec i s = .next u ∧ u.done = true ∧
      pendingWrites s = writeSpan s.cfg i := by
  cases hb : s.busy with
  | false => exact .inl (pendingWrites_idle hb)
  | true =>
    cases hd : decode s.cfg.extPermOps s.snap with
    | reject code => left; simp only [pendingWrites, hb, hd, if_true]
    | instr i =>
      cases he : exec i s with
      | next u =>
        cases hu : u.done with
        | true => exact .inr ⟨i, u, rfl, he, hu, pendingWrites_completing hb hd he hu⟩
        | false => left; simp only [pendingWrites, hb, hd, he, hu, if_true, Bool.false_eq_true, if_false]
      | fault f => left; simp only [pendingWrites, hb, hd, he, if_true]
      | refused r => left; simp only [pendingWrites, hb, hd, he, if_true]

/-- Settles O13: while idle a reset event has no writes to spoil. -/
theorem resetWhileIdle : Obligations.ResetWhileIdle := by
  intro s rest hg hb hs
  have hnone : pendingWrites { s with host := rest } = ⟨0, 0⟩ := pendingWrites_idle hb
  exact ⟨_, step_host_cons hg (.inl ⟨hb, rfl⟩) hs, rfl, rfl, rfl, rfl, rfl, rfl, resetEvent_ext_of_none hnone,
    fun r => descReg_resetOf s.cfg, fun l x => ⟨read_unwrittenBank .., read_unwrittenBank .., read_unwrittenBank ..⟩⟩

/-- Settles O14: the writes of the invocation are pending if it would complete, and else none are. -/
theorem resetWhileBusy : Obligations.ResetWhileBusy := by
  intro s rest ts hg hb ht hs
  let mid : State := { s with host := rest, turns := ts }
  have hmid : mid.busy = true := hb
  refine ⟨resetEvent mid, step_host_cons hg (.inr ⟨hb, ht⟩) hs, rfl, rfl, rfl, fun r => descReg_resetOf s.cfg,
    fun l x => ⟨read_unwrittenBank .., read_unwrittenBank .., read_unwrittenBank ..⟩, fun hnone => ?_,
    fun i hd => ⟨fun a ha => ?_, fun u hu hdone a ha => ?_⟩⟩
  · rcases pendingWrites_cases mid with hw | ⟨i, u, hi, hu, hdone, -⟩
    · exact resetEvent_ext_of_none hw
    · rw [hnone i u hi hu] at hdone
      cases hdone
  · refine read_spoil_outside fun hin => ha ?_
    rcases pendingWrites_cases mid with hw | ⟨j, -, hj, -, -, hw⟩
    · rw [hw] at hin
      exact absurd hin.2 (Nat.not_lt_zero a)
    · obtain rfl : i = j := Decoded.instr.inj (hd.symm.trans hj)
      rwa [hw] at hin
  · rw [resetEvent_ext, pendingWrites_completing hmid hd hu hdone]
    exact read_spoil_inside ha

end Sys2Proof.Machine
end

section
/-! PROOFS. The initial latches of BCONV (R302). -/

namespace Sys2Proof.Machine

/-- A result that ends like one that goes on goes on too. -/
theorem Alike.exists_of_ok {α : Type} {R : α → α → Prop} {x y : Res α} {a : α} (h : Alike R x y) (hx : x = .ok a) :
    ∃ b, y = .ok b ∧ R a b := by
  subst hx
  cases y with
  | ok b => exact ⟨b, rfl, h⟩
  | error e => exact h.elim

/-- Settles O52: the two runs converge, and agree on EXT and the counts all along. -/
theorem initialLatchesDoNotMatter : Obligations.InitialLatchesDoNotMatter := by
  intro s t pea src dst hv hsame hrun
  obtain ⟨-, -, -, -, hq, -⟩ := hv
  have hzero : Converging s.cfg 0 s { s with pea := pea } := converging_zero rfl rfl rfl rfl hsame
  obtain ⟨t', hrun', hconv⟩ := (bconvCycles_converging hzero hq src dst _).exists_of_ok hrun
  exact ⟨t', hrun', hconv.ext, hconv.captured⟩

end Sys2Proof.Machine
end

section
/-! PROOFS. The boundary checks (R363): the first that fails gives the code, and STATUS alone changes (R361). -/

namespace Sys2Proof.Machine

/-- R361: an invocation that raises a code sets STATUS and changes nothing else. -/
theorem exec_of_raise {i : Instr} {s : State} {code : ErrCode} (h : kernel i s = .error (.raise code)) :
    exec i s = .next { s with status := statusError code } := by
  rw [exec_eq_finish, h, finish_raise]
  rfl

section
variable {i : Instr} {s : State} {n off m : Nat}

/-- R103: step 3 comes first in every tiled kernel. -/
theorem kernel_limbs_error (hi : i.limbs = some n) (h : s.cfg.maxLimbs < n) : kernel i s = .error (.raise .limbs) := by
  have hfail : checkLimbs s n = .error (.raise .limbs) := check_of_neg (Nat.not_le.2 h) _
  cases i <;> simp only [Instr.limbs, Option.some.injEq, reduceCtorEq] at hi <;> subst hi
  case ilvR | ilvL => rw [kernel, interleaveLimbs, hfail, error_bind]
  all_goals exact kernel_boundary_error rfl (by rw [modularBoundary, hfail, error_bind])

/-- Settles O17: the limb check is the first check of every tiled kernel. -/
theorem tooManyLimbsRaises : Obligations.TooManyLimbsRaises :=
  fun _ _ _ hi h => exec_of_raise (kernel_limbs_error hi h)

/-- Settles O18: the index check is the second of every kernel that uses a modulus. -/
theorem modulusIndexRaises : Obligations.ModulusIndexRaises :=
  fun _ _ _ _ _ hi hn h => exec_of_raise (kernel_boundary_error hi (modularBoundary_index_error hn (Nat.not_le.2 h)))

/-- R363: past steps 3 and 4, an opcode of `MODULAR` checks its range and reads its moduli. -/
theorem modularBoundary_past_index (hn : n ≤ s.cfg.maxLimbs) (hoff : off + n ≤ s.cfg.numModuli) :
    modularBoundary s i n off m = (checkRange s i >>= fun _ => readModuli s (m + off) n) := by
  rw [modularBoundary, checkLimbs, check_of_pos hn, ok_bind, checkModIndex, check_of_pos hoff, ok_bind]

/-- R77: step 5, for every kernel that has operands. -/
theorem kernel_range_error (hinit : i ≠ .init) (hlimbs : ∀ n, i.limbs = some n → n ≤ s.cfg.maxLimbs)
    (hidx : ∀ n off m, i.modular = some (n, off, m) → off + n ≤ s.cfg.numModuli) (hr : ¬ InRange s i) :
    kernel i s = .error (.raise .range) := by
  have hfail : checkRange s i = .error (.raise .range) := check_of_neg hr _
  cases i
  case init => exact absurd rfl hinit
  case bconv => rw [kernel, baseConvert, hfail, error_bind]
  case ilvR | ilvL => rw [kernel, interleaveLimbs, checkLimbs, check_of_pos (hlimbs _ rfl), ok_bind, hfail, error_bind]
  all_goals
    refine kernel_boundary_error rfl ?_
    rw [modularBoundary_past_index (hlimbs _ rfl) (hidx _ _ _ rfl), hfail, error_bind]

/-- Settles O19: once the limb and index checks pass, the range check is next. -/
theorem rangeErrorRaises : Obligations.RangeErrorRaises :=
  fun _ _ hinit hlimbs hidx hr => exec_of_raise (kernel_range_error hinit hlimbs hidx hr)

end

/-! The moduli (step 6). -/

section
variable {i : Instr} {s : State} {base count : Nat}

/-- R363: the invocation of `i` in `s` reaches step 6, which reads the `count` moduli from `base`. -/
def ReadsModuli (i : Instr) (s : State) (base count : Nat) : Prop :=
  (∃ off m, i.modular = some (count, off, m) ∧ BoundaryOk s i count off ∧ base = m + off) ∨
    ∃ a b d, i = .bconv a b d base ∧ InRange s i ∧ count = s.cfg.sizeP

theorem ReadsModuli.inside (h : ReadsModuli i s base count) : ∀ l < count, base + l < s.cfg.extWords := by
  rcases h with ⟨off, m, hi, ⟨-, -, hr⟩, rfl⟩ | ⟨a, b, d, rfl, hr, rfl⟩
  · exact (modular_inside hi hr).1
  · exact bconv_moduli_inside hr

/-- R363: a kernel that fails to read its moduli ends so. -/
theorem ReadsModuli.kernel_error (h : ReadsModuli i s base count) {e : Stop} (he : readModuli s base count = .error e) :
    kernel i s = .error e := by
  rcases h with ⟨off, m, hi, ⟨hn, hoff, hr⟩, rfl⟩ | ⟨a, b, d, rfl, hr, rfl⟩
  · refine kernel_boundary_error hi ?_
    rw [modularBoundary_past_index hn hoff, checkRange, check_of_pos hr, ok_bind, he]
  · rw [kernel, baseConvert, checkRange, check_of_pos hr, ok_bind, he, error_bind]

/-- R363, R292: the first modulus that is not legal ends the invocation. -/
theorem ReadsModuli.first_bad (h : ReadsModuli i s base count) {l : Nat} (hl : l < count) (hbefore : ModuliOk s base l)
    {e : Stop} (he : validModulus (extWord s.ext (base + l)) = .error e) : kernel i s = .error e := by
  have hin := h.inside
  refine h.kernel_error (gather_error hl (fun x hx => ?_) ?_)
  · obtain ⟨h0, hlt⟩ := hbefore x hx
    rw [coreRead_ok (hin x (hx.trans hl)), ok_bind]
    exact ⟨_, validModulus_ok h0 hlt⟩
  · rw [coreRead_ok (hin l hl), ok_bind, he]

end

/-- Settles O20: the moduli before the first bad one are read, and it ends the loop with its own code. -/
theorem firstBadModulusRaises : Obligations.FirstBadModulusRaises := by
  intro i s base count l h hl hbefore
  have hreads : ReadsModuli i s base count := h
  exact ⟨fun hzero => exec_of_raise (hreads.first_bad hl hbefore (validModulus_zero hzero)),
    fun hrange => exec_of_raise (hreads.first_bad hl hbefore (validModulus_range hrange))⟩

end Sys2Proof.Machine
end

section
/-! PROOFS. Auto by `k` and then by its inverse modulo `2N` (R194, R197): each coefficient comes back, and a negated one
is negated again. -/

namespace Sys2Proof.Machine

/-- R149: negation modulo `q` undoes itself. -/
theorem negMod_negMod {v q : Nat} (h : v < q) : negMod (negMod v q) q = v := by
  by_cases hv : v = 0
  · rw [hv, negMod_zero, negMod_zero]
  · have hneg : negMod v q = q - v := if_neg hv
    have hback : negMod (q - v) q = q - (q - v) := if_neg (by omega)
    rw [hneg, hback]
    omega

/-- R194: Auto leaves reduced values. -/
theorem autoValue_lt (c : Cfg) (k x : Nat) {q v : Nat} (h : v < q) : autoValue c k q x v < q := by
  unfold autoValue
  split_ifs
  · rw [negMod_eq_mod h]
    exact Nat.mod_lt _ (by omega)
  · exact h

section
variable {c : Cfg} {k k' : Nat} (hk : k * k' % (2 * c.ringDim) = 1)
include hk

/-- R197: both factors are odd, as `2N` is even. -/
theorem odd_of_mul_mod_eq_one : k % 2 = 1 ∧ k' % 2 = 1 := by
  have hodd : k * k' % 2 = 1 := by rw [← Nat.mod_mod_of_dvd (k * k') (Nat.dvd_mul_right 2 c.ringDim), hk]
  rw [← Nat.odd_iff, Nat.odd_mul] at hodd
  exact ⟨Nat.odd_iff.1 hodd.1, Nat.odd_iff.1 hodd.2⟩

/-- R194, R197: the second factor brings the raw destination back to `x`, modulo `2N`. -/
theorem autoRaw_mul_modEq (x : Nat) : autoRaw c k x * k' ≡ x [MOD 2 * c.ringDim] :=
  calc autoRaw c k x * k' ≡ x * k * k' [MOD 2 * c.ringDim] := (Nat.mod_modEq _ _).mul_right k'
    _ = x * (k * k') := Nat.mul_assoc ..
    _ ≡ x * 1 [MOD 2 * c.ringDim] := by
        refine Nat.ModEq.mul_left x ?_
        rw [← hk]
        exact (Nat.mod_modEq _ _).symm
    _ = x := Nat.mul_one x

/-- R194, R197: where the second Auto moves what the first has moved: back to `x`, and past `N` exactly if the first
passed `N`, for `k'` is odd and `N * k'` is then `N` modulo `2N`. -/
theorem autoRaw_autoDest {x : Nat} (hx : x < c.ringDim) :
    autoRaw c k' (autoDest c k x) = if c.ringDim ≤ autoRaw c k x then x + c.ringDim else x := by
  have hback := autoRaw_mul_modEq hk x
  have hlt : autoRaw c k x < 2 * c.ringDim := Nat.mod_lt _ (by omega)
  rw [autoDest_eq]
  generalize autoRaw c k x = raw at hback hlt
  split_ifs with hraw
  · obtain ⟨d, rfl⟩ := Nat.exists_eq_add_of_le hraw
    have hd : (c.ringDim + d) % c.ringDim = d := by rw [Nat.add_mod_left, Nat.mod_eq_of_lt (by omega)]
    have hN : c.ringDim * k' ≡ c.ringDim [MOD 2 * c.ringDim] := by
      obtain ⟨e, rfl⟩ := Nat.odd_iff.2 (odd_of_mul_mod_eq_one hk).2
      rw [show c.ringDim * (2 * e + 1) = c.ringDim + 2 * c.ringDim * e by ring]
      exact Nat.add_mul_mod_self_left ..
    rw [Nat.add_mul] at hback
    have hsum : d * k' + 2 * c.ringDim ≡ x + c.ringDim [MOD 2 * c.ringDim] := by
      have h := ((hN.symm.add_right (d * k')).trans hback).add_right c.ringDim
      rwa [show c.ringDim + d * k' + c.ringDim = d * k' + 2 * c.ringDim by ring] at h
    rw [autoRaw, hd, ← Nat.add_mod_right, hsum, Nat.mod_eq_of_lt (by omega)]
  · rw [autoRaw, Nat.mod_eq_of_lt (by omega : raw < c.ringDim), hback, Nat.mod_eq_of_lt (by omega)]

/-- R197: each coefficient comes back to its place. -/
theorem autoDest_autoDest {x : Nat} (hx : x < c.ringDim) : autoDest c k' (autoDest c k x) = x := by
  rw [autoDest_eq, autoRaw_autoDest hk hx]
  split_ifs
  · rw [Nat.add_mod_right, Nat.mod_eq_of_lt hx]
  · exact Nat.mod_eq_of_lt hx

/-- R197: each value is negated twice or not at all. -/
theorem autoValue_autoValue {x q v : Nat} (hx : x < c.ringDim) (hv : v < q) :
    autoValue c k' q (autoDest c k x) (autoValue c k q x v) = v := by
  rw [autoValue, autoRaw_autoDest hk hx, autoValue]
  split_ifs with h1 h2
  · exact negMod_negMod hv
  · omega
  · omega
  · rfl

end

/-- Settles O40: both Autos permute the full tile, and the second brings each word back to its coefficient and its
value. -/
theorem autoInverse : Obligations.AutoInverse := by
  intro c k k' q t hv hk hq ht hlt
  obtain ⟨hodd, hodd'⟩ := odd_of_mul_mod_eq_one hk
  obtain ⟨u, hu, hufull, huread⟩ := permuteTile_full (autoDest_permutes hv hodd) (autoValue c k q) ht
  obtain ⟨w, hw, hwfull, hwread⟩ := permuteTile_full (autoDest_permutes hv hodd') (autoValue c k' q) hufull
  have hback : w = t := hwfull.ext ht fun x hx => by
    have hmoved := hwread _ (autoDest_lt hv k x)
    have hval := autoValue_lt c k x (hlt x hx)
    rw [autoDest_autoDest hk hx, huread x hx, Option.getD_some, word_toNat (by omega),
      autoValue_autoValue hk hx (hlt x hx), BitVec.ofNat_toNat, BitVec.setWidth_eq] at hmoved
    rw [hmoved, ← ht.read_eq hx]
  exact ⟨u, hu, hback ▸ hw⟩

end Sys2Proof.Machine
end

section
/-! PROOFS. The words of a twiddle table that NTT_REF and INTT_REF read (R230), and that nothing else in the table
matters. -/

namespace Sys2Proof.Machine

/-- R230: the words that the twists, the passes and the twiddle step read. -/
theorem refReads_iff {c : Cfg} {f : Nat} : refReads c f = true ↔ f < c.ringDim ∨
    (∃ s < c.logs, ∃ t < 2 ^ s, f = c.ringDim + t * (c.ringDim / 2 ^ (s + 1))) ∨
    ∃ i < c.sqrt, ∃ j < c.sqrt, f = c.ringDim + i * j := by
  simp only [refReads, Bool.or_eq_true, decide_eq_true_eq, List.any_eq_true, List.mem_range, beq_iff_eq, or_assoc]

theorem refReads_twist {c : Cfg} {f : Nat} (h : f < c.ringDim) : refReads c f = true := refReads_iff.2 (.inl h)

theorem refReads_stage {c : Cfg} {k r : Nat} (hk : k < c.logs) (hr : r < 2 ^ k) :
    refReads c (c.ringDim + r * (c.ringDim / 2 ^ (k + 1))) = true :=
  refReads_iff.2 (.inr (.inl ⟨k, hk, r, hr, rfl⟩))

theorem refReads_twiddle {c : Cfg} (hv : c.Valid) {x : Nat} (hx : x < c.ringDim) :
    refReads c (c.ringDim + x / c.sqrt * (x % c.sqrt)) = true :=
  refReads_iff.2 (.inr (.inr ⟨_, row_lt hv hx, _, column_lt hv x, rfl⟩))

/-- R225: they are among the first `2N` words. -/
theorem refReads_lt {c : Cfg} (hv : c.Valid) {f : Nat} (h : refReads c f = true) : f < 2 * c.ringDim := by
  have hN := ringDim_pos hv
  rcases refReads_iff.1 h with h | ⟨s, hs, t, ht, rfl⟩ | ⟨i, hi, j, hj, rfl⟩
  · omega
  · have hdiv : 2 ^ (s + 1) * (c.ringDim / 2 ^ (s + 1)) ≤ c.ringDim := Nat.mul_div_le ..
    generalize c.ringDim / 2 ^ (s + 1) = d at *
    have hmul : t * d ≤ 2 ^ s * d := Nat.mul_le_mul_right d ht.le
    rw [pow_succ', Nat.mul_assoc] at hdiv
    omega
  · have hmul : i * j < c.sqrt * c.sqrt := Nat.mul_lt_mul'' hi hj
    rw [← ringDim_eq_mul hv] at hmul
    omega

section
variable {c : Cfg} {p : LimbMod} {tw tw' : Nat → Nat}

theorem passStage_congr {k : Nat} (h : ∀ r < 2 ^ k, tw (c.ringDim + r * (c.ringDim / 2 ^ (k + 1))) =
    tw' (c.ringDim + r * (c.ringDim / 2 ^ (k + 1)))) (v : List Nat) :
    passStage c p tw (k + 1) v = passStage c p tw' (k + 1) v := by
  refine tab_congr fun x _ => ?_
  have hr : x % (2 * 2 ^ k) < 2 * 2 ^ k := Nat.mod_lt _ (by positivity)
  simp only [Nat.add_sub_cancel]
  split_ifs with hlow
  · rw [h _ hlow]
  · rw [h _ (by omega)]

variable (h : ∀ f, refReads c f = true → tw f = tw' f)
include h

theorem passStages_congr (v : List Nat) {k : Nat} (hk : k ≤ c.logs) :
    passStages c p tw v k = passStages c p tw' v k := by
  induction k with
  | zero => rfl
  | succ k ih => rw [passStages, passStages, ih (by omega), passStage_congr fun r hr => h _ (refReads_stage hk hr)]

theorem pass_congr : pass c p tw = pass c p tw' := funext fun _ => passStages_congr h _ le_rfl

theorem twist_congr (xs : List Nat) : twist c p tw xs = twist c p tw' xs :=
  tab_congr fun _ hx => by rw [h _ (refReads_twist hx)]

theorem twiddle_congr (hv : c.Valid) (xs : List Nat) : twiddle c p tw xs = twiddle c p tw' xs :=
  tab_congr fun _ hx => by rw [h _ (refReads_twiddle hv hx)]

theorem fourStep_congr (hv : c.Valid) (xs : List Nat) : fourStep c p tw xs = fourStep c p tw' xs := by
  rw [fourStep, fourStep, pass_congr h, twiddle_congr h hv]

theorem nttRef_congr (hv : c.Valid) (xs : List Nat) : nttRef c p tw xs = nttRef c p tw' xs := by
  rw [nttRef, nttRef, twist_congr h, fourStep_congr h hv]

theorem inttRef_congr (hv : c.Valid) (xs : List Nat) : inttRef c p tw xs = inttRef c p tw' xs := by
  rw [inttRef, inttRef, twist_congr h, fourStep_congr h hv]

end

/-- Settles O45: step by step, each word that is read is one that `refReads` names. -/
theorem unreadTwiddlesIgnored : Obligations.UnreadTwiddlesIgnored :=
  fun _ _ _ _ xs hv h => ⟨nttRef_congr h hv xs, inttRef_congr h hv xs⟩

end Sys2Proof.Machine
end

section
/-! PROOFS. Law 3 of R221: from reduced values and twiddle words, every transform leaves reduced values. -/

namespace Sys2Proof.Machine

/-- R12: every value of the list is reduced modulo `q`. -/
def Reduced (q : Nat) (xs : List Nat) : Prop := ∀ y ∈ xs, y < q

/-- Past the end of the list the value is 0. -/
theorem Reduced.getD_lt {q : Nat} {xs : List Nat} (h : Reduced q xs) (hq : 0 < q) (x : Nat) : xs.getD x 0 < q := by
  by_cases hx : x < xs.length
  · exact h _ (getD_mem hx 0)
  · rwa [List.getD_eq_default _ _ (Nat.not_lt.1 hx)]

theorem reduced_tab {q n : Nat} {f : Nat → Nat} (h : ∀ x < n, f x < q) : Reduced q (tab n f) := fun _ hy =>
  have ⟨x, hx, hxy⟩ := mem_tab.1 hy
  hxy ▸ h x hx

section
variable {c : Cfg} {p : LimbMod} {tw : Nat → Nat} (hp : p.Exact) (hq : 0 < p.q)

include hp in
theorem butterfly_lt {a b w : Nat} (ha : a < p.q) (hb : b < p.q) (hw : w < p.q) :
    (butterfly p a b w).1 < p.q ∧ (butterfly p a b w).2 < p.q := by
  rw [butterfly_eq hp ha hb hw]
  exact ⟨Nat.mod_lt _ (by omega), Nat.mod_lt _ (by omega)⟩

include hp in
theorem LimbMod.mul_lt {a b : Nat} (ha : a < p.q) (hb : b < p.q) : p.mul a b < p.q := by
  rw [LimbMod.mul_eq_mod hp ha hb]
  exact Nat.mod_lt _ (by omega)

include hp hq

/-- R224: one stage. -/
theorem passStage_reduced {k : Nat} (htw : ∀ r < 2 ^ k, tw (c.ringDim + r * (c.ringDim / 2 ^ (k + 1))) < p.q)
    {v : List Nat} (hv : Reduced p.q v) : Reduced p.q (passStage c p tw (k + 1) v) := by
  refine reduced_tab fun x _ => ?_
  have hr : x % (2 * 2 ^ k) < 2 * 2 ^ k := Nat.mod_lt _ (by positivity)
  have hval := hv.getD_lt hq
  simp only [Nat.add_sub_cancel]
  split_ifs with hlow
  · exact (butterfly_lt hp (hval _) (hval _) (htw _ hlow)).1
  · exact (butterfly_lt hp (hval _) (hval _) (htw _ (by omega))).2

variable (htw : ∀ f, refReads c f = true → tw f < p.q)
include htw

theorem passStages_reduced {v : List Nat} (hv : Reduced p.q v) {k : Nat} (hk : k ≤ c.logs) :
    Reduced p.q (passStages c p tw v k) := by
  induction k with
  | zero => exact hv
  | succ k ih => exact passStage_reduced hp hq (fun r hr => htw _ (refReads_stage hk hr)) (ih (by omega))

theorem pass_reduced {v : List Nat} (hv : Reduced p.q v) : Reduced p.q (pass c p tw v) :=
  passStages_reduced hp hq htw (reduced_tab fun _ _ => hv.getD_lt hq _) le_rfl

omit hq in
theorem twist_reduced {xs : List Nat} (hx : ∀ x < c.ringDim, xs.getD x 0 < p.q) : Reduced p.q (twist c p tw xs) :=
  reduced_tab fun x h => LimbMod.mul_lt hp (hx x h) (htw _ (refReads_twist h))

/-- R226: steps A, B, D and E. -/
theorem fourStep_reduced (hv : c.Valid) {xs : List Nat} (hx : ∀ x < c.ringDim, xs.getD x 0 < p.q) :
    Reduced p.q (fourStep c p tw xs) := by
  have hcolumns : Reduced p.q (onColumns c (pass c p tw) xs) := reduced_tab fun x _ => by
    rw [getD_tab_of_lt _ _ (column_lt hv x)]
    exact (pass_reduced hp hq htw (reduced_tab fun i hi => hx _ (coeff_lt hv hi (column_lt hv x)))).getD_lt hq _
  have htwiddle : Reduced p.q (twiddle c p tw (onColumns c (pass c p tw) xs)) := reduced_tab fun x h =>
    LimbMod.mul_lt hp (hcolumns.getD_lt hq x) (htw _ (refReads_twiddle hv h))
  have hrows : Reduced p.q (onRows c (pass c p tw) (twiddle c p tw (onColumns c (pass c p tw) xs))) :=
    reduced_tab fun x h => by
      rw [getD_tab_of_lt _ _ (row_lt hv h)]
      exact (pass_reduced hp hq htw (reduced_tab fun _ _ => htwiddle.getD_lt hq _)).getD_lt hq _
  exact reduced_tab fun _ _ => hrows.getD_lt hq _

theorem nttRef_reduced (hv : c.Valid) {xs : List Nat} (hx : ∀ x < c.ringDim, xs.getD x 0 < p.q) :
    Reduced p.q (nttRef c p tw xs) :=
  fourStep_reduced hp hq htw hv fun x _ => (twist_reduced hp htw hx).getD_lt hq x

theorem inttRef_reduced (hv : c.Valid) {xs : List Nat} (hx : ∀ x < c.ringDim, xs.getD x 0 < p.q) :
    Reduced p.q (inttRef c p tw xs) :=
  twist_reduced hp htw fun x _ => (fourStep_reduced hp hq htw hv hx).getD_lt hq x

end

theorem opaqueTile_reduced (c : Cfg) {q : Nat} (hq : 0 < q) (ys : List Nat) : Reduced q (opaqueTile c q ys) :=
  reduced_tab fun _ _ => Nat.mod_lt _ hq

/-- R221 law 3: only `REF` needs the twiddle words reduced. -/
theorem transform_reduced {c : Cfg} (hv : c.Valid) (forward : Bool) {p : LimbMod} (hp : p.Exact) (hq : 0 < p.q)
    {table xs : List Nat} (hx : ∀ x < c.ringDim, xs.getD x 0 < p.q)
    (htw : c.nttConvention = .ref → ∀ f, refReads c f = true → table.getD f 0 < p.q) :
    Reduced p.q (transform c forward p table xs) := by
  unfold transform
  cases hconv : c.nttConvention with
  | ref =>
    cases forward with
    | true => exact nttRef_reduced hp hq (htw hconv) hv hx
    | false => exact inttRef_reduced hp hq (htw hconv) hv hx
  | opq => cases forward <;> exact opaqueTile_reduced c hq _

/-- Settles O44: under `REF` every step keeps the values reduced, and under `OPAQUE` they are reduced at the end. -/
theorem transformStaysBelowModulus : Obligations.TransformStaysBelowModulus :=
  fun c forward _ _ _ hv hq hrange hkh hmu hx htw => ⟨length_transform c forward .., transform_reduced hv forward
    ⟨hrange, hkh, hmu⟩ hq hx fun _ f hf => htw f (refReads_lt hv hf) hf⟩

end Sys2Proof.Machine
end

section
/-! PROOFS. The opcodes NTT and INTT (R240, R241): past their checks they complete, and what they leave. -/

namespace Sys2Proof.Machine

/-- R225: the values of the table at `base` that a transform is given: under `REF` the words it reads, under `OPAQUE`
the whole table. -/
def tableValues (s : State) (base : Nat) : List Nat :=
  match s.cfg.nttConvention with
  | .ref => tab (2 * s.cfg.ringDim) fun f => if refReads s.cfg f then wordAt s (base + f) else 0
  | .opq => tab s.cfg.twn fun f => wordAt s (base + f)

theorem tableValues_ref {s : State} (h : s.cfg.nttConvention = .ref) (base : Nat) : tableValues s base =
    tab (2 * s.cfg.ringDim) fun f => if refReads s.cfg f then wordAt s (base + f) else 0 := by
  rw [tableValues, h]

theorem tableValues_opq {s : State} (h : s.cfg.nttConvention = .opq) (base : Nat) : tableValues s base =
    tab s.cfg.twn fun f => wordAt s (base + f) := by
  rw [tableValues, h]

/-- R230: a word that `REF` reads has its value in the table. -/
theorem getD_tableValues {s : State} (hv : s.cfg.Valid) (h : s.cfg.nttConvention = .ref) (base : Nat) {f : Nat}
    (hf : refReads s.cfg f = true) : (tableValues s base).getD f 0 = wordAt s (base + f) := by
  rw [tableValues_ref h, getD_tab_of_lt _ _ (refReads_lt hv hf), if_pos hf]

/-- R109: the words of a limb's table lie in the blocks of the access set. -/
theorem twiddle_block_inside {s : State} {twb off n l f : Nat}
    (hin : (twiddleSpan s.cfg twb off n).inside s.cfg.extWords) (hl : l < n) (hf : f < s.cfg.twn) :
    twb + (off + l) * s.cfg.twn + f < s.cfg.extWords := by
  have h := Span.lt_of_inside hin (limb_offset_lt hl hf)
  simp only [twiddleSpan] at h
  rw [Nat.add_mul]
  omega

/-- R8, R225: under `REF` a block has room for the `2N` words. -/
theorem two_mul_ringDim_le_twn {c : Cfg} (hv : c.Valid) (href : c.nttConvention = .ref) : 2 * c.ringDim ≤ c.twn := by
  obtain ⟨-, -, -, hrows, -⟩ := hv
  exact Nat.mul_le_mul_right _ (hrows href)

/-- R225, R334: a table inside EXT that passes its check is read. -/
theorem readTable_ok {s : State} (hv : s.cfg.Valid) {base q : Nat} (hin : ∀ f < s.cfg.twn, base + f < s.cfg.extWords)
    (h : TableOk s base q) : readTable s base q = .ok (tableValues s base) := by
  cases hconv : s.cfg.nttConvention with
  | ref =>
    have hroom := two_mul_ringDim_le_twn hv hconv
    rw [tableValues_ref hconv, readTable, hconv]
    refine gather_ok fun f hf => ?_
    split_ifs with hread
    · have hlt := h hconv f hf hread
      obtain ⟨w, hr, he⟩ := coreRead_wordAt (hin f (hf.trans_le hroom))
      rw [hr, ok_bind, check_of_pos (by omega), ok_bind, he]
    · rfl
  | opq =>
    rw [tableValues_opq hconv, readTable, hconv]
    exact gather_ok fun f hf => by rw [coreRead_ok (hin f hf)]; rfl

/-- R240, R241, R334: an invocation of NTT or INTT whose checks pass. -/
structure TransformReady (s : State) (forward : Bool) (n off a d m kh mu tw : Nat) : Prop where
  valid : s.cfg.Valid
  boundary : BoundaryOk s (transformInstr forward n off a d m kh mu tw) n off
  moduli : ModuliOk s (m + off) n
  operands : OperandsOk s a n (m + off)
  barrett : BarrettOk s (m + off) (kh + off) (mu + off) n
  tables : ∀ l < n, TableOk s (tw + (off + l) * s.cfg.twn) (wordAt s (m + off + l))
  written : InputsWritten s (transformInstr forward n off a d m kh mu tw)

/-- The modulus of limb `l` and its Barrett constants, as EXT has them. -/
def limbMod (s : State) (off m kh mu l : Nat) : LimbMod :=
  ⟨wordAt s (m + off + l), wordAt s (kh + off + l), wordAt s (mu + off + l)⟩

/-- The values of limb `l` of the buffer at `a`. -/
def limbValues (s : State) (a l : Nat) : List Nat := tab s.cfg.ringDim fun x => wordAt s (a + l * s.cfg.ringDim + x)

/-- R240, R241: what the transform makes of limb `l`. -/
def transformedLimb (s : State) (forward : Bool) (off a m kh mu tw l : Nat) : List Nat :=
  transform s.cfg forward (limbMod s off m kh mu l) (tableValues s (tw + (off + l) * s.cfg.twn)) (limbValues s a l)

section
variable {s : State} {forward : Bool} {n off a d m kh mu tw : Nat}

/-- R240, R241: the invocation goes on to its end, and stores the transformed limbs. -/
theorem TransformReady.kernel_ok (h : TransformReady s forward n off a d m kh mu tw) :
    ∃ u, kernel (transformInstr forward n off a d m kh mu tw) s = .ok u ∧
      u.ext = s.ext.writeWords d (limbWords s.cfg n fun l x =>
        BitVec.ofNat 64 ((transformedLimb s forward off a m kh mu tw l).getD x 0)) := by
  obtain ⟨hfields, hbufs, htables, hspan⟩ := transformInstr_operands forward n off a d m kh mu tw s.cfg
  obtain ⟨-, -, hread, hwrite⟩ := h.boundary
  have hdst : (tiledSpan s.cfg d n).inside s.cfg.extWords := by cases forward <;> exact hwrite
  obtain ⟨-, hops, htab⟩ := modular_inside hfields ⟨hread, hwrite⟩
  obtain ⟨hkh, hmu⟩ := htab kh mu htables
  obtain ⟨qs, hq, hval, hpass⟩ := modular_checks_ok hfields h.boundary h.moduli
    (by rw [hbufs, List.forall_mem_singleton]; exact h.operands)
  rw [hbufs, List.forall_mem_singleton] at hops hpass
  have hN := ringDim_pos h.valid
  have htwiddles : (gather n fun l => readTable s (tw + (off + l) * s.cfg.twn) (qs.getD l 0)) =
      .ok (tab n fun l => tableValues s (tw + (off + l) * s.cfg.twn)) := gather_ok fun l hl => by
    rw [hval l hl]
    exact readTable_ok h.valid (fun f => twiddle_block_inside (hread _ hspan) hl) (h.tables l hl)
  rw [kernel_transformInstr, transformLimbs, hq, ok_bind, checkWritten_eq_ok (u := ()).2 h.written, ok_bind, hpass,
    ok_bind, readBarrett_ok hkh hmu hval h.barrett, ok_bind, htwiddles, ok_bind]
  obtain ⟨ta, hrun⟩ := runTransform_ok (s := beginKernel s) hN hops hdst
  refine ⟨_, hrun, congrArg (Memory.writeWords s.ext d) (limbWords_congr hN fun l hl x hx => ?_)⟩
  simp only [getD_tab_of_lt _ _ hl, hval l hl]
  rfl

/-- R240, R241: what NTT and INTT leave. -/
theorem TransformReady.leaves (h : TransformReady s forward n off a d m kh mu tw) :
    Leaves s (transformInstr forward n off a d m kh mu tw) n d fun t => ∀ l < n, ∀ i < s.cfg.sqrt, ∀ j < s.cfg.sqrt,
      Holds t d l i j ((transformedLimb s forward off a m kh mu tw l).getD (i * s.cfg.sqrt + j) 0) := by
  obtain ⟨u, hk, hext⟩ := h.kernel_ok
  exact tiled_result h.valid hk (by cases forward <;> rfl) hext

end

section
variable {s : State} (off a m kh mu tw l : Nat)

/-- R226: under `REF`, by the twiddle words of EXT (R230). -/
theorem transformedLimb_ref (hv : s.cfg.Valid) (h : s.cfg.nttConvention = .ref) (forward : Bool) :
    transformedLimb s forward off a m kh mu tw l =
      (if forward then nttRef else inttRef) s.cfg (limbMod s off m kh mu l)
        (fun f => wordAt s (tw + (off + l) * s.cfg.twn + f)) (limbValues s a l) := by
  have htable := fun f => getD_tableValues hv h (tw + (off + l) * s.cfg.twn) (f := f)
  rw [transformedLimb, transform, h]
  cases forward with
  | true => exact nttRef_congr htable hv _
  | false => exact inttRef_congr htable hv _

/-- R233: under `OPAQUE`, by the uninterpreted transform of the whole table. -/
theorem transformedLimb_opq (h : s.cfg.nttConvention = .opq) (forward : Bool) :
    transformedLimb s forward off a m kh mu tw l =
      opaqueTile s.cfg (wordAt s (m + off + l)) ((if forward then Config.nttF else Config.nttI) (limbValues s a l)
        (wordAt s (m + off + l)) (wordAt s (kh + off + l)) (wordAt s (mu + off + l))
        (tab s.cfg.twn fun f => wordAt s (tw + (off + l) * s.cfg.twn + f))) := by
  rw [transformedLimb, transform, h, tableValues_opq h]
  cases forward <;> rfl

end

theorem getD_opaqueTile {c : Cfg} {q : Nat} (ys : List Nat) {x : Nat} (hx : x < c.ringDim) :
    (opaqueTile c q ys).getD x 0 = ys.getD x 0 % q := getD_tab_of_lt _ _ hx

/-- R240, R241: what NTT and INTT leave, in the form each convention gives it. -/
theorem TransformReady.leaves_by_convention {s : State} {forward : Bool} {n off a d m kh mu tw : Nat}
    (h : TransformReady s forward n off a d m kh mu tw) :
    Leaves s (transformInstr forward n off a d m kh mu tw) n d fun t => ∀ l < n, ∀ i < s.cfg.sqrt, ∀ j < s.cfg.sqrt,
      (s.cfg.nttConvention = .ref → Holds t d l i j (((if forward then nttRef else inttRef) s.cfg
        (limbMod s off m kh mu l) (fun f => wordAt s (tw + (off + l) * s.cfg.twn + f))
        (limbValues s a l)).getD (i * s.cfg.sqrt + j) 0)) ∧
      (s.cfg.nttConvention = .opq → Holds t d l i j (((if forward then Config.nttF else Config.nttI) (limbValues s a l)
        (wordAt s (m + off + l)) (wordAt s (kh + off + l)) (wordAt s (mu + off + l))
        (tab s.cfg.twn fun f => wordAt s (tw + (off + l) * s.cfg.twn + f))).getD (i * s.cfg.sqrt + j) 0 %
          wordAt s (m + off + l))) := by
  refine h.leaves.imp fun t hwords l hl i hi j hj => ⟨fun hconv => ?_, fun hconv => ?_⟩
  · rw [← transformedLimb_ref _ _ _ _ _ _ _ h.valid hconv]
    exact hwords l hl i hi j hj
  · rw [← getD_opaqueTile _ (coeff_lt h.valid hi hj), ← transformedLimb_opq _ _ _ _ _ _ _ hconv]
    exact hwords l hl i hi j hj

/-- Settles O42: the checks pass, and the limbs are those of the forward transform. -/
theorem nttResult : Obligations.NttResult := by
  intro s n off a d m kh mu tw hv hb hm ho hbar htab hw
  have hready : TransformReady s true n off a d m kh mu tw := ⟨hv, hb, hm, ho, hbar, htab, hw⟩
  exact hready.leaves_by_convention

/-- Settles O43: the checks pass, no word need be written, and the limbs are those of the inverse transform. -/
theorem inttResult : Obligations.InttResult := by
  intro s n off a d m kh mu tw hv hb hm ho hbar htab
  have hready : TransformReady s false n off a d m kh mu tw :=
    ⟨hv, hb, hm, ho, hbar, htab, inputsWritten_of_ne (Nat.succ_ne_self 4)⟩
  exact hready.leaves_by_convention

end Sys2Proof.Machine
end

section
/-! PROOFS. An NTT and then an INTT (R221, R242): the second finds the operands of the first, and its transform
undoes the first. -/

namespace Sys2Proof.Machine

/-! The round trip of one limb (R221 law 4, R229, R233). -/

/-- R230: two twiddle tables that are one to the transforms of the convention. -/
def SameTable (c : Cfg) (table table' : List Nat) : Prop :=
  (c.nttConvention = .ref → ∀ f, refReads c f = true → table.getD f 0 = table'.getD f 0) ∧
    (c.nttConvention = .opq → table = table')

theorem transform_congr {c : Cfg} (hv : c.Valid) {table table' : List Nat} (h : SameTable c table table')
    (forward : Bool) (p : LimbMod) (xs : List Nat) :
    transform c forward p table xs = transform c forward p table' xs := by
  obtain ⟨href, hopq⟩ := h
  cases hconv : c.nttConvention with
  | ref =>
    simp only [transform, hconv, nttRef_congr (href hconv) hv, inttRef_congr (href hconv) hv]
  | opq => rw [hopq hconv]

/-- R225: the values a transform is given are those of its whole block. -/
theorem tableValues_same {s : State} (hv : s.cfg.Valid) (base : Nat) :
    SameTable s.cfg (tableValues s base) (tab s.cfg.twn fun f => wordAt s (base + f)) := by
  refine ⟨fun href f hf => ?_, fun hopq => tableValues_opq hopq base⟩
  rw [getD_tableValues hv href base hf,
    getD_tab_of_lt _ _ ((refReads_lt hv hf).trans_le (two_mul_ringDim_le_twn hv href))]

/-- R221 law 3: reducing what is reduced changes nothing. -/
theorem opaqueTile_of_reduced {c : Cfg} {q : Nat} {ys : List Nat} (hl : ys.length = c.ringDim) (h : Reduced q ys) :
    opaqueTile c q ys = ys := by
  conv_rhs => rw [eq_tab_getD hl 0]
  exact tab_congr fun x hx => Nat.mod_eq_of_lt (h _ (getD_mem (hl ▸ hx) 0))

/-- R229, R233: with the tables the convention expects, the inverse transform undoes the forward one. -/
theorem transform_roundTrip {c : Cfg} (hv : c.Valid) {q : Nat} {fwd inv xs : List Nat}
    (ht : RoundTripTables c q fwd inv) (hlaws : c.nttConvention = .opq → OpaqueLaws c) (hl : xs.length = c.ringDim)
    (hx : Reduced q xs) :
    transform c false ⟨q, barrettShift q, barrettRecip q⟩ inv
      (transform c true ⟨q, barrettShift q, barrettRecip q⟩ fwd xs) = xs := by
  obtain ⟨href, hopq⟩ := ht
  cases hconv : c.nttConvention with
  | ref =>
    obtain ⟨psi, psiInv, nInv, hr, hf, hi⟩ := href hconv
    simp only [transform, hconv]
    exact (refRoundTrip c q psi psiInv nInv fwd inv xs hv hr hf hi hl hx).1
  | opq =>
    obtain ⟨hlen, hlt, hback⟩ := hlaws hconv q (barrettShift q) (barrettRecip q) fwd inv xs (hopq hconv) hl hx
    simp only [transform, hconv, if_true, Bool.false_eq_true, if_false]
    rw [opaqueTile_of_reduced hlen hlt, hback, opaqueTile_of_reduced hl hx]

/-! What one invocation leaves for the next. -/

/-- R76: EXT of `t` holds, in the `n` limbs at `d`, the transforms of the limbs that `s` has at `a`. -/
def HoldsTransformed (s : State) (forward : Bool) (n off a d m kh mu tw : Nat) (t : State) : Prop :=
  ∀ l < n, ∀ x < s.cfg.ringDim, t.ext.read (d + l * s.cfg.ringDim + x) =
    some (BitVec.ofNat 64 ((transformedLimb s forward off a m kh mu tw l).getD x 0))

section
variable {s : State} {forward : Bool} {n off a d m kh mu tw : Nat} (h : TransformReady s forward n off a d m kh mu tw)
include h

theorem TransformReady.limbMod_eq {l : Nat} (hl : l < n) : limbMod s off m kh mu l =
    ⟨wordAt s (m + off + l), barrettShift (wordAt s (m + off + l)), barrettRecip (wordAt s (m + off + l))⟩ := by
  obtain ⟨hshift, hrecip⟩ := h.barrett l hl
  rw [limbMod, hshift, hrecip]

theorem TransformReady.limbValues_reduced {l : Nat} (hl : l < n) :
    Reduced (wordAt s (m + off + l)) (limbValues s a l) := reduced_tab (h.operands l hl)

/-- R221 law 3: the limbs an invocation leaves are reduced. -/
theorem TransformReady.transformedLimb_reduced {l : Nat} (hl : l < n) :
    Reduced (wordAt s (m + off + l)) (transformedLimb s forward off a m kh mu tw l) := by
  obtain ⟨hpos, hrange⟩ := h.moduli l hl
  obtain ⟨hshift, hrecip⟩ := h.barrett l hl
  have hq : 0 < wordAt s (m + off + l) := Nat.pos_of_ne_zero hpos
  refine transform_reduced h.valid forward (p := limbMod s off m kh mu l) ⟨hrange, hshift, hrecip⟩ hq
    (fun x _ => (h.limbValues_reduced hl).getD_lt hq x) fun href f hf => ?_
  rw [getD_tableValues h.valid href _ hf]
  exact h.tables l hl href f (refReads_lt h.valid hf) hf

/-- R76: the words an invocation leaves, by coefficient. -/
theorem TransformReady.leaves_words : Leaves s (transformInstr forward n off a d m kh mu tw) n d
    (HoldsTransformed s forward n off a d m kh mu tw) := by
  obtain ⟨t, hx, hstatus, hctl, hout, hwords⟩ := h.leaves
  refine ⟨t, hx, hstatus, hctl, hout, fun l hl x hx => ?_⟩
  obtain ⟨i, hi, j, hj, rfl⟩ := exists_row_column h.valid hx
  rw [← Nat.add_assoc, ← hctl.cfg]
  have hword := hwords l hl i hi j hj
  rwa [← hctl.cfg] at hword

/-- R12: the number in each of those words. -/
theorem TransformReady.wordAt_output {t : State} (hwords : HoldsTransformed s forward n off a d m kh mu tw t)
    {l x : Nat} (hl : l < n) (hx : x < s.cfg.ringDim) :
    wordAt t (d + l * s.cfg.ringDim + x) = (transformedLimb s forward off a m kh mu tw l).getD x 0 := by
  obtain ⟨hpos, hrange⟩ := h.moduli l hl
  have hlt := (h.transformedLimb_reduced hl).getD_lt (Nat.pos_of_ne_zero hpos) x
  rw [wordAt, extWord_of_read (hwords l hl x hx), word_toNat (by omega)]

end

/-- EXT words outside the write set hold the numbers they held. -/
theorem wordAt_of_apart {s t : State} {r r' : Span} (hout : SameOutside s t r) (h : ¬ r.overlaps r') {x : Nat}
    (hx : r'.Has x) : wordAt t x = wordAt s x := by
  rw [wordAt, wordAt, extWord, extWord, hout x fun hr => h (Span.overlaps_of_common hr hx)]

/-- R109: the entries of the active limbs, and the words of their tables. -/
theorem entrySpan_has (base off : Nat) {n l : Nat} (hl : l < n) : (entrySpan base off n).Has (base + off + l) :=
  ⟨Nat.le_add_right .., Nat.add_lt_add_left hl _⟩

theorem twiddleSpan_has (c : Cfg) (base off : Nat) {n l f : Nat} (hl : l < n) (hf : f < c.twn) :
    (twiddleSpan c base off n).Has (base + (off + l) * c.twn + f) := by
  have hlt := limb_offset_lt hl hf
  simp only [twiddleSpan, Span.Has, Nat.add_mul]
  omega

/-- R242: the state `t` holds the moduli, the Barrett constants and the tables at `tw` that `s` holds. -/
structure KeepsTables (s t : State) (n off m kh mu tw : Nat) : Prop where
  cfg : t.cfg = s.cfg
  modulus : ∀ l < n, wordAt t (m + off + l) = wordAt s (m + off + l)
  shift : ∀ l < n, wordAt t (kh + off + l) = wordAt s (kh + off + l)
  recip : ∀ l < n, wordAt t (mu + off + l) = wordAt s (mu + off + l)
  table : ∀ l < n, ∀ f < s.cfg.twn,
    wordAt t (tw + (off + l) * s.cfg.twn + f) = wordAt s (tw + (off + l) * s.cfg.twn + f)

/-- R242: an invocation whose write set is apart from them keeps them. -/
theorem keepsTables_of_apart {s t : State} {r : Span} {n off m kh mu tw : Nat} (hcfg : t.cfg = s.cfg)
    (hout : SameOutside s t r) (hapart : ∀ r' ∈ [entrySpan m off n, entrySpan kh off n, entrySpan mu off n,
      twiddleSpan s.cfg tw off n], ¬ r.overlaps r') : KeepsTables s t n off m kh mu tw := by
  simp only [List.forall_mem_cons, List.not_mem_nil, false_implies, implies_true, and_true] at hapart
  obtain ⟨hm, hkh, hmu, htw⟩ := hapart
  exact ⟨hcfg, fun l hl => wordAt_of_apart hout hm (entrySpan_has m off hl),
    fun l hl => wordAt_of_apart hout hkh (entrySpan_has kh off hl),
    fun l hl => wordAt_of_apart hout hmu (entrySpan_has mu off hl),
    fun l hl f hf => wordAt_of_apart hout htw (twiddleSpan_has s.cfg tw off hl hf)⟩

section
variable {s t : State} {n off m kh mu tw : Nat} (h : KeepsTables s t n off m kh mu tw) {l : Nat} (hl : l < n)
include h hl

theorem KeepsTables.limbMod_eq : limbMod t off m kh mu l = limbMod s off m kh mu l := by
  rw [limbMod, limbMod, h.modulus l hl, h.shift l hl, h.recip l hl]

theorem KeepsTables.tableOk (hv : s.cfg.Valid) (hok : TableOk s (tw + (off + l) * s.cfg.twn) (wordAt s (m + off + l))) :
    TableOk t (tw + (off + l) * t.cfg.twn) (wordAt t (m + off + l)) := by
  rw [TableOk, h.cfg, h.modulus l hl]
  intro href f hf hread
  rw [h.table l hl f (hf.trans_le (two_mul_ringDim_le_twn hv href))]
  exact hok href f hf hread

theorem KeepsTables.tableValues_same (hv : s.cfg.Valid) :
    SameTable s.cfg (tableValues t (tw + (off + l) * s.cfg.twn))
      (tab s.cfg.twn fun f => wordAt s (tw + (off + l) * s.cfg.twn + f)) := by
  have hsame := Machine.tableValues_same (s := t) (h.cfg ▸ hv) (tw + (off + l) * s.cfg.twn)
  rwa [h.cfg, tab_congr (h.table l hl)] at hsame

end

/-- R242: the INTT that follows an NTT finds the operands it needs. -/
theorem TransformReady.inverse {s t : State} {n off a b d m kh mu tw itw : Nat}
    (h : TransformReady s true n off a b m kh mu tw) (hk : KeepsTables s t n off m kh mu itw)
    (hb : BoundaryOk s (.intt n off b d m kh mu itw) n off)
    (htab : ∀ l < n, TableOk s (itw + (off + l) * s.cfg.twn) (wordAt s (m + off + l)))
    (hwords : HoldsTransformed s true n off a b m kh mu tw t) : TransformReady t false n off b d m kh mu itw where
  valid := hk.cfg ▸ h.valid
  boundary := by
    rw [BoundaryOk, InRange, hk.cfg]
    exact hb
  moduli l hl := by
    rw [ModulusOk, hk.modulus l hl]
    exact h.moduli l hl
  operands l hl x hx := by
    rw [hk.cfg] at hx
    obtain ⟨hpos, -⟩ := h.moduli l hl
    rw [hk.modulus l hl, hk.cfg, tiledAddr, h.wordAt_output hwords hl hx]
    exact (h.transformedLimb_reduced hl).getD_lt (Nat.pos_of_ne_zero hpos) x
  barrett l hl := by
    rw [hk.shift l hl, hk.recip l hl, hk.modulus l hl]
    exact h.barrett l hl
  tables l hl := hk.tableOk hl h.valid (htab l hl)
  written := inputsWritten_of_ne (Nat.succ_ne_self 4)

/-- R242: the limb that the INTT leaves is the limb the NTT was given. -/
theorem TransformReady.transformedLimb_inverse {s t : State} {n off a b m kh mu tw itw : Nat}
    (h : TransformReady s true n off a b m kh mu tw) (hk : KeepsTables s t n off m kh mu itw)
    (hlaws : s.cfg.nttConvention = .opq → OpaqueLaws s.cfg)
    (hwords : HoldsTransformed s true n off a b m kh mu tw t) {l : Nat} (hl : l < n)
    (ht : RoundTripTables s.cfg (wordAt s (m + off + l))
      (tab s.cfg.twn fun f => wordAt s (tw + (off + l) * s.cfg.twn + f))
      (tab s.cfg.twn fun f => wordAt s (itw + (off + l) * s.cfg.twn + f))) :
    transformedLimb t false off b m kh mu itw l = limbValues s a l := by
  have hinput : limbValues t b l = transformedLimb s true off a m kh mu tw l := by
    have hlen : (transformedLimb s true off a m kh mu tw l).length = s.cfg.ringDim := length_transform ..
    rw [limbValues, hk.cfg, eq_tab_getD hlen 0]
    exact tab_congr fun x hx => h.wordAt_output hwords hl hx
  rw [transformedLimb, hk.cfg, transform_congr h.valid (hk.tableValues_same hl h.valid), hk.limbMod_eq hl, hinput,
    transformedLimb, transform_congr h.valid (tableValues_same h.valid _), h.limbMod_eq hl]
  exact transform_roundTrip h.valid ht hlaws (length_tab ..) (h.limbValues_reduced hl)

/-- Settles O48: the INTT finds the NTT's output reduced and its own operands untouched, and its transform undoes the
first. -/
theorem nttThenInttCopies : Obligations.NttThenInttCopies := by
  intro s n off a b d m kh mu tw itw hv hb hb' hm ho hbar hw htab htab' hapart hlaws hround
  have hready : TransformReady s true n off a b m kh mu tw := ⟨hv, hb, hm, ho, hbar, htab, hw⟩
  obtain ⟨t, ht, -, hctl, hout, hwords⟩ := hready.leaves_words
  have hk : KeepsTables s t n off m kh mu itw := keepsTables_of_apart hctl.cfg hout hapart
  have hready' : TransformReady t false n off b d m kh mu itw := hready.inverse hk hb' htab' hwords
  obtain ⟨u, hu, hstatus, -, -, hwords'⟩ := hready'.leaves_words
  refine ⟨t, u, ht, hu, hstatus, fun y hy => ?_⟩
  have hl : y / s.cfg.ringDim < n := Nat.div_lt_of_lt_mul (by rwa [Nat.mul_comm])
  have hx : y % s.cfg.ringDim < s.cfg.ringDim := Nat.mod_lt _ (ringDim_pos hv)
  have hword := hwords' _ hl _ (hctl.cfg ▸ hx)
  rw [hctl.cfg] at hword
  rwa [hready.transformedLimb_inverse hk hlaws hwords hl (hround _ hl), limbValues, getD_tab_of_lt _ _ hx, wordAt,
    BitVec.ofNat_toNat, BitVec.setWidth_eq, Nat.add_assoc, Nat.add_assoc, Nat.div_add_mod'] at hword

end Sys2Proof.Machine
end
